-- ==== Sys2Proof/Word.lean ====
section
/-! DEFINITION. The byte, the one width of every wire field and every buffer cell (00_scope R5, R6; 20_memory R45). -/

namespace Sys2Proof

/-- A byte: an 8-bit unsigned value, bit 0 the least significant (00_scope R6). -/
abbrev Byte := BitVec 8

end Sys2Proof
end

