-- ==== Sys2Proof/Config.lean ====
section
/-! DEFINITION. The implementation parameters of 00_scope R5: the constants the spec fixes, and the one parameter
(`FRAME_TIMEOUT_TICKS`, written `T`) it leaves open. `TIMEOUT_W` and `PLEN_W` have no field: R5 and R16 let a model
use natural numbers (log entries 5 and 22). -/

namespace Sys2Proof

/-- `PAYLOAD_MAX`, the greatest payload length ENC accepts (R5). -/
abbrev payloadMax : Nat := 254

/-- `DEC_BUF_DEPTH`, the cells of the decoder body buffer (R5). -/
abbrev decBufDepth : Nat := 255

/-- `ENC_PAY_DEPTH`, the cells of the encoder payload latch (R5). -/
abbrev encPayDepth : Nat := 254

/-- The configuration of the block: "a constant fixed before reset is released and never changed while the block
runs" (10_state R29). No instruction writes it. -/
structure Config where
  /-- `FRAME_TIMEOUT_TICKS`, written `T`: the idle ticks inside one frame body after which DEC discards (R5). -/
  frameTimeoutTicks : Nat
deriving DecidableEq, Repr

/-- The default of R5, `T = 20`. -/
def Config.standard : Config := ⟨20⟩

/-- The parameter's domain, `T >= 1` (R5; 93 V11 refuses `T = 0`). -/
abbrev Config.Valid (c : Config) : Prop := 1 ≤ c.frameTimeoutTicks

/-! ### Free values: what the spec leaves open of "the IEEE-754 binary32 value nearest `x`" (30_encoding R74; log entry 27).
They concern the notation only; no step of a unit reads them. -/

/-- Whether the greater neighbour in magnitude is taken where `x` lies exactly between two binary32 values. -/
opaque Config.f32TieUp : Rat → Bool

/-- The pattern for a number whose nearest value would lie beyond the greatest finite one. -/
opaque Config.f32Overflow : Rat → BitVec 32

/-- The sign bit of the zero that a negative number rounds to. -/
opaque Config.f32ZeroSign : Rat → Bool

end Sys2Proof
end

