-- ==== Sys2Proof/Syntax.lean ====
section
/-! DEFINITION. The instruction set: one constructor of `Instr` for each of the 38 rows of opcode_table.json
(30_encoding R72), and the small types its operands are made of. -/

namespace Sys2Proof

/-- The three link symbols a DEC step can receive (00_scope R9). -/
inductive LinkSym
  | notReady
  | readyEmpty
  | readyByte (b : Byte)
deriving DecidableEq, Repr

/-- The symbols of an idle step: `NotReady` or `ReadyEmpty` (00_scope R9). -/
inductive IdleSym
  | notReady
  | readyEmpty
deriving DecidableEq, Repr

/-- An idle symbol as a link symbol. -/
def IdleSym.link : IdleSym → LinkSym
  | .notReady => .notReady
  | .readyEmpty => .readyEmpty

/-- Which of the two byte streams of 20_memory R40 a frame is on: `tx`, the stream ENC writes, or `rx`, the stream
DEC reads. -/
inductive Side
  | tx
  | rx
deriving DecidableEq, Repr

/-- The units that take the reset step: `rst` is an "input to both units" (10_state R34), each samples it in a step of
its own (00_scope R8), and the statement `RESET` is one step of both (30_encoding R73). Log entry 14. -/
inductive ResetScope
  | both
  | dec
  | enc
deriving DecidableEq, Repr

/-- The accumulator register of CHK's accumulator form: `dec_acc` or `enc_acc` (40_checksum R81). -/
inductive AccReg
  | dec
  | enc
deriving DecidableEq, Repr

/-- The consumer's classes of a delivered event (43_frame_types R145). -/
inductive DispatchClass
  | discovery
  | cpu
  | mem
  | ignore
deriving DecidableEq, Repr

/-- The result of `Encode(t, p)`: a byte sequence or `Reject(OVERSIZE)` (41_encoder R90). -/
inductive EncodeResult
  | frame (bytes : List Byte)
  | rejectOversize
deriving DecidableEq, Repr

/-- The instructions, by the format of their row. Each operand is what the rule of the row takes from outside the
unit's registers; what a rule ignores (93 V7) is no operand, but for the ignored port bits of a link symbol word (93 V8,
V9), which are kept so that the 10-bit word can be read back. -/
inductive Instr
  -- WIRE: a whole frame, on the tx or on the rx stream (43_frame_types R141 to R144)
  | frameDiscovery (side : Side)
  | frameCpu (side : Side) (p0 p1 p2 p3 : Byte)
  | frameMem (side : Side) (p0 p1 p2 p3 : Byte)
  | frameReserved (side : Side) (t : Byte) (p : List Byte)
  -- LEN: the byte in length position (42_decoder R112, R113)
  | lenZero
  | lenValid (b : Byte)
  -- LINKSYM: the link symbol word `S` (10_state R30)
  | linkNotReady (rdValid : Bool) (data : Byte)
  | linkReadyEmpty (data : Byte)
  | linkReadyByte (b : Byte)
  -- DECSEL: the rules of DEC (42_decoder R111 to R121)
  | decAlIdle (y : IdleSym)
  | decAlZero
  | decAlLatch (b : Byte)
  | decAbStore (b : Byte)
  | decAbStoreLast (b : Byte)
  | decAbWait (y : IdleSym)
  | decAbTimeout (y : IdleSym)
  | decAcDeliver (c : Byte)
  | decAcMissing (y : IdleSym)
  | decAcMismatch (c : Byte)
  -- ENCSEL: the rules of ENC (41_encoder R91 to R100)
  | encIdleNop
  | encIdleAccept (t : Byte) (p : List Byte)
  | encIdleReject (t : Byte) (p : List Byte)
  | encLenStall
  | encTypeStall
  | encPayloadStall
  | encChkStall
  | encLenEmit
  | encTypeEmit
  | encTypeEmitEmpty
  | encPayloadEmit
  | encPayloadEmitLast
  | encChkEmit
  -- RST (70_reset_and_hazards R176)
  | reset (scope : ResetScope)
  -- FUNC: no selecting pattern (40_checksum R80, R81; 41_encoder R90; 43_frame_types R145)
  | chkFold (bs : List Byte)
  | chkClear (r : AccReg)
  | chkAbsorb (r : AccReg) (b : Byte)
  | encode (t : Byte) (p : List Byte)
  | dispatchClass (t : Byte) (n : Nat)
deriving DecidableEq, Repr

end Sys2Proof
end

