-- ==== Sys2Proof/Machine/Wire.lean ====
section
/-! DEFINITION. The pure functions over bytes: CHK (40_checksum), `Encode` (41_encoder R90), the header word
(30_encoding R65), the consumer's classification (43_frame_types R145) and the byte order of a float payload
(20_memory R44). -/

namespace Sys2Proof

/-- `CHK.ABSORB(b)`: the accumulator after absorbing `b` (40_checksum R81). -/
def absorb (acc b : Byte) : Byte := acc ^^^ b

/-- `Chk(s)`: the XOR of every byte, 0 for the empty sequence (40_checksum R80). R85 lists, among what goes undetected, a
`0x00` byte inserted or removed "when the length byte is changed to suit"; by R80 the fold then changes by `L ^ L'`, which
is not 0. DESIGN CHOICE: the model follows R80, so such a change is detected (log entry 26). -/
def chk (s : List Byte) : Byte := s.foldl absorb 0#8

/-- `Encode(t, p)` (41_encoder R90). The sum `1 + n` is formed for `n <= 254` only (R103). -/
def encodeFrame (t : Byte) (p : List Byte) : EncodeResult :=
  if p.length > payloadMax then .rejectOversize
  else
    let f := BitVec.ofNat 8 (1 + p.length) :: t :: p
    .frame (f ++ [chk f])

/-- The header word `H = length ‖ type` (30_encoding R65): bits 15:8 the length byte, bits 7:0 the type byte. -/
def headerWord (len t : Byte) : BitVec 16 := len ++ t

/-- `DispatchClass(t, n)` (43_frame_types R145). -/
def classify (t : Byte) (n : Nat) : DispatchClass :=
  if t = 0xFF#8 ∧ n = 0 then .discovery
  else if t = 0x01#8 ∧ n = 4 then .cpu
  else if t = 0x02#8 ∧ n = 4 then .mem
  else .ignore

/-- The magnitude of a binary32 pattern without its sign bit, in units of `2^-149`: 8 exponent bits over 23 fraction bits
(43_frame_types R146); the bias and the subnormals are IEEE-754's (PRESUMED, log entry 23). -/
def f32Units (w : Nat) : Nat := if w < 2 ^ 23 then w else (2 ^ 23 + w % 2 ^ 23) * 2 ^ (w / 2 ^ 23 - 1)

/-- The greatest pattern whose magnitude is at most `q` units. -/
def f32Below (q : Nat) : Nat := (Nat.log2 q - 23) * 2 ^ 23 + q / 2 ^ (Nat.log2 q - 23)

/-- The pattern of infinity without its sign bit, one above the greatest finite pattern. -/
abbrev f32Infinity : Nat := 255 * 2 ^ 23

/-- The magnitude nearest to that of `x`; halfway between two, which one is free (log entry 27). -/
def f32Magnitude (x : Rat) : Nat :=
  let units := x.num.natAbs * 2 ^ 149
  let w := f32Below (units / x.den)
  let sum := (f32Units w + f32Units (w + 1)) * x.den
  if 2 * units < sum then w
  else if sum < 2 * units then w + 1
  else if Config.f32TieUp x then w + 1 else w

/-- The sign bit of a number whose magnitude rounds to `w`. -/
def f32Sign (x : Rat) (w : Nat) : Bool := decide (x.num < 0) && (w != 0 || Config.f32ZeroSign x)

/-- "The IEEE-754 binary32 value nearest `x`", as its bit pattern (30_encoding R74). -/
def f32Nearest (x : Rat) : BitVec 32 :=
  if f32Infinity ≤ f32Magnitude x then Config.f32Overflow x
  else BitVec.ofBool (f32Sign x (f32Magnitude x)) ++ BitVec.ofNat 31 (f32Magnitude x)

/-- The four bytes of a binary32 bit pattern, least significant byte first (20_memory R44, 43_frame_types R146). -/
def f32Bytes (w : BitVec 32) : List Byte :=
  [w.extractLsb' 0 8, w.extractLsb' 8 8, w.extractLsb' 16 8, w.extractLsb' 24 8]

/-- `f32le(x)`: "the four bytes of the IEEE-754 binary32 value nearest `x`, least significant byte first" (30_encoding
R74). -/
def f32le (x : Rat) : List Byte := f32Bytes (f32Nearest x)

end Sys2Proof
end

