-- ==== Sys2Proof/WellFormed.lean ====
section
/-! DEFINITION. Which instructions are well formed: the ranges their rows and rules give their operands. -/

namespace Sys2Proof

/-- Whether (`t`, payload length `n`) is one of the three registered headers of 30_encoding R66. -/
def registered (t : Byte) (n : Nat) : Bool :=
  (t == 0xFF#8 && n == 0) || (t == 0x01#8 && n == 4) || (t == 0x02#8 && n == 4)

/-- The operands an instruction's row admits:
a frame's payload has at most 254 bytes (R61) and FRAME.RESERVED is taken "when no other WIRE row matches" (R72);
a valid length byte is not zero (R68), nor is a latched one (R113);
an accepted command has at most 254 payload bytes, a rejected one at least 255 (R92, R93);
the payload length of a delivered event is at most 254 (R31). -/
def Instr.wf : Instr → Bool
  | .frameDiscovery _ => true
  | .frameCpu _ _ _ _ _ => true
  | .frameMem _ _ _ _ _ => true
  | .frameReserved _ t p => decide (p.length ≤ payloadMax) && !registered t p.length
  | .lenZero => true
  | .lenValid b => b != 0#8
  | .linkNotReady _ _ => true
  | .linkReadyEmpty _ => true
  | .linkReadyByte _ => true
  | .decAlIdle _ => true
  | .decAlZero => true
  | .decAlLatch b => b != 0#8
  | .decAbStore _ => true
  | .decAbStoreLast _ => true
  | .decAbWait _ => true
  | .decAbTimeout _ => true
  | .decAcDeliver _ => true
  | .decAcMissing _ => true
  | .decAcMismatch _ => true
  | .encIdleNop => true
  | .encIdleAccept _ p => decide (p.length ≤ payloadMax)
  | .encIdleReject _ p => decide (payloadMax < p.length)
  | .encLenStall => true
  | .encTypeStall => true
  | .encPayloadStall => true
  | .encChkStall => true
  | .encLenEmit => true
  | .encTypeEmit => true
  | .encTypeEmitEmpty => true
  | .encPayloadEmit => true
  | .encPayloadEmitLast => true
  | .encChkEmit => true
  | .reset _ => true
  | .chkFold _ => true
  | .chkClear _ => true
  | .chkAbsorb _ _ => true
  | .encode _ _ => true
  | .dispatchClass _ n => decide (n ≤ payloadMax)

end Sys2Proof
end

