-- ==== Sys2Proof/Decode.lean ====
section
/-! DEFINITION. The decoder, total on any bytes and rejecting by name, and after it the encoder.

Most rows of opcode_table.json are not instruction words but an exact index into the rules (30_encoding section 5): the
word's bits say which row is chosen, the operands come from the ports. So an instruction's IMAGE here is its format
(which word it is) and a list of bytes: the selecting word first, then the port values that are its operands (log
entries 15 and 17). The rows themselves are the table's (match, mask) pairs. -/

namespace Sys2Proof

/-- The five functions of format FUNC, which have "no selecting pattern" (30_encoding R72): the name selects. -/
inductive FuncName
  | chkFold
  | chkClear
  | chkAbsorb
  | encode
  | dispatchClass
deriving DecidableEq, Repr

/-- The formats of opcode_table.json (30_encoding R72). -/
inductive Format
  | wire (side : Side)
  | len
  | linksym
  | decsel
  | encsel
  | rst
  | func (f : FuncName)
deriving DecidableEq, Repr

/-- Why an image is rejected. -/
inductive DecodeError
  /-- fewer bytes than the format, or the frame's length byte, asks for -/
  | truncated
  /-- more bytes than the format, or the frame's length byte, asks for -/
  | trailing
  /-- `0x00` in length position: "the one byte value that cannot begin a frame" (30_encoding R68) -/
  | zeroLength
  /-- the checksum byte is not the fold of the span (30_encoding R61, R62) -/
  | badChecksum
  /-- a bit above the word's width is set -/
  | reservedBits
  /-- no row of the format matches the word -/
  | noRow
  /-- the operands contradict the row that the word selects -/
  | badOperand
deriving DecidableEq, Repr

/-- Whether `(word AND mask) = match` (30_encoding R72). -/
def rowHit (n : Nat) (word : BitVec n) (m : BitVec n × BitVec n) : Bool := word &&& m.2 == m.1

/-- The first row of a table that a word hits. A catch-all row with mask 0 stands last in its table, so that "a row with
a larger mask takes precedence" (30_encoding R72). -/
def selectRow {α : Type} (n : Nat) (table : List (α × BitVec n × BitVec n)) (word : BitVec n) : Option α :=
  match table with
  | [] => none
  | r :: rest => if rowHit n word r.2 then some r.1 else selectRow n rest word

/-! ### WIRE -/

/-- The rows of format WIRE. -/
inductive WireRow
  | discovery
  | cpu
  | mem
  | reserved
deriving DecidableEq, Repr

/-- Format WIRE over `H` (30_encoding R65, R66). -/
def wireTable : List (WireRow × BitVec 16 × BitVec 16) :=
  [(.discovery, 0x01FF#16, 0xFFFF#16), (.cpu, 0x0501#16, 0xFFFF#16), (.mem, 0x0502#16, 0xFFFF#16),
   (.reserved, 0x0000#16, 0x0000#16)]

/-- A WIRE row with its operands, the payload bytes. -/
def wireInstr (r : WireRow) (side : Side) (t : Byte) (p : List Byte) : Option Instr :=
  match r, p with
  | .discovery, [] => some (.frameDiscovery side)
  | .cpu, [p0, p1, p2, p3] => some (.frameCpu side p0 p1 p2 p3)
  | .mem, [p0, p1, p2, p3] => some (.frameMem side p0 p1 p2 p3)
  | .reserved, p => some (.frameReserved side t p)
  | _, _ => none

/-- The WIRE instruction of a type byte and a payload of at most 254 bytes. -/
def selectWire (side : Side) (t : Byte) (p : List Byte) : Option Instr :=
  (selectRow 16 wireTable (headerWord (BitVec.ofNat 8 (1 + p.length)) t)).bind (fun r => wireInstr r side t p)

/-- A frame taken apart: `[L] ++ body ++ [c]` with `len(body) = L`, `type = body[0]`, `payload = body[1:]` (30_encoding
R60, R63, R64), accepted if it is well formed (R61). -/
def decodeWire (side : Side) (bytes : List Byte) : Except DecodeError Instr :=
  match bytes with
  | [] => .error .truncated
  | l :: rest =>
    if l = 0#8 then .error .zeroLength
    else if rest.length < l.toNat + 1 then .error .truncated
    else if l.toNat + 1 < rest.length then .error .trailing
    else match rest.take l.toNat, rest.drop l.toNat with
      | t :: p, [c] =>
        if c = chk (l :: t :: p) then
          match selectWire side t p with
          | some i => .ok i
          | none => .error .noRow
        else .error .badChecksum
      | _, _ => .error .truncated

/-! ### LEN -/

/-- The rows of format LEN. -/
inductive LenRow
  | zero
  | valid
deriving DecidableEq, Repr

/-- Format LEN over the byte in length position (30_encoding R68, R69). -/
def lenTable : List (LenRow × BitVec 8 × BitVec 8) := [(.zero, 0x00#8, 0xFF#8), (.valid, 0x00#8, 0x00#8)]

/-- The byte in length position. -/
def decodeLen (bytes : List Byte) : Except DecodeError Instr :=
  match bytes with
  | [] => .error .truncated
  | [b] =>
    match selectRow 8 lenTable b with
    | some .zero => .ok .lenZero
    | some .valid => .ok (.lenValid b)
    | none => .error .noRow
  | _ => .error .trailing

/-! ### LINKSYM -/

/-- The rows of format LINKSYM. -/
inductive LinkRow
  | notReady
  | readyEmpty
  | readyByte
deriving DecidableEq, Repr

/-- Format LINKSYM over the 10-bit word `S` (10_state R30). -/
def linkTable : List (LinkRow × BitVec 10 × BitVec 10) :=
  [(.notReady, 0x000#10, 0x200#10), (.readyEmpty, 0x200#10, 0x300#10), (.readyByte, 0x300#10, 0x300#10)]

/-- The LINKSYM instruction of a word `S`, its ignored bits kept. -/
def decodeLinkSym (w : BitVec 10) : Option Instr :=
  match selectRow 10 linkTable w with
  | some .notReady => some (.linkNotReady (w.getLsbD 8) (w.extractLsb' 0 8))
  | some .readyEmpty => some (.linkReadyEmpty (w.extractLsb' 0 8))
  | some .readyByte => some (.linkReadyByte (w.extractLsb' 0 8))
  | none => none

/-- The link symbol of a word `S`: `rx_poll = 0` gives `NotReady` whatever the other two ports hold (10_state R30; 93 V8,
V9). -/
def linkSymOf (w : BitVec 10) : LinkSym :=
  match selectRow 10 linkTable w with
  | some .readyByte => .readyByte (w.extractLsb' 0 8)
  | some .readyEmpty => .readyEmpty
  | _ => .notReady

/-- The word `S` in two bytes, bits 7:0 first, whose bits 15:10 are no bits of `S`. -/
def linkWordOf (lo hi : Byte) : Option (BitVec 10) :=
  if hi.toNat < 4 then some (hi.extractLsb' 0 2 ++ lo) else none

/-- The image of a link symbol word. -/
def decodeLink (bytes : List Byte) : Except DecodeError Instr :=
  match bytes with
  | [lo, hi] =>
    match linkWordOf lo hi with
    | none => .error .reservedBits
    | some w =>
      match decodeLinkSym w with
      | some i => .ok i
      | none => .error .noRow
  | _ :: _ :: _ :: _ => .error .trailing
  | _ => .error .truncated

/-! ### DECSEL -/

/-- The rows of format DECSEL. -/
inductive DecSelRow
  | alIdle
  | alZero
  | alLatch
  | abStore
  | abStoreLast
  | abWait
  | abTimeout
  | acDeliver
  | acMissing
  | acMismatch
deriving DecidableEq, Repr

/-- Format DECSEL over the 7-bit word `Q` (30_encoding R70). -/
def decSelTable : List (DecSelRow × BitVec 7 × BitVec 7) :=
  [(.alIdle, 0x00#7, 0x70#7), (.alZero, 0x18#7, 0x78#7), (.alLatch, 0x10#7, 0x78#7),
   (.abStore, 0x30#7, 0x74#7), (.abStoreLast, 0x34#7, 0x74#7),
   (.abWait, 0x20#7, 0x72#7), (.abTimeout, 0x22#7, 0x72#7),
   (.acDeliver, 0x51#7, 0x71#7), (.acMissing, 0x40#7, 0x70#7), (.acMismatch, 0x50#7, 0x71#7)]

/-- The row of DEC's step. -/
def selectDecRow (q : BitVec 7) : Option DecSelRow := selectRow 7 decSelTable q

/-- A DECSEL row that takes an idle symbol, with its operand. -/
def idleInstr (mk : IdleSym → Instr) (sym : LinkSym) : Option Instr :=
  match sym with
  | .notReady => some (mk .notReady)
  | .readyEmpty => some (mk .readyEmpty)
  | .readyByte _ => none

/-- A DECSEL row that takes the byte on the link, with its operand. -/
def byteInstr (mk : Byte → Option Instr) (sym : LinkSym) : Option Instr :=
  match sym with
  | .readyByte b => mk b
  | _ => none

/-- A DECSEL row with its operand, the link symbol of the step; `none` where the symbol contradicts the row. -/
def decSelInstr (r : DecSelRow) (sym : LinkSym) : Option Instr :=
  match r with
  | .alIdle => idleInstr .decAlIdle sym
  | .alZero => byteInstr (fun b => if b = 0#8 then some .decAlZero else none) sym
  | .alLatch => byteInstr (fun b => if b = 0#8 then none else some (.decAlLatch b)) sym
  | .abStore => byteInstr (fun b => some (.decAbStore b)) sym
  | .abStoreLast => byteInstr (fun b => some (.decAbStoreLast b)) sym
  | .abWait => idleInstr .decAbWait sym
  | .abTimeout => idleInstr .decAbTimeout sym
  | .acDeliver => byteInstr (fun c => some (.decAcDeliver c)) sym
  | .acMissing => idleInstr .decAcMissing sym
  | .acMismatch => byteInstr (fun c => some (.decAcMismatch c)) sym

/-- The DECSEL instruction of a selection word and a link symbol. -/
def decodeDecSel (q : BitVec 7) (sym : LinkSym) : Option Instr := (selectDecRow q).bind (fun r => decSelInstr r sym)

/-- The image of a DECSEL instruction: `Q` in one byte (bit 7 is no bit of `Q`), then the word `S` of the step's link
symbol in two. -/
def decodeDec (bytes : List Byte) : Except DecodeError Instr :=
  match bytes with
  | [q, lo, hi] =>
    if q.toNat < 128 then
      match linkWordOf lo hi with
      | none => .error .reservedBits
      | some w =>
        match selectDecRow (q.extractLsb' 0 7) with
        | none => .error .noRow
        | some r =>
          match decSelInstr r (linkSymOf w) with
          | some i => .ok i
          | none => .error .badOperand
    else .error .reservedBits
  | _ :: _ :: _ :: _ :: _ => .error .trailing
  | _ => .error .truncated

/-! ### ENCSEL -/

/-- The rows of format ENCSEL. -/
inductive EncSelRow
  | idleNop
  | idleAccept
  | idleReject
  | lenStall
  | typeStall
  | payloadStall
  | chkStall
  | lenEmit
  | typeEmit
  | typeEmitEmpty
  | payloadEmit
  | payloadEmitLast
  | chkEmit
deriving DecidableEq, Repr

/-- Format ENCSEL over the 8-bit word `W` (30_encoding R71). -/
def encSelTable : List (EncSelRow × BitVec 8 × BitVec 8) :=
  [(.idleNop, 0x00#8, 0xF0#8), (.idleAccept, 0x10#8, 0xF8#8), (.idleReject, 0x18#8, 0xF8#8),
   (.lenStall, 0x20#8, 0xE4#8), (.typeStall, 0x40#8, 0xE4#8), (.payloadStall, 0x60#8, 0xE4#8),
   (.chkStall, 0x80#8, 0xE4#8), (.lenEmit, 0x24#8, 0xE4#8),
   (.typeEmit, 0x44#8, 0xE6#8), (.typeEmitEmpty, 0x46#8, 0xE6#8),
   (.payloadEmit, 0x64#8, 0xE5#8), (.payloadEmitLast, 0x65#8, 0xE5#8), (.chkEmit, 0x84#8, 0xE4#8)]

/-- The row of ENC's step. -/
def selectEncRow (w : BitVec 8) : Option EncSelRow := selectRow 8 encSelTable w

/-- An ENCSEL row with its operands, the command on the ports (`t` and `p` are looked at by the two rows that need
them: 10_state R32, 93 V7); `none` where the payload's length contradicts the row. -/
def encSelInstr (r : EncSelRow) (t : Byte) (p : List Byte) : Option Instr :=
  match r with
  | .idleNop => some .encIdleNop
  | .idleAccept => if p.length ≤ payloadMax then some (.encIdleAccept t p) else none
  | .idleReject => if p.length ≤ payloadMax then none else some (.encIdleReject t p)
  | .lenStall => some .encLenStall
  | .typeStall => some .encTypeStall
  | .payloadStall => some .encPayloadStall
  | .chkStall => some .encChkStall
  | .lenEmit => some .encLenEmit
  | .typeEmit => some .encTypeEmit
  | .typeEmitEmpty => some .encTypeEmitEmpty
  | .payloadEmit => some .encPayloadEmit
  | .payloadEmitLast => some .encPayloadEmitLast
  | .chkEmit => some .encChkEmit

/-- The ENCSEL instruction of a selection word and the command on the ports. -/
def decodeEncSel (w : BitVec 8) (t : Byte) (p : List Byte) : Option Instr :=
  (selectEncRow w).bind (fun r => encSelInstr r t p)

/-- The image of an ENCSEL instruction: `W`, then, exactly when its bit `start` is set, the command's type byte and
payload. -/
def decodeEnc (bytes : List Byte) : Except DecodeError Instr :=
  match bytes with
  | [] => .error .truncated
  | w :: rest =>
    match selectEncRow w with
    | none => .error .noRow
    | some r =>
      if w.getLsbD 4 then
        match rest with
        | [] => .error .truncated
        | t :: p =>
          match encSelInstr r t p with
          | some i => .ok i
          | none => .error .badOperand
      else if rest = [] then
        match encSelInstr r 0#8 [] with
        | some i => .ok i
        | none => .error .badOperand
      else .error .trailing

/-! ### RST -/

/-- The image of a reset: the word of format RST (match 1, mask 1; the word has one bit), then which units sample it. -/
def decodeRst (bytes : List Byte) : Except DecodeError Instr :=
  match bytes with
  | [w, scope] =>
    if 1 < w.toNat then .error .reservedBits
    else if w = 0#8 then .error .noRow
    else if scope = 0#8 then .ok (.reset .both)
    else if scope = 1#8 then .ok (.reset .dec)
    else if scope = 2#8 then .ok (.reset .enc)
    else .error .badOperand
  | _ :: _ :: _ :: _ => .error .trailing
  | _ => .error .truncated

/-! ### FUNC -/

/-- The accumulator register an image names. -/
def accRegOf (b : Byte) : Option AccReg :=
  if b = 0#8 then some .dec else if b = 1#8 then some .enc else none

/-- The image of a FUNC instruction: its operands alone. -/
def decodeFunc (f : FuncName) (bytes : List Byte) : Except DecodeError Instr :=
  match f, bytes with
  | .chkFold, bs => .ok (.chkFold bs)
  | .chkClear, [r] =>
    match accRegOf r with
    | some r => .ok (.chkClear r)
    | none => .error .badOperand
  | .chkAbsorb, [b, r] =>
    match accRegOf r with
    | some r => .ok (.chkAbsorb r b)
    | none => .error .badOperand
  | .encode, t :: p => .ok (.encode t p)
  | .dispatchClass, [t, n] => if n.toNat ≤ payloadMax then .ok (.dispatchClass t n.toNat) else .error .badOperand
  | .chkClear, _ :: _ :: _ => .error .trailing
  | .chkAbsorb, _ :: _ :: _ :: _ => .error .trailing
  | .dispatchClass, _ :: _ :: _ :: _ => .error .trailing
  | _, _ => .error .truncated

/-- The decoder: total on any bytes of any format. -/
def decode (f : Format) (bytes : List Byte) : Except DecodeError Instr :=
  match f with
  | .wire side => decodeWire side bytes
  | .len => decodeLen bytes
  | .linksym => decodeLink bytes
  | .decsel => decodeDec bytes
  | .encsel => decodeEnc bytes
  | .rst => decodeRst bytes
  | .func g => decodeFunc g bytes

/-! ### The encoder -/

/-- The format an instruction's image is in. -/
def formatOf : Instr → Format
  | .frameDiscovery side => .wire side
  | .frameCpu side _ _ _ _ => .wire side
  | .frameMem side _ _ _ _ => .wire side
  | .frameReserved side _ _ => .wire side
  | .lenZero => .len
  | .lenValid _ => .len
  | .linkNotReady _ _ => .linksym
  | .linkReadyEmpty _ => .linksym
  | .linkReadyByte _ => .linksym
  | .decAlIdle _ => .decsel
  | .decAlZero => .decsel
  | .decAlLatch _ => .decsel
  | .decAbStore _ => .decsel
  | .decAbStoreLast _ => .decsel
  | .decAbWait _ => .decsel
  | .decAbTimeout _ => .decsel
  | .decAcDeliver _ => .decsel
  | .decAcMissing _ => .decsel
  | .decAcMismatch _ => .decsel
  | .encIdleNop => .encsel
  | .encIdleAccept _ _ => .encsel
  | .encIdleReject _ _ => .encsel
  | .encLenStall => .encsel
  | .encTypeStall => .encsel
  | .encPayloadStall => .encsel
  | .encChkStall => .encsel
  | .encLenEmit => .encsel
  | .encTypeEmit => .encsel
  | .encTypeEmitEmpty => .encsel
  | .encPayloadEmit => .encsel
  | .encPayloadEmitLast => .encsel
  | .encChkEmit => .encsel
  | .reset _ => .rst
  | .chkFold _ => .func .chkFold
  | .chkClear _ => .func .chkClear
  | .chkAbsorb _ _ => .func .chkAbsorb
  | .encode _ _ => .func .encode
  | .dispatchClass _ _ => .func .dispatchClass

/-- The wire bytes of a frame: length, type, payload, checksum (20_memory R43, 30_encoding R60). -/
def frameImage (t : Byte) (p : List Byte) : List Byte :=
  let span := BitVec.ofNat 8 (1 + p.length) :: t :: p
  span ++ [chk span]

/-- The two bytes of a link symbol's word `S`, its ignored bits 0. -/
def symImage : LinkSym → List Byte
  | .notReady => [0x00#8, 0x00#8]
  | .readyEmpty => [0x00#8, 0x02#8]
  | .readyByte b => [b, 0x03#8]

/-- A DECSEL image with an idle symbol. -/
def idleImage (q : Byte) (y : IdleSym) : List Byte := q :: symImage y.link

/-- A DECSEL image with a byte: bit `z` of `Q` is `b = 0x00` (30_encoding R70). -/
def byteImage (q : Byte) (b : Byte) : List Byte := (if b = 0#8 then q ||| 0x08#8 else q) :: symImage (.readyByte b)

/-- The byte that names an accumulator register. -/
def accRegImage : AccReg → Byte
  | .dec => 0#8
  | .enc => 1#8

/-- The encoder: an instruction's image. Bits of a selection word outside the row's mask that the operands do not fix
are 0. -/
def encode : Instr → List Byte
  | .frameDiscovery _ => frameImage 0xFF#8 []
  | .frameCpu _ p0 p1 p2 p3 => frameImage 0x01#8 [p0, p1, p2, p3]
  | .frameMem _ p0 p1 p2 p3 => frameImage 0x02#8 [p0, p1, p2, p3]
  | .frameReserved _ t p => frameImage t p
  | .lenZero => [0x00#8]
  | .lenValid b => [b]
  | .linkNotReady v d => [d, if v then 0x01#8 else 0x00#8]
  | .linkReadyEmpty d => [d, 0x02#8]
  | .linkReadyByte b => [b, 0x03#8]
  | .decAlIdle y => idleImage 0x00#8 y
  | .decAlZero => byteImage 0x10#8 0x00#8
  | .decAlLatch b => byteImage 0x10#8 b
  | .decAbStore b => byteImage 0x30#8 b
  | .decAbStoreLast b => byteImage 0x34#8 b
  | .decAbWait y => idleImage 0x20#8 y
  | .decAbTimeout y => idleImage 0x22#8 y
  | .decAcDeliver c => byteImage 0x51#8 c
  | .decAcMissing y => idleImage 0x40#8 y
  | .decAcMismatch c => byteImage 0x50#8 c
  | .encIdleNop => [0x00#8]
  | .encIdleAccept t p => 0x10#8 :: t :: p
  | .encIdleReject t p => 0x18#8 :: t :: p
  | .encLenStall => [0x20#8]
  | .encTypeStall => [0x40#8]
  | .encPayloadStall => [0x60#8]
  | .encChkStall => [0x80#8]
  | .encLenEmit => [0x24#8]
  | .encTypeEmit => [0x44#8]
  | .encTypeEmitEmpty => [0x46#8]
  | .encPayloadEmit => [0x64#8]
  | .encPayloadEmitLast => [0x65#8]
  | .encChkEmit => [0x84#8]
  | .reset .both => [0x01#8, 0x00#8]
  | .reset .dec => [0x01#8, 0x01#8]
  | .reset .enc => [0x01#8, 0x02#8]
  | .chkFold bs => bs
  | .chkClear r => [accRegImage r]
  | .chkAbsorb r b => [b, accRegImage r]
  | .encode t p => t :: p
  | .dispatchClass t n => [t, BitVec.ofNat 8 n]

/-! ### Words of opcode_table.json without their format -/

/-- Whether an 8-bit word can be a `Q` that DEC forms: bit 7 is 0, `st` is not 3; an idle step has `z`, `last` and
`match` 0, a busy one `expire` 0 (30_encoding R70); `last` is 0 outside AWAIT_BODY (10_state R18). -/
def formableQ (w : BitVec 8) : Bool :=
  !w.getLsbD 7 && !(w.getLsbD 6 && w.getLsbD 5)
    && (w.getLsbD 4 || (!w.getLsbD 3 && !w.getLsbD 2 && !w.getLsbD 0))
    && (!w.getLsbD 4 || !w.getLsbD 1)
    && (w.getLsbD 5 || !w.getLsbD 2)

/-- The image of a DECSEL word with a symbol that agrees with it: `NotReady` if idle, else the byte 0 or 1 that bit `z`
asks for. -/
def decTableImage (w : Byte) : List Byte :=
  if w.getLsbD 4 then [w, if w.getLsbD 3 then 0x00#8 else 0x01#8, 0x03#8] else [w, 0x00#8, 0x00#8]

/-- The payload of zeros that agrees with bit `over` of a `W`. -/
def encTablePayload (w : Byte) : List Byte := if w.getLsbD 3 then List.replicate 255 0#8 else []

/-- The image of an ENCSEL word with a command that agrees with it. -/
def encTableImage (w : Byte) : List Byte := if w.getLsbD 4 then w :: 0#8 :: encTablePayload w else [w]

/-- The format of a word of opcode_table.json given without it. Words of different formats share bits, so this is a
choice (log entry 16). Sixteen bits: a registered header word first, then a link symbol word (10 bits), then any header
word. Eight bits: the reset word, a `Q` that DEC can form, a `W` with a row, a length byte. A width below a whole byte
names its format. -/
def tableFormat (nbits w : Nat) : Option Format :=
  if nbits = 16 then
    if w = 0x01FF ∨ w = 0x0501 ∨ w = 0x0502 then some (.wire .rx)
    else if w < 1024 then some .linksym
    else if w < 65536 then some (.wire .rx)
    else none
  else if nbits = 10 then if w < 1024 then some .linksym else none
  else if nbits = 8 then
    if 256 ≤ w then none
    else if w = 1 then some .rst
    else if formableQ (BitVec.ofNat 8 w) then some .decsel
    else if (selectEncRow (BitVec.ofNat 8 w)).isSome then some .encsel
    else some .len
  else if nbits = 7 then if w < 128 then some .decsel else none
  else if nbits = 1 then if w < 2 then some .rst else none
  else none

/-- The image of a word of opcode_table.json, with operands that agree with it (log entry 16): a frame's payload of
zeros and its own checksum, a symbol or a command that agrees with the selection word, a reset of both units. -/
def tableImage (nbits w : Nat) : Option (Format × List Byte) :=
  match tableFormat nbits w with
  | some (.wire side) => some (.wire side, frameImage (BitVec.ofNat 8 w) (List.replicate (w / 256 - 1) 0#8))
  | some .linksym => some (.linksym, [BitVec.ofNat 8 w, BitVec.ofNat 8 (w / 256)])
  | some .decsel => some (.decsel, decTableImage (BitVec.ofNat 8 w))
  | some .encsel => some (.encsel, encTableImage (BitVec.ofNat 8 w))
  | some .rst => some (.rst, [BitVec.ofNat 8 w, 0#8])
  | some .len => some (.len, [BitVec.ofNat 8 w])
  | some (.func _) => none
  | none => none

/-- The instruction the decoder reads from a word of opcode_table.json, numbered as the table numbers it. -/
def decodeTableWord (nbits w : Nat) : Option Instr :=
  match tableImage nbits w with
  | some (f, bytes) =>
    match decode f bytes with
    | .ok i => some i
    | .error _ => none
  | none => none

end Sys2Proof
end

