-- ==== Sys2Proof/Machine/State.lean ====
section
/-! DEFINITION. The state of the frame codec block as plain data: the registers and buffers of DEC and ENC (10_state),
the outputs of each unit's latest step, the streams and histories the spec speaks of, and the configuration.
Reset values: 10_state R35. -/

namespace Sys2Proof.Machine

/-- `dec_state`: which byte DEC waits for (10_state R11). The value 3 does not exist (93 V4, log entry 25). -/
inductive DecState
  | awaitLength
  | awaitBody
  | awaitChecksum
deriving DecidableEq, Repr

/-- `enc_state`: which byte ENC will offer next (10_state R20). The values 5 to 7 do not exist (93 V4, log entry 25). -/
inductive EncState
  | idle
  | len
  | type
  | payload
  | chk
deriving DecidableEq, Repr

/-- A buffer: its cells that hold a value, as (index, byte) pairs, indices strictly rising. A cell that is not listed
holds no value (10_state R17, R26; 93 V3; log entry 1). -/
abbrev Memory := List Host.Cell

/-- The two buffers of the block (20_memory R40). -/
inductive BufferId
  | decBuf
  | encPay
deriving DecidableEq, Repr

/-- The DEC state (10_state R11 to R17). -/
structure DecRegs where
  /-- `dec_state` -/
  state : DecState
  /-- `dec_len`, the length byte of the frame in progress (R12) -/
  len : Byte
  /-- `dec_cnt`, the body bytes stored so far and the write index (R13) -/
  cnt : Byte
  /-- `dec_acc`, the running XOR (R15) -/
  acc : Byte
  /-- `dec_idle`, the idle steps in AWAIT_BODY since the length byte (R16) -/
  idle : Nat
  /-- `dec_buf`, the body buffer (R17) -/
  buf : Memory
deriving DecidableEq, Repr

/-- The ENC state (10_state R20 to R26). -/
structure EncRegs where
  /-- `enc_state` -/
  state : EncState
  /-- `enc_type`, the type code of the frame being emitted (R21) -/
  type : Byte
  /-- `enc_len`, its length byte (R22) -/
  len : Byte
  /-- `enc_idx`, the index of the next payload byte (R23) -/
  idx : Byte
  /-- `enc_acc`, the running XOR (R25) -/
  acc : Byte
  /-- `enc_pay`, the payload latch (R26) -/
  pay : Memory
deriving DecidableEq, Repr

/-- The canonical idle state of DEC (10_state R19), its reset state (R35). -/
def DecRegs.canonicalIdle : DecRegs :=
  { state := .awaitLength, len := 0#8, cnt := 0#8, acc := 0#8, idle := 0, buf := [] }

/-- The canonical idle state of ENC (10_state R27), its reset state (R35). -/
def EncRegs.canonicalIdle : EncRegs :=
  { state := .idle, type := 0#8, len := 0#8, idx := 0#8, acc := 0#8, pay := [] }

/-- The reasons of a DEC discard (60_exceptions R152). -/
inductive DiscardReason
  | lenZero
  | bodyTimeout
  | chkMissing
  | chkMismatch
deriving DecidableEq, Repr

/-- The causes of an ENC rejection (60_exceptions R151). -/
inductive RejectCause
  | oversize
deriving DecidableEq, Repr

/-- The event of a DEC step that has one: `Deliver(type, payload)` or `Discard(reason)`, "never two" (10_state R31). -/
inductive DecEvent
  | deliver (t : Byte) (p : List Byte)
  | discard (r : DiscardReason)
deriving DecidableEq, Repr

/-- The outputs of a DEC step (10_state R31). -/
structure DecOut where
  /-- `rx_rd_en` -/
  rdEn : Bool
  /-- the event, `none` for `None` -/
  event : Option DecEvent
deriving DecidableEq, Repr

/-- The outputs of an ENC step (10_state R33). -/
structure EncOut where
  /-- `enc_ready` -/
  ready : Bool
  /-- `enc_reject` with `enc_cause`: the cause, `none` when `enc_reject = 0` -/
  reject : Option RejectCause
  /-- `tx_valid` -/
  txValid : Bool
  /-- `tx_data`, no value when `tx_valid = 0` (93 V1) -/
  txData : Option Byte
  /-- `enc_done` -/
  done : Bool
deriving DecidableEq, Repr

/-- The outputs of a unit in a reset step: all 0 (10_state R34, 70_reset_and_hazards R176). -/
def DecOut.quiet : DecOut := { rdEn := false, event := none }

/-- The outputs of ENC in a reset step. -/
def EncOut.quiet : EncOut := { ready := false, reject := none, txValid := false, txData := none, done := false }

/-- The inputs of a DEC step (10_state R30, R34). -/
structure DecIn where
  rst : Bool
  /-- `rx_poll` -/
  poll : Bool
  /-- `rx_rd_valid` -/
  rdValid : Bool
  /-- `rx_data` -/
  data : Byte
deriving DecidableEq, Repr

/-- The inputs of an ENC step (10_state R32, R34). `enc_plen_in` is the length of the payload (R32: "`Start(t, p)` with
... `p` a byte sequence of any length `n`"; log entry 5). -/
structure EncIn where
  rst : Bool
  /-- `enc_start` -/
  start : Bool
  /-- `enc_type_in` -/
  typeIn : Byte
  /-- `enc_pay_in` -/
  payIn : List Byte
  /-- `tx_ready` -/
  txReady : Bool
deriving DecidableEq, Repr

/-- The pure functions someone at the boundary may have evaluated (format FUNC; log entry 15). -/
inductive FuncCall
  | chkFold (bs : List Byte)
  | encode (t : Byte) (p : List Byte)
  | dispatchClass (t : Byte) (n : Nat)
deriving DecidableEq, Repr

/-- The value of a pure function. -/
inductive FuncResult
  | chk (b : Byte)
  | encode (r : EncodeResult)
  | dispatchClass (c : DispatchClass)
deriving DecidableEq, Repr

/-- One input of the environment, and with it whose step is next (log entry 3). -/
inductive Stim
  /-- one DEC step with these ports -/
  | dec (p : DecIn)
  /-- one ENC step with these ports -/
  | enc (p : EncIn)
  /-- the statement `RESET`: one step of both units with `rst = 1` (30_encoding R73) -/
  | reset
  /-- a whole frame, sent by ENC or received by DEC (log entry 10) -/
  | frame (side : Side) (t : Byte) (p : List Byte)
  /-- one pure function evaluated -/
  | func (f : FuncCall)
deriving DecidableEq, Repr

/-- The state. -/
structure State where
  /-- the DEC state -/
  dec : DecRegs
  /-- the ENC state -/
  enc : EncRegs
  /-- the outputs of DEC's latest step (log entry 6) -/
  decOut : DecOut
  /-- the outputs of ENC's latest step (log entry 6) -/
  encOut : EncOut
  /-- the environment's inputs, the next one first (log entry 3) -/
  pending : List Stim
  /-- the stream position of DEC: the bytes consumed so far (20_memory R42; log entry 7) -/
  rxPos : Nat
  /-- the tx stream: the bytes transferred so far (20_memory R40, R41; log entry 7) -/
  txLog : List Byte
  /-- DEC's events so far, in step order (70_reset_and_hazards R189; log entry 7) -/
  events : List DecEvent
  /-- the value of the last pure function evaluated (log entry 15) -/
  funcOut : Option FuncResult
  /-- the parameters; no step writes them (10_state R29; log entry 4) -/
  cfg : Config
deriving DecidableEq, Repr

/-- The ways the machine stops with a fault. Neither occurs in a state that meets the invariants of 10_state R18 and R27
(20_memory R49, 42_decoder R123). -/
inductive Fault
  /-- A rule reads a buffer cell that holds no value: raised by DEC.AC.DELIVER, by the ENC rows that offer a payload byte,
  and by the rows that run those. Safe: the machine stops where the hardware would go on with some value (log entry 1). -/
  | noValue (buffer : BufferId) (index : Nat)
  /-- A rule writes a cell the buffer does not have: raised by DEC.AB.STORE and DEC.AB.STORE.LAST, and by the rows that
  run those. Safe (log entry 2). -/
  | outOfRange (buffer : BufferId) (index : Nat)
deriving DecidableEq, Repr

/-- The ways an instruction is refused. -/
inductive Refusal
  /-- The instruction has no meaning yet: raised by an arm of exec. Safe. -/
  | notModelled (mnemonic : String)
  /-- The row does not apply: the state and the operands do not meet the condition of its rule ("A row applies when
  (word AND mask) = match", 30_encoding R72). Raised by a LEN, DECSEL or ENCSEL instruction run by name in such a state,
  never by step (log entry 9). Safe: the hardware does not perform the row there at all. -/
  | rowNotSelected
  /-- No row is selected: raised by step if a selection word had no row, which does not happen (30_encoding R70, R71: "the
  rows are disjoint and cover"). Safe. -/
  | noRow
deriving DecidableEq, Repr

/-- The machine right after reset (10_state R35): both units in their canonical idle states, the outputs those of a
reset step (log entry 8), the parameter at its default (00_scope R5), and the model's own histories empty (log entries
3, 7, 15). -/
def State.reset : State :=
  { dec := DecRegs.canonicalIdle, enc := EncRegs.canonicalIdle, decOut := DecOut.quiet, encOut := EncOut.quiet,
    pending := [], rxPos := 0, txLog := [], events := [], funcOut := none, cfg := Config.standard }

end Sys2Proof.Machine
end

