-- ==== Sys2Proof/Machine/Operands.lean ====
section
/-! DEFINITION. The operand forms: the input ports as link symbols and commands, the output ports as functions of the
outputs a step leaves, and the codes of 60_exceptions. -/

namespace Sys2Proof.Machine

/-- The 10-bit word `S = rx_poll ‖ rx_rd_valid ‖ rx_data` (10_state R30). -/
def DecIn.word (p : DecIn) : BitVec 10 := BitVec.ofBool p.poll ++ BitVec.ofBool p.rdValid ++ p.data

/-- The link symbol on DEC's ports (10_state R30). -/
def DecIn.sym (p : DecIn) : LinkSym := linkSymOf p.word

/-- DEC's ports presenting a word `S`, with `rst = 0`. -/
def DecIn.ofWord (w : BitVec 10) : DecIn :=
  { rst := false, poll := w.getLsbD 9, rdValid := w.getLsbD 8, data := w.extractLsb' 0 8 }

/-- DEC's ports presenting a link symbol, with `rst = 0`. -/
def DecIn.ofSym (y : LinkSym) : DecIn :=
  match y with
  | .notReady => { rst := false, poll := false, rdValid := false, data := 0#8 }
  | .readyEmpty => { rst := false, poll := true, rdValid := false, data := 0#8 }
  | .readyByte b => { rst := false, poll := true, rdValid := true, data := b }

/-- ENC's ports presenting the command `Start(t, p)`, with `rst = 0` (10_state R32). -/
def EncIn.command (t : Byte) (p : List Byte) (ready : Bool) : EncIn :=
  { rst := false, start := true, typeIn := t, payIn := p, txReady := ready }

/-- ENC's ports presenting no command, with `rst = 0`. -/
def EncIn.noCommand (ready : Bool) : EncIn :=
  { rst := false, start := false, typeIn := 0#8, payIn := [], txReady := ready }

/-- `rx_poll` of a link symbol. -/
def symPoll : LinkSym → Bool
  | .notReady => false
  | .readyEmpty => true
  | .readyByte _ => true

/-- The bytes a step with this symbol consumes: a busy step exactly one, an idle step none (20_memory R42). -/
def symBytes : LinkSym → List Byte
  | .readyByte b => [b]
  | _ => []

/-- Whether the step is idle (00_scope R9). -/
def symIdle : LinkSym → Bool
  | .readyByte _ => false
  | _ => true

/-- The number of cells of a buffer (00_scope R5). -/
def BufferId.depth : BufferId → Nat
  | .decBuf => decBufDepth
  | .encPay => encPayDepth

/-- `diag_reason`'s codes (60_exceptions R152). -/
def DiscardReason.code : DiscardReason → BitVec 3
  | .lenZero => 1#3
  | .bodyTimeout => 2#3
  | .chkMissing => 3#3
  | .chkMismatch => 4#3

/-- `enc_cause`'s codes (60_exceptions R151). -/
def RejectCause.code : RejectCause → BitVec 2
  | .oversize => 1#2

/-- `deliver_valid` (10_state R31). -/
def DecOut.deliverValid (o : DecOut) : Bool :=
  match o.event with
  | some (.deliver _ _) => true
  | _ => false

/-- `deliver_type`, no value when `deliver_valid = 0` (93 V2). -/
def DecOut.deliverType (o : DecOut) : Option Byte :=
  match o.event with
  | some (.deliver t _) => some t
  | _ => none

/-- `deliver_plen`, no value when `deliver_valid = 0` (93 V2). -/
def DecOut.deliverPlen (o : DecOut) : Option Byte :=
  match o.event with
  | some (.deliver _ p) => some (BitVec.ofNat 8 p.length)
  | _ => none

/-- `deliver_payload`, no value when `deliver_valid = 0` (93 V2). -/
def DecOut.deliverPayload (o : DecOut) : Option (List Byte) :=
  match o.event with
  | some (.deliver _ p) => some p
  | _ => none

/-- `diag_discard` (10_state R31). -/
def DecOut.diagDiscard (o : DecOut) : Bool :=
  match o.event with
  | some (.discard _) => true
  | _ => false

/-- `diag_reason`, 0 when `diag_discard = 0` (10_state R31). -/
def DecOut.diagReason (o : DecOut) : BitVec 3 :=
  match o.event with
  | some (.discard r) => r.code
  | _ => 0#3

/-- `enc_reject` (10_state R33). -/
def EncOut.encReject (o : EncOut) : Bool := o.reject.isSome

/-- `enc_cause`, 0 when `enc_reject = 0` (10_state R33). -/
def EncOut.encCause (o : EncOut) : BitVec 2 :=
  match o.reject with
  | some c => c.code
  | none => 0#2

/-- The consumer's class of an event (43_frame_types R145: "a model may attach it to `Deliver` events"); a discard has
none, the consumer is told nothing of it (60_exceptions R157). -/
def DecEvent.consumerClass : DecEvent → Option DispatchClass
  | .deliver t p => some (classify t p.length)
  | .discard _ => none

/-- Whether an event is a delivery. -/
def DecEvent.isDeliver : DecEvent → Bool
  | .deliver _ _ => true
  | .discard _ => false

end Sys2Proof.Machine
end

