-- ==== Sys2Proof/Machine/Flags.lean ====
section
/-! DEFINITION. The block keeps no flag (10_state R28). What plays their part are the conditions a step forms from the
registers and the ports it starts with, packed in the selection words `Q` and `W` (30_encoding R70, R71). Sums on
counters are natural-number sums (00_scope R6). -/

namespace Sys2Proof.Machine

/-- The encoding of `dec_state` (10_state R11). -/
def DecState.code : DecState → BitVec 2
  | .awaitLength => 0#2
  | .awaitBody => 1#2
  | .awaitChecksum => 2#2

/-- The encoding of `enc_state` (10_state R20). -/
def EncState.code : EncState → BitVec 3
  | .idle => 0#3
  | .len => 1#3
  | .type => 2#3
  | .payload => 3#3
  | .chk => 4#3

/-- The condition of bit `last` less `busy`: `dec_cnt + 1 = dec_len`. -/
def lastBody (d : DecRegs) : Bool := d.cnt.toNat + 1 == d.len.toNat

/-- The condition of bit `expire` less `NOT busy`: `dec_idle + 1 >= T`. -/
def expires (c : Config) (d : DecRegs) : Bool := decide (c.frameTimeoutTicks ≤ d.idle + 1)

/-- The bits `busy`, `z`, `last`, `expire`, `match` of `Q` (30_encoding R70). -/
def decSelConds (c : Config) (d : DecRegs) (sym : LinkSym) : BitVec 5 :=
  match sym with
  | .readyByte b =>
    BitVec.ofBool true ++ BitVec.ofBool (b == 0#8) ++ BitVec.ofBool (lastBody d) ++ BitVec.ofBool false
      ++ BitVec.ofBool (b == d.acc)
  | _ =>
    BitVec.ofBool false ++ BitVec.ofBool false ++ BitVec.ofBool false ++ BitVec.ofBool (expires c d)
      ++ BitVec.ofBool false

/-- The DEC selection word `Q` (30_encoding R70). -/
def decSelWord (c : Config) (d : DecRegs) (sym : LinkSym) : BitVec 7 := d.state.code ++ decSelConds c d sym

/-- Bit `over`: `enc_start AND (n > 254)`, on the whole length (41_encoder R103). -/
def oversized (p : EncIn) : Bool := p.start && decide (payloadMax < p.payIn.length)

/-- Bit `one`: `enc_len = 1`. -/
def noPayload (e : EncRegs) : Bool := e.len == 1#8

/-- Bit `lastp`: `enc_idx + 1 = enc_len - 1`. -/
def lastPayload (e : EncRegs) : Bool := e.idx.toNat + 1 == e.len.toNat - 1

/-- The ENC selection word `W` (30_encoding R71). -/
def encSelWord (e : EncRegs) (p : EncIn) : BitVec 8 :=
  e.state.code ++ BitVec.ofBool p.start ++ BitVec.ofBool (oversized p) ++ BitVec.ofBool p.txReady
    ++ BitVec.ofBool (noPayload e) ++ BitVec.ofBool (lastPayload e)

end Sys2Proof.Machine
end

