-- ==== Sys2Proof/Machine/Ops.lean ====
section
/-! DEFINITION. The named operations over buffers, registers, outputs and streams that the meanings are made of; what a
fault of the spec changes (60_exceptions R157, R158), said once each; and the step of each unit as its state machine
(42_decoder R122, 41_encoder R91 to R100). -/

namespace Sys2Proof.Machine

/-- The outcomes of one step of this machine. -/
abbrev Result := Host.Outcome State Fault Refusal

/-- Whether an outcome is a next state. -/
abbrev Completes (o : Result) : Prop := ∃ t, o = .next t

/-- One step after another, stopping at the first that stops. -/
def andThen (o : Result) (f : State → Result) : Result :=
  match o with
  | .next s => f s
  | .fault r => .fault r
  | .refused r => .refused r

/-- The meaning of a row where its condition holds (30_encoding R72; log entry 9). -/
def whenSelected (c : Bool) (o : Result) : Result := if c then o else .refused .rowNotSelected

/-! ### Buffers -/

/-- The byte in a cell, if the cell holds a value. -/
def Memory.read (m : Memory) (i : Nat) : Option Byte :=
  match m with
  | [] => none
  | (k, v) :: rest => if k = i then some v else Memory.read rest i

/-- The buffer with one cell written. -/
def Memory.write (m : Memory) (i : Nat) (v : Byte) : Memory :=
  match m with
  | [] => [(i, v)]
  | (k, w) :: rest =>
    if i < k then (i, v) :: (k, w) :: rest
    else if i = k then (i, v) :: rest
    else (k, w) :: Memory.write rest i v

/-- Whether every listed index is at least `k` and they rise strictly. -/
def Memory.risingFrom (k : Nat) (m : Memory) : Bool :=
  match m with
  | [] => true
  | (i, _) :: rest => decide (k ≤ i) && Memory.risingFrom (i + 1) rest

/-- The canonical form: indices strictly rising (log entry 1). -/
def Memory.wf (m : Memory) : Bool := Memory.risingFrom 0 m

/-- The cells `k`, `k + 1`, .. holding a byte sequence. -/
def Memory.ofBytesFrom (k : Nat) (bs : List Byte) : Memory :=
  match bs with
  | [] => []
  | b :: rest => (k, b) :: Memory.ofBytesFrom (k + 1) rest

/-- The buffer whose cells `0 .. len(bs) - 1` hold `bs` (10_state R17, R26: "a model represents the buffer as a byte
sequence"). -/
def Memory.ofBytes (bs : List Byte) : Memory := Memory.ofBytesFrom 0 bs

/-- The bytes a buffer holds, in index order. -/
def Memory.bytes (m : Memory) : List Byte := m.map Prod.snd

/-- `MemRead(buf, i, 1)` (00_scope R7). -/
def memRead (id : BufferId) (m : Memory) (i : Nat) : Except Fault Byte :=
  match m.read i with
  | some v => .ok v
  | none => .error (.noValue id i)

/-- `MemWrite(buf, i, 1, v)` (00_scope R7). -/
def memWrite (id : BufferId) (m : Memory) (i : Nat) (v : Byte) : Except Fault Memory :=
  if i < id.depth then .ok (m.write i v) else .error (.outOfRange id i)

/-- `[MemRead(buf, k, 1) for k in i .. i + n - 1]` (42_decoder R119). -/
def memReadSpan (id : BufferId) (m : Memory) (i n : Nat) : Except Fault (List Byte) :=
  match n with
  | 0 => .ok []
  | n + 1 =>
    match memRead id m i with
    | .error f => .error f
    | .ok v =>
      match memReadSpan id m (i + 1) n with
      | .error f => .error f
      | .ok vs => .ok (v :: vs)

/-! ### DEC -/

/-- What every DEC step with `rst = 0` leaves: the registers, the outputs (`rx_rd_en = rx_poll AND NOT rst`, 10_state R31),
the stream position (20_memory R42) and the event history. -/
def decCommit (sym : LinkSym) (ev : Option DecEvent) (d : DecRegs) (s : State) : State :=
  { s with
    dec := d
    decOut := { rdEn := symPoll sym, event := ev }
    rxPos := s.rxPos + (symBytes sym).length
    events := s.events ++ ev.toList }

/-- What a DEC fault changes (60_exceptions R157): nothing is saved; all registers go to the canonical idle state; the
diagnostic pair is put out for the step. There is nothing to return from (R159). -/
def takeDiscard (r : DiscardReason) (sym : LinkSym) (s : State) : State :=
  decCommit sym (some (.discard r)) DecRegs.canonicalIdle s

/-- An idle step that changes no register (42_decoder R111). -/
def decNothing (sym : LinkSym) (s : State) : State := decCommit sym none s.dec s

/-- A length byte latched (42_decoder R113): CHK.CLEAR, then CHK.ABSORB. -/
def decLatch (b : Byte) (s : State) : State :=
  decCommit (.readyByte b) none
    { state := .awaitBody, len := b, cnt := 0#8, acc := absorb 0#8 b, idle := 0, buf := [] } s

/-- A body byte stored, and the state after it (42_decoder R115). -/
def decStore (b : Byte) (after : DecState) (s : State) : Result :=
  match memWrite .decBuf s.dec.buf s.dec.cnt.toNat b with
  | .error f => .fault f
  | .ok m =>
    .next (decCommit (.readyByte b) none
      { s.dec with state := after, cnt := s.dec.cnt + 1#8, acc := absorb s.dec.acc b, buf := m } s)

/-- An idle step counted (42_decoder R116). -/
def decCountIdle (sym : LinkSym) (s : State) : State :=
  decCommit sym none { s.dec with idle := s.dec.idle + 1 } s

/-- The frame delivered (42_decoder R119): `type` and `payload` read from the buffer, then return to idle. -/
def decDeliver (c : Byte) (s : State) : Result :=
  match memRead .decBuf s.dec.buf 0 with
  | .error f => .fault f
  | .ok t =>
    match memReadSpan .decBuf s.dec.buf 1 (s.dec.len.toNat - 1) with
    | .error f => .fault f
    | .ok p => .next (decCommit (.readyByte c) (some (.deliver t p)) DecRegs.canonicalIdle s)

/-- DEC's step in AWAIT_LENGTH (42_decoder R122, first three lines). -/
def decStepLength (sym : LinkSym) (s : State) : Result :=
  match sym with
  | .readyByte b => if b = 0#8 then .next (takeDiscard .lenZero sym s) else .next (decLatch b s)
  | _ => .next (decNothing sym s)

/-- DEC's step in AWAIT_BODY (42_decoder R122, the next four lines). -/
def decStepBody (sym : LinkSym) (s : State) : Result :=
  match sym with
  | .readyByte b => if lastBody s.dec then decStore b .awaitChecksum s else decStore b .awaitBody s
  | _ => if expires s.cfg s.dec then .next (takeDiscard .bodyTimeout sym s) else .next (decCountIdle sym s)

/-- DEC's step in AWAIT_CHECKSUM (42_decoder R122, the last three lines; Validate is R118). -/
def decStepChecksum (sym : LinkSym) (s : State) : Result :=
  match sym with
  | .readyByte c => if c = s.dec.acc then decDeliver c s else .next (takeDiscard .chkMismatch sym s)
  | _ => .next (takeDiscard .chkMissing sym s)

/-- One DEC step with `rst = 0` on a link symbol (42_decoder R110, R122). -/
def decStep (sym : LinkSym) (s : State) : Result :=
  match s.dec.state with
  | .awaitLength => decStepLength sym s
  | .awaitBody => decStepBody sym s
  | .awaitChecksum => decStepChecksum sym s

/-- One DEC step for each symbol, in order. -/
def decSteps (syms : List LinkSym) (s : State) : Result :=
  match syms with
  | [] => .next s
  | y :: rest => andThen (decStep y s) (decSteps rest)

/-- `RXS`: one busy step for each byte (30_encoding R74). -/
def receiveBytes (bs : List Byte) (s : State) : Result := decSteps (bs.map LinkSym.readyByte) s

/-! ### ENC -/

/-- What every ENC step with `rst = 0` leaves: the registers, the outputs and the bytes transferred. -/
def encCommit (o : EncOut) (sent : List Byte) (e : EncRegs) (s : State) : State :=
  { s with enc := e, encOut := o, txLog := s.txLog ++ sent }

/-- The outputs of a step in ENC_IDLE (10_state R33, 41_encoder R91): `enc_ready = 1`, `tx_valid = 0`. -/
def idleOut (reject : Option RejectCause) : EncOut :=
  { ready := true, reject := reject, txValid := false, txData := none, done := false }

/-- The outputs of a step outside ENC_IDLE (10_state R33, 41_encoder R95): `enc_ready = 0`, `tx_valid = 1`. -/
def offerOut (b : Byte) (done : Bool) : EncOut :=
  { ready := false, reject := none, txValid := true, txData := some b, done := done }

/-- What an ENC fault changes (60_exceptions R158): nothing is saved, no register changes; `enc_reject` and `enc_cause` are
put out for the step. -/
def takeReject (c : RejectCause) (s : State) : State := encCommit (idleOut (some c)) [] s.enc s

/-- A step in ENC_IDLE with no command (41_encoder R91). -/
def encNothing (s : State) : State := encCommit (idleOut none) [] s.enc s

/-- A command accepted (41_encoder R92). -/
def encAccept (t : Byte) (p : List Byte) (s : State) : State :=
  encCommit (idleOut none) []
    { state := .len, type := t, len := BitVec.ofNat 8 (1 + p.length), idx := 0#8, acc := 0#8, pay := Memory.ofBytes p } s

/-- A byte offered and not taken (41_encoder R95). -/
def encHold (b : Byte) (s : State) : State := encCommit (offerOut b false) [] s.enc s

/-- A byte transferred, and the registers after it (10_state R33). -/
def encSend (b : Byte) (e : EncRegs) (s : State) : State := encCommit (offerOut b false) [b] e s

/-- The checksum byte transferred: `enc_done`, and the canonical idle state (41_encoder R100). -/
def encFinish (s : State) : State :=
  encCommit (offerOut s.enc.acc true) [s.enc.acc] EncRegs.canonicalIdle s

/-- The length byte transferred (41_encoder R97). -/
def encSendLen (s : State) : State :=
  encSend s.enc.len { s.enc with acc := absorb s.enc.acc s.enc.len, state := .type } s

/-- The type byte transferred, and the state after it (41_encoder R98). -/
def encSendType (after : EncState) (s : State) : State :=
  encSend s.enc.type { s.enc with acc := absorb s.enc.acc s.enc.type, state := after } s

/-- What a step does with the payload byte on offer, `enc_pay[enc_idx]` (41_encoder R96). -/
def withPayloadByte (s : State) (f : Byte → State) : Result :=
  match memRead .encPay s.enc.pay s.enc.idx.toNat with
  | .error e => .fault e
  | .ok b => .next (f b)

/-- The last payload byte transferred (41_encoder R99, `lastp = 1`). -/
def encSendPayloadLast (b : Byte) (s : State) : State :=
  encSend b { s.enc with acc := absorb s.enc.acc b, state := .chk, idx := 0#8 } s

/-- A payload byte transferred that is not the last (41_encoder R99, `lastp = 0`). -/
def encSendPayload (b : Byte) (s : State) : State :=
  encSend b { s.enc with acc := absorb s.enc.acc b, idx := s.enc.idx + 1#8 } s

/-- ENC's step in ENC_IDLE (41_encoder R91 to R93). -/
def encStepIdle (p : EncIn) (s : State) : Result :=
  if p.start then
    if oversized p then .next (takeReject .oversize s) else .next (encAccept p.typeIn p.payIn s)
  else .next (encNothing s)

/-- ENC's step in ENC_PAYLOAD (41_encoder R95, R99). -/
def encStepPayload (ready : Bool) (s : State) : Result :=
  if ready then
    if lastPayload s.enc then withPayloadByte s (fun b => encSendPayloadLast b s)
    else withPayloadByte s (fun b => encSendPayload b s)
  else withPayloadByte s (fun b => encHold b s)

/-- One ENC step with `rst = 0` (41_encoder R91 to R100). Outside ENC_IDLE a command has no effect (R94). -/
def encStep (p : EncIn) (s : State) : Result :=
  match s.enc.state with
  | .idle => encStepIdle p s
  | .len => if p.txReady then .next (encSendLen s) else .next (encHold s.enc.len s)
  | .type =>
    if p.txReady then .next (encSendType (if noPayload s.enc then .chk else .payload) s)
    else .next (encHold s.enc.type s)
  | .payload => encStepPayload p.txReady s
  | .chk => if p.txReady then .next (encFinish s) else .next (encHold s.enc.acc s)

/-- ENC steps with `tx_ready = 1` and no command until `enc_done`, at most `n` of them. -/
def encDrain (n : Nat) (s : State) : Result :=
  match n with
  | 0 => .next s
  | n + 1 => andThen (encStep (EncIn.noCommand true) s) (fun t => if t.encOut.done then .next t else encDrain n t)

/-! ### Both units, and the statements of 30_encoding R73 -/

/-- A DEC step with `rst = 1` (10_state R34): the reset values, `rx_rd_en = 0`, no event. The stream position and the
history stay (log entry 7). -/
def resetDec (s : State) : State := { s with dec := DecRegs.canonicalIdle, decOut := DecOut.quiet }

/-- An ENC step with `rst = 1` (10_state R34): the reset values, all outputs 0. The bytes already transferred stay
transferred (70_reset_and_hazards R177). -/
def resetEnc (s : State) : State := { s with enc := EncRegs.canonicalIdle, encOut := EncOut.quiet }

/-- The value of a pure function put out (log entry 15). -/
def putFunc (r : FuncResult) (s : State) : State := { s with funcOut := some r }

/-- The accumulator register written (40_checksum R81). -/
def putAcc (r : AccReg) (v : Byte) (s : State) : State :=
  match r with
  | .dec => { s with dec := { s.dec with acc := v } }
  | .enc => { s with enc := { s.enc with acc := v } }

/-- The accumulator register read. -/
def getAcc (r : AccReg) (s : State) : Byte :=
  match r with
  | .dec => s.dec.acc
  | .enc => s.enc.acc

/-- The statement `ENC t, [p]` (30_encoding R73): one step presenting `Start(t, p)`, then steps with `tx_ready = 1` and no
command until `enc_done`; if the command is rejected, "just the one step". A frame has at most 257 bytes (00_scope R5),
so 257 steps reach `enc_done` (41_encoder R101). Log entries 10 and 11. -/
def sendFrame (t : Byte) (p : List Byte) (s : State) : Result :=
  andThen (encStep (EncIn.command t p true) s) (fun u => if u.enc.state = .idle then .next u else encDrain 257 u)

/-- The statement `RXF t, [p]` (30_encoding R74): `RX` of each byte of `Encode(t, p)` in wire order. There are no such
bytes where `Encode` rejects. -/
def receiveFrame (t : Byte) (p : List Byte) (s : State) : Result :=
  match encodeFrame t p with
  | .frame f => receiveBytes f s
  | .rejectOversize => .next s

/-- A frame on one of the two streams (43_frame_types R140). -/
def runFrame (side : Side) (t : Byte) (p : List Byte) (s : State) : Result :=
  match side with
  | .tx => sendFrame t p s
  | .rx => receiveFrame t p s

end Sys2Proof.Machine
end

