-- ==== Sys2Proof/Machine/Decoder.lean ====
section
/-! DEFINITION. The meanings of the DECSEL rows: the rules of DEC (42_decoder R111 to R121), each with its condition. -/

namespace Sys2Proof.Machine

/-- DEC.AL.IDLE (R111): no register changes. -/
def execDecAlIdle (y : IdleSym) (s : State) : Result :=
  whenSelected (s.dec.state == .awaitLength) (.next (decNothing y.link s))

/-- DEC.AL.ZERO (R112): the byte `0x00` is consumed and dropped, `Discard(LEN_ZERO)`. -/
def execDecAlZero (s : State) : Result :=
  whenSelected (s.dec.state == .awaitLength) (.next (takeDiscard .lenZero (.readyByte 0#8) s))

/-- DEC.AL.LATCH (R113): the length byte is latched. -/
def execDecAlLatch (b : Byte) (s : State) : Result :=
  whenSelected (s.dec.state == .awaitLength && b != 0#8) (.next (decLatch b s))

/-- DEC.AB.STORE (R115, `last = 0`): a body byte that is not the last. -/
def execDecAbStore (b : Byte) (s : State) : Result :=
  whenSelected (s.dec.state == .awaitBody && !lastBody s.dec) (decStore b .awaitBody s)

/-- DEC.AB.STORE.LAST (R115, `last = 1`): the last body byte. -/
def execDecAbStoreLast (b : Byte) (s : State) : Result :=
  whenSelected (s.dec.state == .awaitBody && lastBody s.dec) (decStore b .awaitChecksum s)

/-- DEC.AB.WAIT (R116): an idle step inside the body, `dec_idle + 1 < T`. -/
def execDecAbWait (y : IdleSym) (s : State) : Result :=
  whenSelected (s.dec.state == .awaitBody && !expires s.cfg s.dec) (.next (decCountIdle y.link s))

/-- DEC.AB.TIMEOUT (R117): the `T`-th idle step inside the body, `Discard(BODY_TIMEOUT)`. -/
def execDecAbTimeout (y : IdleSym) (s : State) : Result :=
  whenSelected (s.dec.state == .awaitBody && expires s.cfg s.dec) (.next (takeDiscard .bodyTimeout y.link s))

/-- DEC.AC.DELIVER (R119): the received checksum byte equals `dec_acc`. -/
def execDecAcDeliver (c : Byte) (s : State) : Result :=
  whenSelected (s.dec.state == .awaitChecksum && c == s.dec.acc) (decDeliver c s)

/-- DEC.AC.MISSING (R120): an idle step when the checksum byte is due, `Discard(CHK_MISSING)`. -/
def execDecAcMissing (y : IdleSym) (s : State) : Result :=
  whenSelected (s.dec.state == .awaitChecksum) (.next (takeDiscard .chkMissing y.link s))

/-- DEC.AC.MISMATCH (R121): the received checksum byte differs from `dec_acc`, `Discard(CHK_MISMATCH)`. -/
def execDecAcMismatch (c : Byte) (s : State) : Result :=
  whenSelected (s.dec.state == .awaitChecksum && c != s.dec.acc) (.next (takeDiscard .chkMismatch (.readyByte c) s))

end Sys2Proof.Machine
end

