-- ==== Sys2Proof/Machine/Encoder.lean ====
section
/-! DEFINITION. The meanings of the ENCSEL rows: the rules of ENC (41_encoder R91 to R100), each with its condition. A
command presented outside ENC_IDLE has no effect (R94), so those rows take none. -/

namespace Sys2Proof.Machine

/-- ENC.IDLE.NOP (R91): no register changes. -/
def execEncIdleNop (s : State) : Result := whenSelected (s.enc.state == .idle) (.next (encNothing s))

/-- ENC.IDLE.ACCEPT (R92): the command is latched. -/
def execEncIdleAccept (t : Byte) (p : List Byte) (s : State) : Result :=
  whenSelected (s.enc.state == .idle && decide (p.length ≤ payloadMax)) (.next (encAccept t p s))

/-- ENC.IDLE.REJECT (R93): `raise Reject(OVERSIZE)`. The type byte and the payload's contents play no part. -/
def execEncIdleReject (_t : Byte) (p : List Byte) (s : State) : Result :=
  whenSelected (s.enc.state == .idle && decide (payloadMax < p.length)) (.next (takeReject .oversize s))

/-- ENC.LEN.STALL (R95). -/
def execEncLenStall (s : State) : Result := whenSelected (s.enc.state == .len) (.next (encHold s.enc.len s))

/-- ENC.TYPE.STALL (R95). -/
def execEncTypeStall (s : State) : Result := whenSelected (s.enc.state == .type) (.next (encHold s.enc.type s))

/-- ENC.PAYLOAD.STALL (R95). -/
def execEncPayloadStall (s : State) : Result :=
  whenSelected (s.enc.state == .payload) (withPayloadByte s (fun b => encHold b s))

/-- ENC.CHK.STALL (R95). -/
def execEncChkStall (s : State) : Result := whenSelected (s.enc.state == .chk) (.next (encHold s.enc.acc s))

/-- ENC.LEN.EMIT (R97). -/
def execEncLenEmit (s : State) : Result := whenSelected (s.enc.state == .len) (.next (encSendLen s))

/-- ENC.TYPE.EMIT (R98, `one = 0`). -/
def execEncTypeEmit (s : State) : Result :=
  whenSelected (s.enc.state == .type && !noPayload s.enc) (.next (encSendType .payload s))

/-- ENC.TYPE.EMIT.EMPTY (R98, `one = 1`): an empty payload skips ENC_PAYLOAD. -/
def execEncTypeEmitEmpty (s : State) : Result :=
  whenSelected (s.enc.state == .type && noPayload s.enc) (.next (encSendType .chk s))

/-- ENC.PAYLOAD.EMIT (R99, `lastp = 0`). -/
def execEncPayloadEmit (s : State) : Result :=
  whenSelected (s.enc.state == .payload && !lastPayload s.enc) (withPayloadByte s (fun b => encSendPayload b s))

/-- ENC.PAYLOAD.EMIT.LAST (R99, `lastp = 1`). -/
def execEncPayloadEmitLast (s : State) : Result :=
  whenSelected (s.enc.state == .payload && lastPayload s.enc) (withPayloadByte s (fun b => encSendPayloadLast b s))

/-- ENC.CHK.EMIT (R100). -/
def execEncChkEmit (s : State) : Result := whenSelected (s.enc.state == .chk) (.next (encFinish s))

end Sys2Proof.Machine
end

