-- ==== Sys2Proof/Machine/Frame.lean ====
section
/-! DEFINITION. The meanings of the WIRE rows: frames by type code (43_frame_types R140 to R144). "For every type code and
every payload ENC emits `Encode(t, p)` and DEC, on receiving those bytes aligned, emits `Deliver(t, p)`. Neither unit
inspects `t` or `p`." On the tx stream the frame is the statement `ENC t, [p]`, on the rx stream `RXF t, [p]` (30_encoding
R73, R74; log entry 10). -/

namespace Sys2Proof.Machine

/-- FRAME.DISCOVERY: type `0xFF`, empty payload (R141). -/
def execFrameDiscovery (side : Side) (s : State) : Result := runFrame side 0xFF#8 [] s

/-- FRAME.CPU: type `0x01`, four payload bytes (R142). -/
def execFrameCpu (side : Side) (p0 p1 p2 p3 : Byte) (s : State) : Result := runFrame side 0x01#8 [p0, p1, p2, p3] s

/-- FRAME.MEM: type `0x02`, four payload bytes (R143). -/
def execFrameMem (side : Side) (p0 p1 p2 p3 : Byte) (s : State) : Result := runFrame side 0x02#8 [p0, p1, p2, p3] s

/-- FRAME.RESERVED: every other header (R144). -/
def execFrameReserved (side : Side) (t : Byte) (p : List Byte) (s : State) : Result := runFrame side t p s

end Sys2Proof.Machine
end

