-- ==== Sys2Proof/Machine/Function.lean ====
section
/-! DEFINITION. The meanings of the FUNC rows (40_checksum R80, R81; 41_encoder R90; 43_frame_types R145). The value of a
pure function goes to `funcOut`; the accumulator form works on `dec_acc` or `enc_acc` (log entry 15). -/

namespace Sys2Proof.Machine

/-- CHK.FOLD (40_checksum R80). -/
def execChkFold (bs : List Byte) (s : State) : Result := .next (putFunc (.chk (chk bs)) s)

/-- CHK.CLEAR (40_checksum R81): `acc <- 0x00`. -/
def execChkClear (r : AccReg) (s : State) : Result := .next (putAcc r 0#8 s)

/-- CHK.ABSORB (40_checksum R81): `acc <- acc ^ b`. -/
def execChkAbsorb (r : AccReg) (b : Byte) (s : State) : Result := .next (putAcc r (absorb (getAcc r s) b) s)

/-- ENCODE (41_encoder R90). -/
def execEncode (t : Byte) (p : List Byte) (s : State) : Result := .next (putFunc (.encode (encodeFrame t p)) s)

/-- DISPATCHCLASS (43_frame_types R145). -/
def execDispatchClass (t : Byte) (n : Nat) (s : State) : Result := .next (putFunc (.dispatchClass (classify t n)) s)

end Sys2Proof.Machine
end

