-- ==== Sys2Proof/Machine/Link.lean ====
section
/-! DEFINITION. The meanings of the LINKSYM rows, one DEC step with that link symbol (10_state R30, 42_decoder R110), and
of the LEN rows, the DEC step that takes a byte in length position (30_encoding R68, R69; log entry 12). -/

namespace Sys2Proof.Machine

/-- LINK.NOTREADY: `rx_poll = 0`, whatever the other two ports hold (R30; 93 V8, V9). -/
def execLinkNotReady (_rdValid : Bool) (_data : Byte) (s : State) : Result := decStep .notReady s

/-- LINK.READYEMPTY: `rx_poll = 1`, `rx_rd_valid = 0`; `rx_data` is not looked at (R30). -/
def execLinkReadyEmpty (_data : Byte) (s : State) : Result := decStep .readyEmpty s

/-- LINK.READYBYTE: `rx_poll = 1`, `rx_rd_valid = 1` (R30). -/
def execLinkReadyByte (b : Byte) (s : State) : Result := decStep (.readyByte b) s

/-- LEN.ZERO: the byte `0x00` in length position is consumed and dropped (42_decoder R112). -/
def execLenZero (s : State) : Result :=
  whenSelected (s.dec.state == .awaitLength) (decStepLength (.readyByte 0#8) s)

/-- LEN.VALID: any other byte in length position is latched (42_decoder R113). -/
def execLenValid (b : Byte) (s : State) : Result :=
  whenSelected (s.dec.state == .awaitLength && b != 0#8) (decStepLength (.readyByte b) s)

end Sys2Proof.Machine
end

