-- ==== Sys2Proof/Machine/Reset.lean ====
section
/-! DEFINITION. The meaning of the RST row (10_state R34; 70_reset_and_hazards R176, R177). -/

namespace Sys2Proof.Machine

/-- RESET: a step with `rst = 1` of the units that sample it (log entry 14). -/
def execReset (scope : ResetScope) (s : State) : Result :=
  match scope with
  | .both => .next (resetEnc (resetDec s))
  | .dec => .next (resetDec s)
  | .enc => .next (resetEnc s)

end Sys2Proof.Machine
end

