-- ==== Sys2Proof/Machine/Dispatch.lean ====
section
/-! DEFINITION. One arm per instruction: each calls its own meaning. -/

namespace Sys2Proof.Machine

def exec (i : Instr) (s : State) : Host.Outcome State Fault Refusal :=
  match i with
  | .frameDiscovery side => Sys2Proof.Machine.execFrameDiscovery side s
  | .frameCpu side p0 p1 p2 p3 => Sys2Proof.Machine.execFrameCpu side p0 p1 p2 p3 s
  | .frameMem side p0 p1 p2 p3 => Sys2Proof.Machine.execFrameMem side p0 p1 p2 p3 s
  | .frameReserved side t p => Sys2Proof.Machine.execFrameReserved side t p s
  | .lenZero => Sys2Proof.Machine.execLenZero s
  | .lenValid b => Sys2Proof.Machine.execLenValid b s
  | .linkNotReady v d => Sys2Proof.Machine.execLinkNotReady v d s
  | .linkReadyEmpty d => Sys2Proof.Machine.execLinkReadyEmpty d s
  | .linkReadyByte b => Sys2Proof.Machine.execLinkReadyByte b s
  | .decAlIdle y => Sys2Proof.Machine.execDecAlIdle y s
  | .decAlZero => Sys2Proof.Machine.execDecAlZero s
  | .decAlLatch b => Sys2Proof.Machine.execDecAlLatch b s
  | .decAbStore b => Sys2Proof.Machine.execDecAbStore b s
  | .decAbStoreLast b => Sys2Proof.Machine.execDecAbStoreLast b s
  | .decAbWait y => Sys2Proof.Machine.execDecAbWait y s
  | .decAbTimeout y => Sys2Proof.Machine.execDecAbTimeout y s
  | .decAcDeliver c => Sys2Proof.Machine.execDecAcDeliver c s
  | .decAcMissing y => Sys2Proof.Machine.execDecAcMissing y s
  | .decAcMismatch c => Sys2Proof.Machine.execDecAcMismatch c s
  | .encIdleNop => Sys2Proof.Machine.execEncIdleNop s
  | .encIdleAccept t p => Sys2Proof.Machine.execEncIdleAccept t p s
  | .encIdleReject t p => Sys2Proof.Machine.execEncIdleReject t p s
  | .encLenStall => Sys2Proof.Machine.execEncLenStall s
  | .encTypeStall => Sys2Proof.Machine.execEncTypeStall s
  | .encPayloadStall => Sys2Proof.Machine.execEncPayloadStall s
  | .encChkStall => Sys2Proof.Machine.execEncChkStall s
  | .encLenEmit => Sys2Proof.Machine.execEncLenEmit s
  | .encTypeEmit => Sys2Proof.Machine.execEncTypeEmit s
  | .encTypeEmitEmpty => Sys2Proof.Machine.execEncTypeEmitEmpty s
  | .encPayloadEmit => Sys2Proof.Machine.execEncPayloadEmit s
  | .encPayloadEmitLast => Sys2Proof.Machine.execEncPayloadEmitLast s
  | .encChkEmit => Sys2Proof.Machine.execEncChkEmit s
  | .reset scope => Sys2Proof.Machine.execReset scope s
  | .chkFold bs => Sys2Proof.Machine.execChkFold bs s
  | .chkClear r => Sys2Proof.Machine.execChkClear r s
  | .chkAbsorb r b => Sys2Proof.Machine.execChkAbsorb r b s
  | .encode t p => Sys2Proof.Machine.execEncode t p s
  | .dispatchClass t n => Sys2Proof.Machine.execDispatchClass t n s

end Sys2Proof.Machine
end

