-- ==== Sys2Proof/Machine/Fetch.lean ====
section
/-! DEFINITION. Fetching: which instruction the next input selects ("the operations of DEC and ENC are chosen by the unit's
state and by conditions on its inputs, not by an instruction word", 30_encoding section 5), and the states that a word of
opcode_table.json is placed in (log entry 18). -/

namespace Sys2Proof.Machine

/-- A pure function's instruction. -/
def funcInstr : FuncCall → Instr
  | .chkFold bs => .chkFold bs
  | .encode t p => .encode t p
  | .dispatchClass t n => .dispatchClass t n

/-- The WIRE instruction of a frame on a stream. A payload of more than 254 bytes has no header word (its length does not
fit the length byte, 41_encoder R103); the catch-all row takes it, and ENC rejects it. -/
def frameInstr (side : Side) (t : Byte) (p : List Byte) : Option Instr :=
  if p.length ≤ payloadMax then selectWire side t p else some (.frameReserved side t p)

/-- The DECSEL row of a DEC step with these ports, or the reset row (30_encoding R72: "`rst = 1` takes precedence over every
`DECSEL` and `ENCSEL` row"). -/
def fetchDec (p : DecIn) (s : State) : Option Instr :=
  if p.rst then some (.reset .dec) else decodeDecSel (decSelWord s.cfg s.dec p.sym) p.sym

/-- The ENCSEL row of an ENC step with these ports, or the reset row. -/
def fetchEnc (p : EncIn) (s : State) : Option Instr :=
  if p.rst then some (.reset .enc) else decodeEncSel (encSelWord s.enc p) p.typeIn p.payIn

/-- The instruction that an input selects in a state. -/
def fetchInstr (st : Stim) (s : State) : Option Instr :=
  match st with
  | .dec p => fetchDec p s
  | .enc p => fetchEnc p s
  | .reset => some (.reset .both)
  | .frame side t p => frameInstr side t p
  | .func f => some (funcInstr f)

/-! ### Placing a word of the table -/

/-- DEC registers that form a `Q` with the bits of `w`, for the symbol its image carries; they meet 10_state R18. In
AWAIT_BODY nothing is stored yet and the length is 1 (`last = 1`) or 2; with `expire = 1` the count stands at `T - 1`. In
AWAIT_CHECKSUM one byte is stored, chosen so that `dec_acc` equals the byte on the link exactly if `match = 1`. -/
def decRegsFor (c : Config) (w : Byte) : DecRegs :=
  if w.getLsbD 5 then
    { state := .awaitBody, len := if w.getLsbD 2 then 1#8 else 2#8, cnt := 0#8,
      acc := if w.getLsbD 2 then 1#8 else 2#8, idle := if w.getLsbD 1 then c.frameTimeoutTicks - 1 else 0, buf := [] }
  else if w.getLsbD 6 then
    { state := .awaitChecksum, len := 1#8, cnt := 1#8, acc := if w.getLsbD 0 == w.getLsbD 3 then 0#8 else 1#8, idle := 0,
      buf := [(0, if w.getLsbD 0 == w.getLsbD 3 then 1#8 else 0#8)] }
  else DecRegs.canonicalIdle

/-- The length byte that gives `W` its bits `one` and `lastp` at `enc_idx = 0`. -/
def encLenFor (w : Byte) : Nat := if w.getLsbD 1 then 1 else if w.getLsbD 0 then 2 else 3

/-- The frame with a payload of zeros and type 0, in the emitting state `st`. -/
def encRegsAt (st : EncState) (len : Nat) (acc : Byte) : EncRegs :=
  { state := st, type := 0#8, len := BitVec.ofNat 8 len, idx := 0#8, acc := acc,
    pay := Memory.ofBytes (List.replicate (len - 1) 0#8) }

/-- ENC registers that form a `W` with the bits of `w`; they meet 10_state R27. -/
def encRegsFor (w : Byte) : EncRegs :=
  match (w.extractLsb' 5 3).toNat with
  | 1 => encRegsAt .len (encLenFor w) 0#8
  | 2 => encRegsAt .type (encLenFor w) (BitVec.ofNat 8 (encLenFor w))
  | 3 => encRegsAt .payload (if w.getLsbD 0 then 2 else 3) (BitVec.ofNat 8 (if w.getLsbD 0 then 2 else 3))
  | 4 => encRegsAt .chk (encLenFor w) (BitVec.ofNat 8 (encLenFor w))
  | _ => EncRegs.canonicalIdle

/-- An input put first. -/
def pushPending (st : Stim) (s : State) : State := { s with pending := st :: s.pending }

/-- The state whose next input is the one an image stands for, with the registers that select its row. -/
def placeImage (f : Format) (bytes : List Byte) (s : State) : State :=
  match f, bytes with
  | .wire side, _ :: t :: rest => pushPending (.frame side t rest.dropLast) s
  | .linksym, [lo, hi] => pushPending (.dec (DecIn.ofWord (hi.extractLsb' 0 2 ++ lo))) s
  | .decsel, [q, lo, hi] =>
    pushPending (.dec (DecIn.ofWord (hi.extractLsb' 0 2 ++ lo))) { s with dec := decRegsFor s.cfg q }
  | .encsel, [w] => pushPending (.enc (EncIn.noCommand (w.getLsbD 2))) { s with enc := encRegsFor w }
  | .encsel, w :: t :: p => pushPending (.enc (EncIn.command t p (w.getLsbD 2))) { s with enc := encRegsFor w }
  | .rst, _ => pushPending .reset s
  | .len, [b] => pushPending (.dec (DecIn.ofSym (.readyByte b))) { s with dec := DecRegs.canonicalIdle }
  | _, _ => s

end Sys2Proof.Machine
end

