-- ==== Sys2Proof/Machine/Step.lean ====
section
/-! DEFINITION. One step: the next input of the environment is taken, and the instruction it selects is run. -/

namespace Sys2Proof.Machine

/-- One input applied to a state. -/
def stepOn (st : Stim) (s : State) : Host.Outcome State Fault Refusal :=
  match fetchInstr st s with
  | some i => exec i s
  | none => .refused .noRow

/-- One step. With no input left no unit takes a step (60_exceptions R161: "an environment may simply stop stepping"; log
entry 3). -/
def step (s : State) : Host.Outcome State Fault Refusal :=
  match s.pending with
  | [] => .next s
  | st :: rest => stepOn st { s with pending := rest }

/-- A list of inputs applied in order. -/
def runStims (sts : List Stim) (s : State) : Host.Outcome State Fault Refusal :=
  match sts with
  | [] => .next s
  | st :: rest => andThen (stepOn st s) (runStims rest)

/-- `s` with a word of opcode_table.json placed so that the next step runs it (log entries 16, 18). -/
def State.withFetchWord (s : State) (nbits w : Nat) : State :=
  match tableImage nbits w with
  | some (f, bytes) => placeImage f bytes s
  | none => s

end Sys2Proof.Machine
end

