-- ==== Sys2Proof/Machine/Notation.lean ====
section
/-! DEFINITION. The stimulus notation of 30_encoding R73, R74: what each statement presents to the units, as a list of
inputs, and what running it does. `ENC` is given for a unit that is idle, as R73 has it. A program of statements is run from
a state directly; the inputs in `pending` are another matter (log entry 28). -/

namespace Sys2Proof.Machine

/-- The statements and pseudo-statements. The value of `CPU` and `MEM` is a number (R74). -/
inductive Stmt
  | reset
  | enc (t : Byte) (p : List Byte)
  | stall (n : Nat)
  | rx (b : Byte)
  | idle (n : Nat)
  | empty (n : Nat)
  | discover
  | cpu (x : Rat)
  | mem (x : Rat)
  | rxf (t : Byte) (p : List Byte)
  | rxs (bs : List Byte)
  | loopback
deriving DecidableEq, Repr

/-- One DEC step with a symbol. -/
def symStim (y : LinkSym) : Stim := .dec (DecIn.ofSym y)

/-- `RXS`: `RX` of each byte. -/
def rxsStims (bs : List Byte) : List Stim := bs.map (fun b => symStim (.readyByte b))

/-- `ENC t, [p]`: the step presenting the command, then the `n + 3` steps with `tx_ready = 1` that reach `enc_done`
(41_encoder R101); if the command is rejected, just the one step. R73 gives the statement for an idle unit only. DESIGN
CHOICE: in a busy ENC the inputs are the same, a function of the payload's length alone, and do not wait for `enc_done`, unlike
a WIRE row's `sendFrame` (log entries 29 and 11). -/
def encStims (t : Byte) (p : List Byte) : List Stim :=
  .enc (EncIn.command t p true)
    :: (if payloadMax < p.length then [] else List.replicate (p.length + 3) (.enc (EncIn.noCommand true)))

/-- The inputs a statement presents; those of `LOOPBACK` are the bytes then in the tx log. -/
def Stmt.stims (s : State) : Stmt → List Stim
  | .reset => [.reset]
  | .enc t p => encStims t p
  | .stall n => List.replicate n (.enc (EncIn.noCommand false))
  | .rx b => [symStim (.readyByte b)]
  | .idle n => List.replicate n (symStim .notReady)
  | .empty n => List.replicate n (symStim .readyEmpty)
  | .discover => encStims 0xFF#8 []
  | .cpu x => encStims 0x01#8 (f32le x)
  | .mem x => encStims 0x02#8 (f32le x)
  | .rxf t p =>
    match encodeFrame t p with
    | .frame f => rxsStims f
    | .rejectOversize => []
  | .rxs bs => rxsStims bs
  | .loopback => rxsStims s.txLog

/-- The tx log emptied (R74). -/
def clearTxLog (s : State) : State := { s with txLog := [] }

/-- What a statement does after its steps: `LOOPBACK` empties the tx log ("`RXS` of every byte in the tx log, then the tx log
is emptied"), no other statement does anything. -/
def Stmt.finish (s : State) : Stmt → State
  | .loopback => clearTxLog s
  | _ => s

/-- A statement run from a state: its steps, then what follows them. -/
def runStmt (c : Stmt) (s : State) : Result := andThen (runStims (c.stims s) s) (fun t => .next (c.finish t))

/-- "One statement per line" (R73): a program, run in order. -/
def runProgram (cs : List Stmt) (s : State) : Result :=
  match cs with
  | [] => .next s
  | c :: rest => andThen (runStmt c s) (runProgram rest)

end Sys2Proof.Machine
end

