-- ==== Sys2Proof/Safety.lean ====
section
/-! DEFINITION. What a safe run is: the invariants of 10_state R18 and R27 hold and every step answers a next state
(42_decoder R110: "DEC has no stuck state and no fault"). -/

namespace Sys2Proof.Machine

/-- A buffer whose listed cells are exactly `0 .. n - 1`: the "byte sequence of length `n`" of 10_state R17, R26. -/
abbrev Memory.holds (m : Memory) (n : Nat) : Prop := m = Memory.ofBytes m.bytes ∧ m.bytes.length = n

/-- The DEC invariants (10_state R18), for the parameter `T` of the configuration. -/
abbrev DecRegs.Inv (c : Config) (d : DecRegs) : Prop :=
  (d.state = .awaitLength → d = DecRegs.canonicalIdle) ∧
  (d.state = .awaitBody → 1 ≤ d.len.toNat ∧ d.cnt.toNat < d.len.toNat ∧ d.idle < c.frameTimeoutTicks ∧
    d.acc = chk (d.len :: d.buf.bytes) ∧ d.buf.holds d.cnt.toNat) ∧
  (d.state = .awaitChecksum → 1 ≤ d.len.toNat ∧ d.cnt = d.len ∧ d.idle < c.frameTimeoutTicks ∧
    d.acc = chk (d.len :: d.buf.bytes) ∧ d.buf.holds d.len.toNat)

/-- The ENC invariants (10_state R27). The wire bytes below the current position are none in ENC_LEN, the length byte in
ENC_TYPE, length, type and `enc_idx` payload bytes in ENC_PAYLOAD, the whole span in ENC_CHK (R24). -/
abbrev EncRegs.Inv (e : EncRegs) : Prop :=
  (e.state = .idle → e = EncRegs.canonicalIdle) ∧
  (e.state ≠ .idle → 1 ≤ e.len.toNat ∧ e.pay.holds (e.len.toNat - 1)) ∧
  (e.state = .len → e.idx = 0#8 ∧ e.acc = 0#8) ∧
  (e.state = .type → e.idx = 0#8 ∧ e.acc = chk [e.len]) ∧
  (e.state = .payload → 2 ≤ e.len.toNat ∧ e.idx.toNat < e.len.toNat - 1 ∧
    e.acc = chk (e.len :: e.type :: e.pay.bytes.take e.idx.toNat)) ∧
  (e.state = .chk → e.idx = 0#8 ∧ e.acc = chk (e.len :: e.type :: e.pay.bytes))

/-- The invariant of the machine: the parameter is in its domain (00_scope R5) and both units meet theirs. -/
abbrev State.Inv (s : State) : Prop := s.cfg.Valid ∧ s.dec.Inv s.cfg ∧ s.enc.Inv

/-- A run of `k` steps is safe if none of them stops. -/
def SafeRun (k : Nat) (s : State) : Prop :=
  match k with
  | 0 => True
  | k + 1 => ∃ t, step s = .next t ∧ SafeRun k t

/-! ### Families of instructions, for statements about several of them -/

/-- The rows that are one DEC step: LEN, LINKSYM, DECSEL. -/
def isDecRow : Instr → Bool
  | .lenZero | .lenValid _ | .linkNotReady _ _ | .linkReadyEmpty _ | .linkReadyByte _ => true
  | .decAlIdle _ | .decAlZero | .decAlLatch _ | .decAbStore _ | .decAbStoreLast _ | .decAbWait _ => true
  | .decAbTimeout _ | .decAcDeliver _ | .decAcMissing _ | .decAcMismatch _ => true
  | _ => false

/-- The rows that are one ENC step: ENCSEL. -/
def isEncRow : Instr → Bool
  | .encIdleNop | .encIdleAccept _ _ | .encIdleReject _ _ | .encLenStall | .encTypeStall => true
  | .encPayloadStall | .encChkStall | .encLenEmit | .encTypeEmit | .encTypeEmitEmpty => true
  | .encPayloadEmit | .encPayloadEmitLast | .encChkEmit => true
  | _ => false

/-- The ENC rows after which every cell of `enc_pay` is as before: all but the accepting and the finishing one. -/
def keepsPayload (i : Instr) : Bool :=
  match i with
  | .encIdleAccept _ _ => false
  | .encChkEmit => false
  | i => isEncRow i

/-- The DECSEL rows after which every cell of `dec_buf` is as before. -/
def keepsBody : Instr → Bool
  | .decAlIdle _ => true
  | .decAbWait _ => true
  | _ => false

end Sys2Proof.Machine
end

