-- ==== Sys2Proof/Certificates/Slice0/Obligations.lean ====
section
/-! DEFINITION. The statements about the frame codec block, each from a numbered rule of spec/ or from the sections it
names. `0x..` values and record updates are written out where a rule writes them out. `decOut`, `encOut`, `rxPos`, `txLog` and
`events` are where the model keeps a step's outputs (10_state R31, R33), the stream positions (20_memory R42, R41) and the
events (70_reset_and_hazards R189); log entries 6 and 7. -/

open Sys2Proof Sys2Proof.Machine

/-! ### Encoding -/

/-- Decoding an encoded well-formed instruction gives it back, with every operand at every value (30_encoding R60 to R72,
10_state R30; the images are the model's, log entry 17). -/
def Obligations.DecodeOfEncodeIsIdentity : Prop :=
  ∀ i : Instr, i.wf = true → decode (formatOf i) (encode i) = .ok i

/-- Words written out from the spec: frames and the length byte as they stand on the wire (95_test_vectors V-DEC-1, V-DEC-2,
V-DEC-9; 30_encoding R68), and the bits of `S`, `Q`, `W` and `rst` (10_state R30, 30_encoding R70, R71, R72) in the model's own
byte images: their layout in bytes is log entry 17, the reset's scope byte log entry 14. -/
def Obligations.SpecWordsDecode : Prop :=
  decode (.wire .rx) [0x05#8, 0x01#8, 0x00#8, 0x00#8, 0x2A#8, 0x42#8, 0x6C#8]
    = .ok (.frameCpu .rx 0x00#8 0x00#8 0x2A#8 0x42#8) ∧
  decode (.wire .tx) [0x01#8, 0xFF#8, 0xFE#8] = .ok (.frameDiscovery .tx) ∧
  decode (.wire .rx) [0x01#8, 0xFF#8, 0xFF#8] = .error .badChecksum ∧
  decode .len [0x00#8] = .ok .lenZero ∧
  decode .linksym [0x5A#8, 0x03#8] = .ok (.linkReadyByte 0x5A#8) ∧
  decode .decsel [0x34#8, 0x42#8, 0x03#8] = .ok (.decAbStoreLast 0x42#8) ∧
  decode .encsel [0x65#8] = .ok .encPayloadEmitLast ∧
  decode .rst [0x01#8, 0x00#8] = .ok (.reset .both)

/-- "The rows are disjoint and cover every `Q` with `st != 11`", "every `W` with `st <= 100`" (30_encoding R70, R71). -/
def Obligations.SelectionRowsDisjointAndCover : Prop :=
  (∀ q : BitVec 7, q.extractLsb' 5 2 ≠ 3#2 → (decSelTable.filter (fun r => rowHit 7 q r.2)).length = 1) ∧
  (∀ w : BitVec 8, (w.extractLsb' 5 3).toNat ≤ 4 →
    (encSelTable.filter (fun r => rowHit 8 w r.2)).length = 1)

/-- The bytes `[L] ++ body ++ [c]`, `len(body) = L`, decode exactly if the checksum recomputed over length and body equals
`c`, and then to the row of `type = body[0]` and `payload = body[1:]` (30_encoding R60, R62, R63). Where 40_checksum R85 differs, on
a `0x00` byte inserted or removed with the length byte changed to suit, following R80 is the model's choice (log entry 26). -/
def Obligations.SpanDecodesIffChecksumAgrees : Prop :=
  ∀ (side : Side) (l t c : Byte) (p : List Byte), l.toNat = p.length + 1 →
    ((∃ i, decode (.wire side) (l :: t :: p ++ [c]) = .ok i) ↔ c = chk (l :: t :: p)) ∧
    (∀ i, decode (.wire side) (l :: t :: p ++ [c]) = .ok i → selectWire side t p = some i)

/-- Every frame `Encode` gives is well formed and valid (41_encoder R104): its length byte is `1 + n` within `1..255`, it
has `n + 3` bytes, its bytes XOR to zero, and it decodes. -/
def Obligations.EncodedFrameIsWellFormed : Prop :=
  ∀ (t : Byte) (p : List Byte), p.length ≤ 254 →
    ∃ f, encodeFrame t p = .frame f ∧ f.length = p.length + 3 ∧ (∃ l, f.head? = some l ∧ l.toNat = 1 + p.length) ∧
      chk f = 0#8 ∧ ∀ side, ∃ i, decode (.wire side) f = .ok i

/-! ### CHK -/

/-- CHK.FOLD (40_checksum R80): `Chk([]) = 0x00`, `Chk(s ++ [b]) = Chk(s) ^ b`; the row gives that byte and changes nothing
else. The function is the rule's; the place of its value in the state, `funcOut`, is the model's choice (log entry 15). -/
def Obligations.ChkFoldRow : Prop :=
  chk [] = 0x00#8 ∧ (∀ (s : List Byte) (b : Byte), chk (s ++ [b]) = chk s ^^^ b) ∧
  ∀ (bs : List Byte) (s : State), exec (.chkFold bs) s = .next { s with funcOut := some (.chk (chk bs)) }

/-- CHK.CLEAR and CHK.ABSORB (40_checksum R81): `acc <- 0x00`, `acc <- acc ^ b`, on either accumulator, nothing else
changed; after a clear and absorbs of `b0 .. bk` the accumulator is `Chk([b0, .., bk])` (R84). -/
def Obligations.AccumulatorFormFolds : Prop :=
  (∀ s : State, exec (.chkClear .dec) s = .next { s with dec := { s.dec with acc := 0x00#8 } }) ∧
  (∀ s : State, exec (.chkClear .enc) s = .next { s with enc := { s.enc with acc := 0x00#8 } }) ∧
  (∀ (s : State) (b : Byte),
    exec (.chkAbsorb .dec b) s = .next { s with dec := { s.dec with acc := s.dec.acc ^^^ b } }) ∧
  (∀ (s : State) (b : Byte),
    exec (.chkAbsorb .enc b) s = .next { s with enc := { s.enc with acc := s.enc.acc ^^^ b } }) ∧
  (∀ (r : AccReg) (bs : List Byte) (s : State), ∃ t,
    bs.foldl (fun o b => andThen o (exec (.chkAbsorb r b))) (exec (.chkClear r) s) = .next t ∧ getAcc r t = chk bs)

/-- The algebra of the checksum (40_checksum R83). -/
def Obligations.ChkAlgebra : Prop :=
  (∀ a b : Byte, a ^^^ b = b ^^^ a) ∧ (∀ a b c : Byte, (a ^^^ b) ^^^ c = a ^^^ (b ^^^ c)) ∧
  (∀ a : Byte, a ^^^ 0#8 = a) ∧ (∀ a : Byte, a ^^^ a = 0#8) ∧
  (∀ s t : List Byte, chk (s ++ t) = chk s ^^^ chk t) ∧
  (∀ s s' : List Byte, s'.Perm s → chk s' = chk s) ∧
  (∀ s : List Byte, chk (s ++ [chk s]) = 0#8)

/-- "Changing one bit of one byte of `s` changes `Chk(s)` in exactly that bit position" (40_checksum R85). -/
def Obligations.OneBitChangesOneChecksumBit : Prop :=
  ∀ (s : List Byte) (i k : Nat) (b : Byte), s[i]? = some b → k < 8 →
    chk (s.set i (b ^^^ (1#8 <<< k))) = chk s ^^^ (1#8 <<< k)

/-! ### FUNC -/

/-- ENCODE (41_encoder R90): `Reject(OVERSIZE)` exactly when `n >= 255`, else the `n + 3` bytes
`[1 + n, t] ++ p ++ [Chk(..)]`; nothing else changes. The function is the rule's; the place of its value in the state,
`funcOut`, is the model's choice (log entry 15). -/
def Obligations.EncodeRow : Prop :=
  ∀ (t : Byte) (p : List Byte) (s : State),
    (255 ≤ p.length → exec (.encode t p) s = .next { s with funcOut := some (.encode .rejectOversize) }) ∧
    (p.length ≤ 254 → ∃ l : Byte, l.toNat = 1 + p.length ∧
      exec (.encode t p) s
        = .next { s with funcOut := some (.encode (.frame (l :: t :: p ++ [chk (l :: t :: p)]))) } ∧
      (l :: t :: p ++ [chk (l :: t :: p)]).length = p.length + 3)

/-- DISPATCHCLASS (43_frame_types R145): the class of a type and a payload length, for each of the four lines. The function is
the rule's, which says that the block does not compute it; that it can be run, and the place of its value in the state,
`funcOut`, are the model's choice (log entry 15). -/
def Obligations.DispatchClassRow : Prop :=
  ∀ (t : Byte) (n : Nat) (s : State), ∃ c,
    exec (.dispatchClass t n) s = .next { s with funcOut := some (.dispatchClass c) } ∧
    (t = 0xFF#8 → n = 0 → c = .discovery) ∧
    (t = 0x01#8 → n = 4 → c = .cpu) ∧
    (t = 0x02#8 → n = 4 → c = .mem) ∧
    (¬ (t = 0xFF#8 ∧ n = 0) → ¬ (t = 0x01#8 ∧ n = 4) → ¬ (t = 0x02#8 ∧ n = 4) → c = .ignore)

/-! ### DEC, rule by rule: the row that the step selects, and the next state -/

/-- DEC.AL.IDLE (42_decoder R111): no register changes, no event. -/
def Obligations.DecIdleInLengthChangesNothing : Prop :=
  ∀ (s : State) (y : IdleSym), s.dec.state = .awaitLength →
    exec (.decAlIdle y) s = .next { s with decOut := { rdEn := symPoll y.link, event := none } } ∧
    ∀ p : DecIn, p.rst = false → p.sym = y.link → fetchInstr (.dec p) s = some (.decAlIdle y)

/-- DEC.AL.ZERO (42_decoder R112): the byte is consumed and dropped, no register changes, `Discard(LEN_ZERO)`. The rule says
that DEC stays in the canonical idle state: the state the invariant of 10_state R18 has in AWAIT_LENGTH. -/
def Obligations.DecZeroLengthByteIsSkipped : Prop :=
  ∀ s : State, s.dec = DecRegs.canonicalIdle →
    exec .decAlZero s = .next { s with
      decOut := { rdEn := true, event := some (.discard .lenZero) }
      rxPos := s.rxPos + 1
      events := s.events ++ [.discard .lenZero] } ∧
    ∀ p : DecIn, p.rst = false → p.sym = .readyByte 0x00#8 → fetchInstr (.dec p) s = some .decAlZero

/-- DEC.AL.LATCH (42_decoder R113). -/
def Obligations.DecLengthByteIsLatched : Prop :=
  ∀ (s : State) (b : Byte), s.dec.state = .awaitLength → b ≠ 0x00#8 →
    exec (.decAlLatch b) s = .next { s with
      dec := { state := .awaitBody, len := b, cnt := 0#8, acc := b, idle := 0, buf := [] }
      decOut := { rdEn := true, event := none }
      rxPos := s.rxPos + 1 } ∧
    ∀ p : DecIn, p.rst = false → p.sym = .readyByte b → fetchInstr (.dec p) s = some (.decAlLatch b)

/-- DEC.AB.STORE and DEC.AB.STORE.LAST (42_decoder R115): the byte goes to cell `dec_cnt`, which is in `0..254`, and into
`dec_acc`; `dec_cnt` counts on without wrap; `dec_idle` is unchanged; AWAIT_CHECKSUM exactly after the last byte. -/
def Obligations.DecBodyByteIsStored : Prop :=
  ∀ (s : State) (b : Byte), s.dec.state = .awaitBody → s.dec.cnt.toNat ≤ 254 →
    (s.dec.cnt + 1#8).toNat = s.dec.cnt.toNat + 1 ∧
    (s.dec.cnt.toNat + 1 ≠ s.dec.len.toNat →
      exec (.decAbStore b) s = .next { s with
        dec := { s.dec with cnt := s.dec.cnt + 1#8, acc := s.dec.acc ^^^ b,
                            buf := s.dec.buf.write s.dec.cnt.toNat b }
        decOut := { rdEn := true, event := none }
        rxPos := s.rxPos + 1 } ∧
      ∀ p : DecIn, p.rst = false → p.sym = .readyByte b → fetchInstr (.dec p) s = some (.decAbStore b)) ∧
    (s.dec.cnt.toNat + 1 = s.dec.len.toNat →
      exec (.decAbStoreLast b) s = .next { s with
        dec := { s.dec with state := .awaitChecksum, cnt := s.dec.cnt + 1#8, acc := s.dec.acc ^^^ b,
                            buf := s.dec.buf.write s.dec.cnt.toNat b }
        decOut := { rdEn := true, event := none }
        rxPos := s.rxPos + 1 } ∧
      ∀ p : DecIn, p.rst = false → p.sym = .readyByte b → fetchInstr (.dec p) s = some (.decAbStoreLast b))

/-- DEC.AB.WAIT (42_decoder R116): `dec_idle <- dec_idle + 1`, nothing else; never when `T = 1`. -/
def Obligations.DecIdleInBodyIsCounted : Prop :=
  ∀ (s : State) (y : IdleSym), s.dec.state = .awaitBody → s.dec.idle + 1 < s.cfg.frameTimeoutTicks →
    s.cfg.frameTimeoutTicks ≠ 1 ∧
    exec (.decAbWait y) s = .next { s with
      dec := { s.dec with idle := s.dec.idle + 1 }
      decOut := { rdEn := symPoll y.link, event := none } } ∧
    ∀ p : DecIn, p.rst = false → p.sym = y.link → fetchInstr (.dec p) s = some (.decAbWait y)

/-- DEC.AB.TIMEOUT (42_decoder R117): the `T`-th idle step inside the body discards, `Discard(BODY_TIMEOUT)`. -/
def Obligations.DecBodyTimeoutDiscards : Prop :=
  ∀ (s : State) (y : IdleSym), s.dec.state = .awaitBody → s.cfg.frameTimeoutTicks ≤ s.dec.idle + 1 →
    exec (.decAbTimeout y) s = .next { s with
      dec := DecRegs.canonicalIdle
      decOut := { rdEn := symPoll y.link, event := some (.discard .bodyTimeout) }
      events := s.events ++ [.discard .bodyTimeout] } ∧
    ∀ p : DecIn, p.rst = false → p.sym = y.link → fetchInstr (.dec p) s = some (.decAbTimeout y)

/-- DEC.AC.DELIVER (42_decoder R119): `type = body[0]`, `payload = body[1:]` with `dec_len - 1` bytes; return to idle. -/
def Obligations.DecMatchingChecksumDelivers : Prop :=
  ∀ (s : State) (t : Byte) (p : List Byte), s.dec.state = .awaitChecksum → s.dec.len.toNat = p.length + 1 →
    (∀ k, k < p.length + 1 → s.dec.buf.read k = (t :: p)[k]?) →
    exec (.decAcDeliver s.dec.acc) s = .next { s with
      dec := DecRegs.canonicalIdle
      decOut := { rdEn := true, event := some (.deliver t p) }
      rxPos := s.rxPos + 1
      events := s.events ++ [.deliver t p] } ∧
    (∀ o : DecOut, o.event = some (.deliver t p) →
      o.deliverValid = true ∧ o.deliverType = some t ∧ o.deliverPlen = some (s.dec.len - 1#8) ∧
      o.deliverPayload = some p ∧ o.diagDiscard = false) ∧
    ∀ q : DecIn, q.rst = false → q.sym = .readyByte s.dec.acc → fetchInstr (.dec q) s = some (.decAcDeliver s.dec.acc)

/-- DEC.AC.MISSING (42_decoder R120): the first idle step in AWAIT_CHECKSUM discards, whatever `dec_idle` and `T` are. -/
def Obligations.DecMissingChecksumDiscards : Prop :=
  ∀ (s : State) (y : IdleSym), s.dec.state = .awaitChecksum →
    exec (.decAcMissing y) s = .next { s with
      dec := DecRegs.canonicalIdle
      decOut := { rdEn := symPoll y.link, event := some (.discard .chkMissing) }
      events := s.events ++ [.discard .chkMissing] } ∧
    ∀ p : DecIn, p.rst = false → p.sym = y.link → fetchInstr (.dec p) s = some (.decAcMissing y)

/-- DEC.AC.MISMATCH (42_decoder R121). -/
def Obligations.DecChecksumMismatchDiscards : Prop :=
  ∀ (s : State) (c : Byte), s.dec.state = .awaitChecksum → c ≠ s.dec.acc →
    exec (.decAcMismatch c) s = .next { s with
      dec := DecRegs.canonicalIdle
      decOut := { rdEn := true, event := some (.discard .chkMismatch) }
      rxPos := s.rxPos + 1
      events := s.events ++ [.discard .chkMismatch] } ∧
    ∀ p : DecIn, p.rst = false → p.sym = .readyByte c → fetchInstr (.dec p) s = some (.decAcMismatch c)

/-- LEN.ZERO and LEN.VALID: the byte in length position (30_encoding R68, R69). The model's reading of a LEN row as the DEC
step that takes the byte is log entry 12; that LEN.ZERO writes the canonical idle state in every state of AWAIT_LENGTH, also
in those outside the invariant of 10_state R18, is log entry 19. -/
def Obligations.LenRowsTakeTheLengthByte : Prop :=
  ∀ s : State, s.dec.state = .awaitLength →
    exec .lenZero s = .next { s with
      dec := DecRegs.canonicalIdle
      decOut := { rdEn := true, event := some (.discard .lenZero) }
      rxPos := s.rxPos + 1
      events := s.events ++ [.discard .lenZero] } ∧
    ∀ b : Byte, b ≠ 0x00#8 → exec (.lenValid b) s = .next { s with
      dec := { state := .awaitBody, len := b, cnt := 0#8, acc := b, idle := 0, buf := [] }
      decOut := { rdEn := true, event := none }
      rxPos := s.rxPos + 1 }

/-- A link symbol word is one DEC step on that symbol: the LINKSYM row, the step on the ports and the DECSEL row that the
step selects are one and the same next state (10_state R30, 30_encoding R70, 42_decoder R110). -/
def Obligations.LinkRowIsTheSelectedDecRow : Prop :=
  ∀ (w : BitVec 10) (s : State), ∃ i r, decodeLinkSym w = some i ∧
    fetchInstr (.dec (DecIn.ofWord w)) s = some r ∧
    exec i s = exec r s ∧ exec i s = stepOn (.dec (DecIn.ofWord w)) s

/-- The decoding of the ports `S = rx_poll ‖ rx_rd_valid ‖ rx_data` (10_state R30): `rx_poll = 0` gives `NotReady` whatever
the other two ports hold. -/
def Obligations.PortsDecodeToLinkSymbols : Prop :=
  ∀ p : DecIn,
    (p.poll = false → p.sym = .notReady ∧ decodeLinkSym p.word = some (.linkNotReady p.rdValid p.data)) ∧
    (p.poll = true → p.rdValid = false → p.sym = .readyEmpty ∧ decodeLinkSym p.word = some (.linkReadyEmpty p.data)) ∧
    (p.poll = true → p.rdValid = true → p.sym = .readyByte p.data ∧ decodeLinkSym p.word = some (.linkReadyByte p.data))

/-- DEC's step is a total function on the states of the invariant, with no stuck state and no fault; each LINKSYM row
completes there; it takes the link's byte in every busy step, and at most one event is put out (42_decoder R110). -/
def Obligations.DecStepIsTotal : Prop :=
  ∀ s : State, s.cfg.Valid → s.dec.Inv s.cfg →
    (∀ p : DecIn, p.rst = false → ∃ t, stepOn (.dec p) s = .next t ∧ t.dec.Inv s.cfg ∧
      t.decOut.rdEn = p.poll ∧ t.rxPos = s.rxPos + (symBytes p.sym).length ∧
      t.events = s.events ++ t.decOut.event.toList ∧
      (decSelTable.filter (fun r => rowHit 7 (decSelWord s.cfg s.dec p.sym) r.2)).length = 1) ∧
    (∀ v d, ∃ t, exec (.linkNotReady v d) s = .next t ∧ t.dec.Inv s.cfg ∧ t.decOut.rdEn = false ∧ t.rxPos = s.rxPos) ∧
    (∀ d, ∃ t, exec (.linkReadyEmpty d) s = .next t ∧ t.dec.Inv s.cfg ∧ t.decOut.rdEn = true ∧ t.rxPos = s.rxPos) ∧
    (∀ b, ∃ t, exec (.linkReadyByte b) s = .next t ∧ t.dec.Inv s.cfg ∧ t.decOut.rdEn = true ∧ t.rxPos = s.rxPos + 1)

/-- DEC's output ports in any step (10_state R31): `rx_rd_en = rx_poll AND NOT rst`; at most one of `deliver_valid` and
`diag_discard`; the reason code of a discard, 0 with none; the type, length and payload ports hold a value exactly with
`deliver_valid`, `deliver_plen` being the payload's length. -/
def Obligations.DecOutputPorts : Prop :=
  ∀ (s t : State) (p : DecIn), s.cfg.Valid → s.dec.Inv s.cfg → stepOn (.dec p) s = .next t →
    t.decOut.rdEn = (p.poll && !p.rst) ∧
    (t.decOut.deliverValid && t.decOut.diagDiscard) = false ∧
    (t.decOut.diagDiscard = false → t.decOut.diagReason = 0#3) ∧
    (t.decOut.diagDiscard = true → 1 ≤ t.decOut.diagReason.toNat ∧ t.decOut.diagReason.toNat ≤ 4) ∧
    t.decOut.deliverType.isSome = t.decOut.deliverValid ∧
    t.decOut.deliverPlen.isSome = t.decOut.deliverValid ∧
    t.decOut.deliverPayload.isSome = t.decOut.deliverValid ∧
    (∀ pl, t.decOut.deliverPayload = some pl → s.dec.len.toNat = pl.length + 1 ∧
      t.decOut.deliverPlen = some (s.dec.len - 1#8) ∧ pl.length ≤ 254)

/-- A DEC discard (60_exceptions R157, R152): all DEC registers go to the canonical idle state, the diagnostic pair is put
out with the reason's code, nothing is delivered, the stream position is past the byte the step consumes and no other, and
nothing else changes. -/
def Obligations.DiscardReturnsToIdle : Prop :=
  ∀ (s t : State) (p : DecIn) (r : DiscardReason), s.cfg.Valid → s.dec.Inv s.cfg → p.rst = false →
    stepOn (.dec p) s = .next t → t.decOut.event = some (.discard r) →
    t = { s with dec := DecRegs.canonicalIdle, decOut := t.decOut,
                 rxPos := s.rxPos + (symBytes p.sym).length,
                 events := s.events ++ [.discard r] } ∧
    t.decOut.rdEn = p.poll ∧ t.decOut.diagDiscard = true ∧ t.decOut.deliverValid = false ∧
    t.decOut.diagReason = (match r with
      | .lenZero => 1#3
      | .bodyTimeout => 2#3
      | .chkMissing => 3#3
      | .chkMismatch => 4#3)

/-- The transitions of `dec_state`, complete (42_decoder R122). -/
def Obligations.DecTransitionTable : Prop :=
  ∀ (s t : State) (p : DecIn), p.rst = false → stepOn (.dec p) s = .next t →
    match s.dec.state, p.sym with
    | .awaitLength, .readyByte b =>
      if b = 0x00#8 then t.dec.state = .awaitLength ∧ t.decOut.event = some (.discard .lenZero)
      else t.dec.state = .awaitBody ∧ t.decOut.event = none
    | .awaitLength, _ => t.dec.state = .awaitLength ∧ t.decOut.event = none
    | .awaitBody, .readyByte _ =>
      t.decOut.event = none ∧
        t.dec.state = if s.dec.cnt.toNat + 1 = s.dec.len.toNat then .awaitChecksum else .awaitBody
    | .awaitBody, _ =>
      if s.dec.idle + 1 < s.cfg.frameTimeoutTicks then t.dec.state = .awaitBody ∧ t.decOut.event = none
      else t.dec.state = .awaitLength ∧ t.decOut.event = some (.discard .bodyTimeout)
    | .awaitChecksum, .readyByte c =>
      t.dec.state = .awaitLength ∧
        if c = s.dec.acc then t.decOut.deliverValid = true else t.decOut.event = some (.discard .chkMismatch)
    | .awaitChecksum, _ => t.dec.state = .awaitLength ∧ t.decOut.event = some (.discard .chkMissing)

/-! ### ENC, rule by rule -/

/-- ENC.IDLE.NOP (41_encoder R91). -/
def Obligations.EncIdleChangesNothing : Prop :=
  ∀ s : State, s.enc.state = .idle →
    exec .encIdleNop s = .next { s with
      encOut := { ready := true, reject := none, txValid := false, txData := none, done := false } } ∧
    ∀ p : EncIn, p.rst = false → p.start = false → fetchInstr (.enc p) s = some .encIdleNop

/-- ENC.IDLE.ACCEPT (41_encoder R92): the command is latched; cell `i` of `enc_pay` holds `p[i]`, the rest no value; no byte
is transferred. -/
def Obligations.EncCommandIsLatched : Prop :=
  ∀ (s : State) (t : Byte) (p : List Byte), s.enc.state = .idle → p.length ≤ 254 →
    ∃ (l : Byte) (m : Memory), l.toNat = 1 + p.length ∧ (∀ i, m.read i = p[i]?) ∧
      exec (.encIdleAccept t p) s = .next { s with
        enc := { state := .len, type := t, len := l, idx := 0#8, acc := 0x00#8, pay := m }
        encOut := { ready := true, reject := none, txValid := false, txData := none, done := false } } ∧
      ∀ q : EncIn, q.rst = false → q.start = true → q.typeIn = t → q.payIn = p →
        fetchInstr (.enc q) s = some (.encIdleAccept t p)

/-- ENC.IDLE.REJECT (41_encoder R93, 60_exceptions R151, R158): `enc_reject = 1`, `enc_cause = 1`; no register changes, no
byte is offered. -/
def Obligations.EncOversizeIsRejected : Prop :=
  ∀ (s : State) (t : Byte) (p : List Byte), s.enc.state = .idle → 255 ≤ p.length →
    exec (.encIdleReject t p) s = .next { s with
      encOut := { ready := true, reject := some .oversize, txValid := false, txData := none, done := false } } ∧
    (∀ o : EncOut, o.reject = some .oversize → o.encReject = true ∧ o.encCause = 1#2) ∧
    ∀ q : EncIn, q.rst = false → q.start = true → q.typeIn = t → q.payIn = p →
      fetchInstr (.enc q) s = some (.encIdleReject t p)

/-- ENC.*.STALL (41_encoder R95): no register changes, the byte is offered (R96), none is transferred. -/
def Obligations.EncStallsWithoutReady : Prop :=
  ∀ s : State,
    (s.enc.state = .len →
      exec .encLenStall s = .next { s with
        encOut := { ready := false, reject := none, txValid := true, txData := some s.enc.len, done := false } } ∧
      ∀ p : EncIn, p.rst = false → p.txReady = false → fetchInstr (.enc p) s = some .encLenStall) ∧
    (s.enc.state = .type →
      exec .encTypeStall s = .next { s with
        encOut := { ready := false, reject := none, txValid := true, txData := some s.enc.type, done := false } } ∧
      ∀ p : EncIn, p.rst = false → p.txReady = false → fetchInstr (.enc p) s = some .encTypeStall) ∧
    (s.enc.state = .payload → ∀ b, s.enc.pay.read s.enc.idx.toNat = some b →
      exec .encPayloadStall s = .next { s with
        encOut := { ready := false, reject := none, txValid := true, txData := some b, done := false } } ∧
      ∀ p : EncIn, p.rst = false → p.txReady = false → fetchInstr (.enc p) s = some .encPayloadStall) ∧
    (s.enc.state = .chk →
      exec .encChkStall s = .next { s with
        encOut := { ready := false, reject := none, txValid := true, txData := some s.enc.acc, done := false } } ∧
      ∀ p : EncIn, p.rst = false → p.txReady = false → fetchInstr (.enc p) s = some .encChkStall)

/-- ENC.LEN.EMIT (41_encoder R97). -/
def Obligations.EncLengthByteIsSent : Prop :=
  ∀ s : State, s.enc.state = .len →
    exec .encLenEmit s = .next { s with
      enc := { s.enc with acc := s.enc.acc ^^^ s.enc.len, state := .type }
      encOut := { ready := false, reject := none, txValid := true, txData := some s.enc.len, done := false }
      txLog := s.txLog ++ [s.enc.len] } ∧
    ∀ p : EncIn, p.rst = false → p.txReady = true → fetchInstr (.enc p) s = some .encLenEmit

/-- ENC.TYPE.EMIT and ENC.TYPE.EMIT.EMPTY (41_encoder R98): `enc_len = 1` skips ENC_PAYLOAD. -/
def Obligations.EncTypeByteIsSent : Prop :=
  ∀ s : State, s.enc.state = .type →
    (s.enc.len ≠ 1#8 →
      exec .encTypeEmit s = .next { s with
        enc := { s.enc with acc := s.enc.acc ^^^ s.enc.type, state := .payload }
        encOut := { ready := false, reject := none, txValid := true, txData := some s.enc.type, done := false }
        txLog := s.txLog ++ [s.enc.type] } ∧
      ∀ p : EncIn, p.rst = false → p.txReady = true → fetchInstr (.enc p) s = some .encTypeEmit) ∧
    (s.enc.len = 1#8 →
      exec .encTypeEmitEmpty s = .next { s with
        enc := { s.enc with acc := s.enc.acc ^^^ s.enc.type, state := .chk }
        encOut := { ready := false, reject := none, txValid := true, txData := some s.enc.type, done := false }
        txLog := s.txLog ++ [s.enc.type] } ∧
      ∀ p : EncIn, p.rst = false → p.txReady = true → fetchInstr (.enc p) s = some .encTypeEmitEmpty)

/-- ENC.PAYLOAD.EMIT and ENC.PAYLOAD.EMIT.LAST (41_encoder R99): the byte `enc_pay[enc_idx]`; after the last one ENC_CHK and
`enc_idx = 0`, else `enc_idx + 1`, which does not wrap where the invariant of 10_state R27 holds. -/
def Obligations.EncPayloadByteIsSent : Prop :=
  ∀ (s : State) (b : Byte), s.enc.state = .payload → s.enc.pay.read s.enc.idx.toNat = some b →
    (s.enc.idx.toNat + 1 ≠ s.enc.len.toNat - 1 →
      exec .encPayloadEmit s = .next { s with
        enc := { s.enc with acc := s.enc.acc ^^^ b, idx := s.enc.idx + 1#8 }
        encOut := { ready := false, reject := none, txValid := true, txData := some b, done := false }
        txLog := s.txLog ++ [b] } ∧
      (s.enc.Inv → (s.enc.idx + 1#8).toNat = s.enc.idx.toNat + 1 ∧ (s.enc.idx + 1#8).toNat ≤ 253) ∧
      ∀ p : EncIn, p.rst = false → p.txReady = true → fetchInstr (.enc p) s = some .encPayloadEmit) ∧
    (s.enc.idx.toNat + 1 = s.enc.len.toNat - 1 →
      exec .encPayloadEmitLast s = .next { s with
        enc := { s.enc with acc := s.enc.acc ^^^ b, state := .chk, idx := 0#8 }
        encOut := { ready := false, reject := none, txValid := true, txData := some b, done := false }
        txLog := s.txLog ++ [b] } ∧
      ∀ p : EncIn, p.rst = false → p.txReady = true → fetchInstr (.enc p) s = some .encPayloadEmitLast)

/-- ENC.CHK.EMIT (41_encoder R100): the byte `enc_acc`, which is the checksum of the span where the invariant of 10_state
R27 holds; `enc_done`; the canonical idle state. -/
def Obligations.EncChecksumByteIsSent : Prop :=
  ∀ s : State, s.enc.state = .chk →
    exec .encChkEmit s = .next { s with
      enc := { state := .idle, type := 0#8, len := 0#8, idx := 0#8, acc := 0#8, pay := [] }
      encOut := { ready := false, reject := none, txValid := true, txData := some s.enc.acc, done := true }
      txLog := s.txLog ++ [s.enc.acc] } ∧
    (s.enc.Inv → s.enc.acc = chk ([s.enc.len, s.enc.type] ++ s.enc.pay.bytes)) ∧
    ∀ p : EncIn, p.rst = false → p.txReady = true → fetchInstr (.enc p) s = some .encChkEmit

/-- A command presented while ENC is not idle has no effect: not latched, not queued, not rejected even when oversize
(41_encoder R94). -/
def Obligations.BusyEncIgnoresCommands : Prop :=
  ∀ (s : State) (p q : EncIn), s.enc.state ≠ .idle → p.rst = false → q.rst = false → p.txReady = q.txReady →
    stepOn (.enc p) s = stepOn (.enc q) s ∧ fetchInstr (.enc p) s = fetchInstr (.enc q) s ∧
    ∀ t, stepOn (.enc p) s = .next t → t.encOut.ready = false ∧ t.encOut.encReject = false ∧ t.encOut.encCause = 0#2

/-- ENC's output ports in a step with `rst = 0` (10_state R33, 41_encoder R96): `enc_ready`, `tx_valid` and `tx_data` by the
state the step starts in, `tx_data` not depending on `tx_ready`; `enc_reject` and `enc_done` in exactly their steps; a
byte is transferred exactly when `tx_valid` and `tx_ready`. -/
def Obligations.EncOutputPorts : Prop :=
  ∀ (s t : State) (p : EncIn), p.rst = false → stepOn (.enc p) s = .next t →
    t.encOut.ready = (s.enc.state == .idle) ∧
    t.encOut.txValid = (s.enc.state != .idle) ∧
    t.encOut.txData = (match s.enc.state with
      | .idle => none
      | .len => some s.enc.len
      | .type => some s.enc.type
      | .payload => s.enc.pay.read s.enc.idx.toNat
      | .chk => some s.enc.acc) ∧
    t.encOut.encReject = (s.enc.state == .idle && p.start && decide (255 ≤ p.payIn.length)) ∧
    t.encOut.encCause = (if t.encOut.encReject then 1#2 else 0#2) ∧
    t.encOut.done = (s.enc.state == .chk && p.txReady) ∧
    t.txLog = s.txLog ++ (if t.encOut.txValid && p.txReady then t.encOut.txData.toList else [])

/-! ### Frames -/

/-- What an idle ENC sends for each frame type (43_frame_types R141 to R144): the frame's bytes, no more, `enc_done` in the
last step, ENC idle again; DEC untouched. That a WIRE row is the whole frame as one transaction is the model's choice (log
entry 10). -/
def Obligations.IdleEncoderSendsTheFrame : Prop :=
  ∀ s : State, s.enc = EncRegs.canonicalIdle →
    exec (.frameDiscovery .tx) s = .next { s with
      encOut := { ready := false, reject := none, txValid := true, txData := some 0xFE#8, done := true }
      txLog := s.txLog ++ [0x01#8, 0xFF#8, 0xFE#8] } ∧
    (∀ p0 p1 p2 p3 : Byte, ∃ c, c = 0x04#8 ^^^ p0 ^^^ p1 ^^^ p2 ^^^ p3 ∧
      exec (.frameCpu .tx p0 p1 p2 p3) s = .next { s with
        encOut := { ready := false, reject := none, txValid := true, txData := some c, done := true }
        txLog := s.txLog ++ [0x05#8, 0x01#8, p0, p1, p2, p3, c] }) ∧
    (∀ p0 p1 p2 p3 : Byte, ∃ c, c = 0x07#8 ^^^ p0 ^^^ p1 ^^^ p2 ^^^ p3 ∧
      exec (.frameMem .tx p0 p1 p2 p3) s = .next { s with
        encOut := { ready := false, reject := none, txValid := true, txData := some c, done := true }
        txLog := s.txLog ++ [0x05#8, 0x02#8, p0, p1, p2, p3, c] }) ∧
    (∀ (t : Byte) (p : List Byte), p.length ≤ 254 → ∃ l c : Byte, l.toNat = 1 + p.length ∧ c = chk (l :: t :: p) ∧
      exec (.frameReserved .tx t p) s = .next { s with
        encOut := { ready := false, reject := none, txValid := true, txData := some c, done := true }
        txLog := s.txLog ++ (l :: t :: p) ++ [c] })

/-- What an aligned DEC delivers for each frame type, and the consumer's class of the event (43_frame_types R141 to R145):
"for every type code `t` and every payload `p` of `0 .. 254` bytes DEC, on receiving those bytes aligned, emits
`Deliver(t, p)`" (R140). That a WIRE row is the whole frame as one transaction is the model's choice (log entry 10). -/
def Obligations.AlignedDecoderDeliversTheFrame : Prop :=
  ∀ s : State, s.dec = DecRegs.canonicalIdle →
    exec (.frameDiscovery .rx) s = .next { s with
      decOut := { rdEn := true, event := some (.deliver 0xFF#8 []) }
      rxPos := s.rxPos + 3
      events := s.events ++ [.deliver 0xFF#8 []] } ∧
    (DecEvent.deliver 0xFF#8 []).consumerClass = some .discovery ∧
    (∀ p0 p1 p2 p3 : Byte,
      exec (.frameCpu .rx p0 p1 p2 p3) s = .next { s with
        decOut := { rdEn := true, event := some (.deliver 0x01#8 [p0, p1, p2, p3]) }
        rxPos := s.rxPos + 7
        events := s.events ++ [.deliver 0x01#8 [p0, p1, p2, p3]] } ∧
      (DecEvent.deliver 0x01#8 [p0, p1, p2, p3]).consumerClass = some .cpu) ∧
    (∀ p0 p1 p2 p3 : Byte,
      exec (.frameMem .rx p0 p1 p2 p3) s = .next { s with
        decOut := { rdEn := true, event := some (.deliver 0x02#8 [p0, p1, p2, p3]) }
        rxPos := s.rxPos + 7
        events := s.events ++ [.deliver 0x02#8 [p0, p1, p2, p3]] } ∧
      (DecEvent.deliver 0x02#8 [p0, p1, p2, p3]).consumerClass = some .mem) ∧
    (∀ (t : Byte) (p : List Byte), p.length ≤ 254 →
      exec (.frameReserved .rx t p) s = .next { s with
        decOut := { rdEn := true, event := some (.deliver t p) }
        rxPos := s.rxPos + (p.length + 3)
        events := s.events ++ [.deliver t p] } ∧
      (registered t p.length = false → (DecEvent.deliver t p).consumerClass = some .ignore))

/-- A frame too long for its length byte (41_encoder R93, R103): an idle ENC rejects the command in the one
step and sends nothing; there are no bytes for DEC to receive. That FRAME.RESERVED takes such a payload, and that a WIRE row is
the whole frame as one transaction, is the model's choice (log entry 10). -/
def Obligations.OversizeFrameIsNotSent : Prop :=
  ∀ (s : State) (t : Byte) (p : List Byte), 255 ≤ p.length →
    (s.enc.state = .idle → exec (.frameReserved .tx t p) s = .next { s with
      encOut := { ready := true, reject := some .oversize, txValid := false, txData := none, done := false } }) ∧
    exec (.frameReserved .rx t p) s = .next s

/-- A frame's row is its statement (30_encoding R73, R74): on the rx stream one busy step for each byte of `Encode(t, p)` in
wire order, in every state; on the tx stream, from an idle ENC, one step presenting the command and `n + 3` steps with
`tx_ready = 1`. The row is the one that the frame's header selects (R66, R72). That a WIRE row's meaning is its statement, the
whole frame as one transaction on a stream, is the model's choice (log entry 10); the steps of the statement are the rules'. -/
def Obligations.FrameRowIsItsStatement : Prop :=
  ∀ (s : State) (t : Byte) (p f : List Byte), encodeFrame t p = .frame f →
    (∃ i, selectWire .rx t p = some i ∧ exec i s = runStims (rxsStims f) s ∧
      stepOn (.frame .rx t p) s = runStims (rxsStims f) s) ∧
    (s.enc = EncRegs.canonicalIdle → ∃ i, selectWire .tx t p = some i ∧ exec i s = runStims (encStims t p) s ∧
      stepOn (.frame .tx t p) s = runStims (encStims t p) s)

/-! ### Properties of the units -/

/-- Sequencer equals function (41_encoder R101): from the canonical idle state, after a command with `n <= 254` is presented,
and whatever stalls and ignored commands follow, the bytes transferred up to and including the step with `enc_done = 1`
are exactly `Encode(t, p)`, and that step is the `(n + 3)`-rd with `tx_ready = 1`, no earlier one. -/
def Obligations.SequencerEqualsEncode : Prop :=
  ∀ (s : State) (c : EncIn) (ins : List EncIn), s.enc = EncRegs.canonicalIdle →
    c.rst = false → c.start = true → c.payIn.length ≤ 254 → (∀ q ∈ ins, q.rst = false) →
    ∃ f, encodeFrame c.typeIn c.payIn = .frame f ∧ f.length = c.payIn.length + 3 ∧
      ((ins.filter (fun q => q.txReady)).length < c.payIn.length + 3 →
        ∃ e o, runStims (.enc c :: ins.map Stim.enc) s = .next { s with
            enc := e, encOut := o, txLog := s.txLog ++ f.take (ins.filter (fun q => q.txReady)).length } ∧
          e.state ≠ .idle ∧ o.done = false) ∧
      ((ins.filter (fun q => q.txReady)).length = c.payIn.length + 3 →
        (∃ q, ins.getLast? = some q ∧ q.txReady = true) →
        ∃ o, runStims (.enc c :: ins.map Stim.enc) s = .next { s with encOut := o, txLog := s.txLog ++ f } ∧
          o.done = true)

/-- Round trip (42_decoder R126): from the canonical idle state, the bytes of `Encode(t, p)` produce exactly one event,
`Deliver(t, p)`, in the last step, and leave the canonical idle state; so also with any number of idle steps before the
length byte and fewer than `T` after it and before the last body byte. -/
def Obligations.DecoderRoundTrip : Prop :=
  ∀ (s : State) (t l c : Byte) (p : List Byte) (ps : List DecIn) (before body : List LinkSym) (last : Byte),
    s.dec = DecRegs.canonicalIdle → encodeFrame t p = .frame (l :: t :: p ++ [c]) →
    (∀ q ∈ ps, q.rst = false) →
    ps.map DecIn.sym = before ++ [.readyByte l] ++ (body ++ [.readyByte last]) ++ [.readyByte c] →
    (∀ y ∈ before, symIdle y = true) → (body ++ [LinkSym.readyByte last]).flatMap symBytes = t :: p →
    (body.filter symIdle).length < s.cfg.frameTimeoutTicks →
    runStims (ps.map Stim.dec) s = .next { s with
      decOut := { rdEn := true, event := some (.deliver t p) }
      rxPos := s.rxPos + (p.length + 3)
      events := s.events ++ [.deliver t p] }

/-- Corruption detection (42_decoder R127): one bit of a byte at wire position `>= 1` flipped gives exactly one event,
`Discard(CHK_MISMATCH)`, in the last step, and DEC is idle having consumed exactly the frame's bytes. -/
def Obligations.FlippedBitIsDiscarded : Prop :=
  ∀ (s : State) (t : Byte) (p f : List Byte) (i k : Nat) (b : Byte),
    s.dec = DecRegs.canonicalIdle → encodeFrame t p = .frame f → 1 ≤ i → f[i]? = some b → k < 8 →
    runStims (rxsStims (f.set i (b ^^^ (1#8 <<< k)))) s = .next { s with
      decOut := { rdEn := true, event := some (.discard .chkMismatch) }
      rxPos := s.rxPos + f.length
      events := s.events ++ [.discard .chkMismatch] }

/-- "Any byte sequence `[L, b1, ..., bL, c]` with `L >= 1` and XOR of all its bytes equal to 0 is a valid frame", delivered,
and any other is discarded (30_encoding R62, 42_decoder R118). Where 40_checksum R85 differs, saying that a `0x00` byte inserted
or removed with the length byte changed to suit goes undetected, "any other is discarded" is the model's choice: it follows R80
(log entry 26). -/
def Obligations.SpanDeliveredIffXorZero : Prop :=
  ∀ (s : State) (l t c : Byte) (p : List Byte), s.dec = DecRegs.canonicalIdle → l.toNat = p.length + 1 →
    ∃ e, runStims (rxsStims (l :: t :: p ++ [c])) s = .next { s with
        decOut := { rdEn := true, event := some e }
        rxPos := s.rxPos + (p.length + 3)
        events := s.events ++ [e] } ∧
      (chk (l :: t :: p ++ [c]) = 0#8 → e = .deliver t p) ∧
      (chk (l :: t :: p ++ [c]) ≠ 0#8 → e = .discard .chkMismatch)

/-- Resynchronisation by silence (42_decoder R128): from every state of the invariant, `T` or more consecutive idle steps
leave DEC in the canonical idle state, having emitted at most one event, a `Discard`. -/
def Obligations.SilenceResynchronises : Prop :=
  ∀ (s : State) (ps : List DecIn), s.cfg.Valid → s.dec.Inv s.cfg → (∀ q ∈ ps, q.rst = false ∧ symIdle q.sym = true) →
    s.cfg.frameTimeoutTicks ≤ ps.length →
    ∃ o evs, runStims (ps.map Stim.dec) s = .next { s with
        dec := DecRegs.canonicalIdle, decOut := o, events := s.events ++ evs } ∧
      (evs = [] ∨ ∃ r, evs = [.discard r])

/-- Discard is idempotent, under conditions (42_decoder R129): a frame, any garbage, a silence of at least `T` idle steps, a
frame: the first delivered first, the second last, between them only discards and the deliveries that the garbage alone
produces, which are none for three bytes other than `[0x01, x, 0x01 ^ x]`. -/
def Obligations.GarbageBetweenFramesIsContained : Prop :=
  ∀ (s : State) (t1 t2 : Byte) (p1 p2 f1 f2 g : List Byte) (silence : List IdleSym),
    s.cfg.Valid → s.dec = DecRegs.canonicalIdle →
    encodeFrame t1 p1 = .frame f1 → encodeFrame t2 p2 = .frame f2 → s.cfg.frameTimeoutTicks ≤ silence.length →
    ∃ u v mid alone,
      runStims (rxsStims f1 ++ rxsStims g ++ silence.map (fun y => symStim y.link) ++ rxsStims f2) s = .next u ∧
      u.dec = DecRegs.canonicalIdle ∧
      u.events = s.events ++ [.deliver t1 p1] ++ mid ++ [.deliver t2 p2] ∧
      runStims (rxsStims g) s = .next v ∧ v.events = s.events ++ alone ∧
      mid.filter DecEvent.isDeliver = alone.filter DecEvent.isDeliver ∧
      (g.length = 3 → (∀ x, g ≠ [0x01#8, x, 0x01#8 ^^^ x]) → mid.filter DecEvent.isDeliver = [])

/-- DEC never blocks on a partial frame (42_decoder R130): once a length byte `L` is latched, DEC is back in AWAIT_LENGTH
after at most `L + T` further steps, in whatever order busy and idle steps come, with the counts of busy and idle steps
the rule gives for each outcome. -/
def Obligations.PartialFrameNeverBlocks : Prop :=
  ∀ (s : State) (l : Byte) (ps : List DecIn), s.cfg.Valid → l ≠ 0x00#8 →
    s.dec = { state := .awaitBody, len := l, cnt := 0#8, acc := l, idle := 0, buf := [] } →
    (∀ q ∈ ps, q.rst = false) → ps.length = l.toNat + s.cfg.frameTimeoutTicks →
    ∃ k u, k ≤ ps.length ∧ runStims ((ps.take k).map Stim.dec) s = .next u ∧ u.dec = DecRegs.canonicalIdle ∧
      match u.decOut.event with
      | some (.deliver _ _) | some (.discard .chkMismatch) =>
        ((ps.take k).filter (fun q => !symIdle q.sym)).length = l.toNat + 1 ∧
        ((ps.take k).filter (fun q => symIdle q.sym)).length ≤ s.cfg.frameTimeoutTicks - 1
      | some (.discard .chkMissing) =>
        ((ps.take k).filter (fun q => !symIdle q.sym)).length = l.toNat ∧
        ((ps.take k).filter (fun q => symIdle q.sym)).length ≤ s.cfg.frameTimeoutTicks
      | some (.discard .bodyTimeout) =>
        ((ps.take k).filter (fun q => !symIdle q.sym)).length ≤ l.toNat - 1 ∧
        ((ps.take k).filter (fun q => symIdle q.sym)).length = s.cfg.frameTimeoutTicks
      | _ => False

/-! ### The machine as a whole -/

/-- The invariants of 10_state R18 and R27 are true after reset and kept by every step. -/
def Obligations.StepKeepsInvariant : Prop :=
  (∀ s : State, s.cfg.Valid → ∃ t, exec (.reset .both) s = .next t ∧ t.Inv) ∧
  ∀ s t : State, s.Inv → step s = .next t → t.Inv

/-- The invariants hold right after reset, with the default parameter `T = 20`, a field of the reset state in the model
(log entry 4). -/
def Obligations.ResetMeetsInvariant : Prop := State.reset.Inv

/-- From every state of the invariant the machine runs for ever: no step faults, none is refused (42_decoder R110; 93: "no
case in the block is `stuck` in the safety sense"). -/
def Obligations.RunsFromInvariantAreSafe : Prop := ∀ s : State, s.Inv → ∀ k, SafeRun k s

/-- In any state whatever, `step` refuses nothing: a row is always selected, and its condition then holds (30_encoding R70
to R72). -/
def Obligations.StepNeverRefuses : Prop := ∀ (s : State) (r : Refusal), step s ≠ .refused r

/-- A step takes the next input and runs the instruction it selects; every input selects one; with no input nothing happens
(30_encoding section 5; log entry 3). -/
def Obligations.StepRunsTheSelectedInstruction : Prop :=
  (∀ (s : State) (st : Stim) (rest : List Stim) (i : Instr), s.pending = st :: rest →
    fetchInstr st { s with pending := rest } = some i → step s = exec i { s with pending := rest }) ∧
  (∀ (s : State) (st : Stim), ∃ i, fetchInstr st s = some i) ∧
  (∀ s : State, s.pending = [] → step s = .next s)

/-- RESET (70_reset_and_hazards R176): every register takes its reset value, all outputs are 0, no byte is consumed or
offered and no event produced; `rst = 1` takes precedence over every row, whatever the other inputs; consecutive resets
are the same as one. -/
def Obligations.ResetStep : Prop :=
  ∀ s : State,
    exec (.reset .both) s = .next { s with
      dec := { state := .awaitLength, len := 0#8, cnt := 0#8, acc := 0#8, idle := 0, buf := [] }
      enc := { state := .idle, type := 0#8, len := 0#8, idx := 0#8, acc := 0#8, pay := [] }
      decOut := { rdEn := false, event := none }
      encOut := { ready := false, reject := none, txValid := false, txData := none, done := false } } ∧
    exec (.reset .dec) s = .next { s with
      dec := { state := .awaitLength, len := 0#8, cnt := 0#8, acc := 0#8, idle := 0, buf := [] }
      decOut := { rdEn := false, event := none } } ∧
    exec (.reset .enc) s = .next { s with
      enc := { state := .idle, type := 0#8, len := 0#8, idx := 0#8, acc := 0#8, pay := [] }
      encOut := { ready := false, reject := none, txValid := false, txData := none, done := false } } ∧
    (∀ p : DecIn, p.rst = true → fetchInstr (.dec p) s = some (.reset .dec)) ∧
    (∀ p : EncIn, p.rst = true → fetchInstr (.enc p) s = some (.reset .enc)) ∧
    fetchInstr .reset s = some (.reset .both) ∧
    andThen (exec (.reset .both) s) (exec (.reset .both)) = exec (.reset .both) s

/-- ENC and DEC have disjoint state; any interleaving gives each the same behaviour (60_exceptions R166): an ENC step and a
DEC step, each of them a reset step or not, may be taken in either order. -/
def Obligations.UnitStepsCommute : Prop :=
  ∀ (s : State) (p : DecIn) (q : EncIn), s.Inv →
    (∃ t, runStims [.dec p, .enc q] s = .next t) ∧
    runStims [.dec p, .enc q] s = runStims [.enc q, .dec p] s

/-- Each unit behaves "as if the other did not exist" (60_exceptions R166): a step of one does not read what belongs to the
other, and leaves it alone. -/
def Obligations.UnitsDoNotInterfere : Prop :=
  (∀ (s t : State) (p : DecIn) (e : EncRegs) (o : EncOut) (l : List Byte), stepOn (.dec p) s = .next t →
    t.enc = s.enc ∧ t.encOut = s.encOut ∧ t.txLog = s.txLog ∧
    stepOn (.dec p) { s with enc := e, encOut := o, txLog := l }
      = .next { t with enc := e, encOut := o, txLog := l }) ∧
  (∀ (s t : State) (p : EncIn) (d : DecRegs) (o : DecOut) (n : Nat) (evs : List DecEvent), stepOn (.enc p) s = .next t →
    t.dec = s.dec ∧ t.decOut = s.decOut ∧ t.rxPos = s.rxPos ∧ t.events = s.events ∧
    stepOn (.enc p) { s with dec := d, decOut := o, rxPos := n, events := evs }
      = .next { t with dec := d, decOut := o, rxPos := n, events := evs })

/-- The frame of the DEC rows (LEN, LINKSYM, DECSEL): ENC's registers and outputs, the tx stream, the inputs, the parameter
and the function value are unchanged; an idle or a waiting row leaves every cell of `dec_buf` as it was, a store row every
cell but `dec_cnt`, which then holds the byte. -/
def Obligations.DecRowsFrame : Prop :=
  (∀ (i : Instr) (s t : State), isDecRow i = true → exec i s = .next t →
    t.enc = s.enc ∧ t.encOut = s.encOut ∧ t.txLog = s.txLog ∧ t.pending = s.pending ∧ t.cfg = s.cfg ∧
    t.funcOut = s.funcOut ∧
    (keepsBody i = true → ∀ k, t.dec.buf.read k = s.dec.buf.read k)) ∧
  (∀ (b : Byte) (s t : State), exec (.decAbStore b) s = .next t ∨ exec (.decAbStoreLast b) s = .next t →
    t.dec.buf.read s.dec.cnt.toNat = some b ∧ t.dec.len = s.dec.len ∧ t.dec.idle = s.dec.idle ∧
    ∀ k, k ≠ s.dec.cnt.toNat → t.dec.buf.read k = s.dec.buf.read k)

/-- The frame of the ENC rows: DEC's registers and outputs, its stream position and events, the inputs, the parameter and the
function value are unchanged; all rows but the accepting and the finishing one leave every cell of `enc_pay`, `enc_type` and
`enc_len` as they were; the accepting one latches the payload, the finishing one leaves no cell with a value. -/
def Obligations.EncRowsFrame : Prop :=
  ∀ (i : Instr) (s t : State), isEncRow i = true → exec i s = .next t →
    t.dec = s.dec ∧ t.decOut = s.decOut ∧ t.rxPos = s.rxPos ∧ t.events = s.events ∧ t.pending = s.pending ∧
    t.cfg = s.cfg ∧ t.funcOut = s.funcOut ∧
    (keepsPayload i = true → t.enc.type = s.enc.type ∧ t.enc.len = s.enc.len ∧
      ∀ k, t.enc.pay.read k = s.enc.pay.read k) ∧
    (∀ ty p, i = .encIdleAccept ty p → ∀ k, t.enc.pay.read k = p[k]?) ∧
    (i = .encChkEmit → ∀ k, t.enc.pay.read k = none)

/-- The parameter is "never changed while the block runs" (10_state R29): by no instruction and no step. -/
def Obligations.ParameterIsConstant : Prop :=
  (∀ (i : Instr) (s t : State), exec i s = .next t → t.cfg = s.cfg) ∧
  (∀ s t : State, step s = .next t → t.cfg = s.cfg)

/-- Both buffers keep their canonical form under every instruction (log entry 1). -/
def Obligations.BuffersStayCanonical : Prop :=
  ∀ (i : Instr) (s t : State), s.dec.buf.wf = true → s.enc.pay.wf = true → exec i s = .next t →
    t.dec.buf.wf = true ∧ t.enc.pay.wf = true
end

