-- ==== Sys2Proof/Laws/Float.lean ====
section
/-! SUPPORT. The laws of the binary32 rounding of 30_encoding R74: what `f32Nearest` forms is nearest to its number. -/

namespace Sys2Proof

/-- The magnitude of a pattern by its exponent and fraction bits. -/
theorem f32Units_split (e m : Nat) (hm : m < 2 ^ 23) :
    f32Units (e * 2 ^ 23 + m) = if e = 0 then m else (2 ^ 23 + m) * 2 ^ (e - 1) := by
  unfold f32Units
  have hd : (e * 2 ^ 23 + m) / 2 ^ 23 = e := by omega
  have hr : (e * 2 ^ 23 + m) % 2 ^ 23 = m := by omega
  rw [hd, hr]
  by_cases h : e = 0
  · subst h; rw [if_pos (by omega), if_pos rfl]; omega
  · rw [if_neg (by omega), if_neg h]

/-- A greater pattern stands for a greater magnitude. -/
theorem f32Units_lt_succ (w : Nat) : f32Units w < f32Units (w + 1) := by
  obtain ⟨e, m, hm, rfl⟩ : ∃ e m, m < 2 ^ 23 ∧ w = e * 2 ^ 23 + m := ⟨w / 2 ^ 23, w % 2 ^ 23, by omega, by omega⟩
  rw [f32Units_split e m hm]
  by_cases h : m + 1 < 2 ^ 23
  · rw [Nat.add_assoc, f32Units_split e (m + 1) h]
    split
    · omega
    · exact Nat.mul_lt_mul_of_pos_right (by omega) (by positivity)
  · have hs := f32Units_split (e + 1) 0 (by omega)
    rw [if_neg (by omega), Nat.add_sub_cancel, Nat.add_zero] at hs
    rw [show e * 2 ^ 23 + m + 1 = (e + 1) * 2 ^ 23 by omega, hs]
    split
    · next he => subst he; omega
    · next he =>
      obtain ⟨k, rfl⟩ := Nat.exists_eq_succ_of_ne_zero he
      have hp : 0 < 2 ^ k := by positivity
      rw [Nat.succ_eq_add_one, Nat.add_sub_cancel, show 2 ^ (k + 1) = 2 ^ k * 2 from Nat.pow_succ _ _]
      nlinarith

/-- Patterns are ordered as their magnitudes are. -/
theorem f32Units_mono {v w : Nat} (h : v ≤ w) : f32Units v ≤ f32Units w :=
  monotone_nat_of_le_succ (fun n => (f32Units_lt_succ n).le) h

/-- `f32Below` gives the greatest pattern whose magnitude is at most `q` units. -/
theorem f32Below_units (q : Nat) : f32Units (f32Below q) ≤ q ∧ q < f32Units (f32Below q + 1) := by
  unfold f32Below
  by_cases hq : q < 2 ^ 24
  · have hk : Nat.log2 q - 23 = 0 := by
      rcases Nat.eq_zero_or_pos q with rfl | hp
      · decide
      · have := (Nat.log2_lt (by omega)).2 hq; omega
    have key : ∀ v, v ≤ 2 ^ 24 → f32Units v = v := by
      intro v hv
      by_cases h1 : v < 2 ^ 23
      · unfold f32Units; rw [if_pos h1]
      · by_cases h2 : v < 2 ^ 24
        · have := f32Units_split 1 (v - 2 ^ 23) (by omega)
          rw [show 1 * 2 ^ 23 + (v - 2 ^ 23) = v by omega] at this
          rw [this, if_neg (by omega)]; omega
        · have := f32Units_split 2 0 (by omega)
          rw [if_neg (by omega), show 2 * 2 ^ 23 + 0 = v by omega] at this
          omega
    rw [hk]
    simp only [Nat.zero_mul, Nat.zero_add, Nat.pow_zero, Nat.div_one]
    rw [key q (by omega), key (q + 1) (by omega)]
    omega
  · have hlo : 2 ^ q.log2 ≤ q := Nat.log2_self_le (by omega)
    have hhi : q < 2 ^ (q.log2 + 1) := Nat.lt_log2_self
    have h24 : 24 ≤ q.log2 := (Nat.le_log2 (by omega)).2 (by omega)
    obtain ⟨k, hk⟩ : ∃ k, q.log2 = k + 23 := ⟨q.log2 - 23, by omega⟩
    rw [hk] at hlo hhi ⊢
    rw [Nat.add_sub_cancel]
    have hp : 0 < 2 ^ k := by positivity
    have e1 : 2 ^ (k + 23) = 2 ^ 23 * 2 ^ k := by rw [Nat.pow_add, Nat.mul_comm]
    have e2 : 2 ^ (k + 23 + 1) = 2 ^ 24 * 2 ^ k := by rw [Nat.add_assoc, Nat.pow_add, Nat.mul_comm]
    rw [e1] at hlo
    rw [e2] at hhi
    have d1 : 2 ^ 23 ≤ q / 2 ^ k := (Nat.le_div_iff_mul_le hp).2 hlo
    have d2 : q / 2 ^ k < 2 ^ 24 := (Nat.div_lt_iff_lt_mul hp).2 hhi
    have dm := Nat.div_add_mod q (2 ^ k)
    have dl := Nat.mod_lt q hp
    obtain ⟨m, hm⟩ : ∃ m, q / 2 ^ k = 2 ^ 23 + m := ⟨q / 2 ^ k - 2 ^ 23, by omega⟩
    rw [hm] at d2 dm ⊢
    have u1 : f32Units (k * 2 ^ 23 + (2 ^ 23 + m)) = (2 ^ 23 + m) * 2 ^ k := by
      rw [show k * 2 ^ 23 + (2 ^ 23 + m) = (k + 1) * 2 ^ 23 + m by omega, f32Units_split (k + 1) m (by omega),
        if_neg (by omega), Nat.add_sub_cancel]
    have u2 : f32Units (k * 2 ^ 23 + (2 ^ 23 + m) + 1) = (2 ^ 23 + m + 1) * 2 ^ k := by
      by_cases h : m + 1 < 2 ^ 23
      · rw [show k * 2 ^ 23 + (2 ^ 23 + m) + 1 = (k + 1) * 2 ^ 23 + (m + 1) by omega,
          f32Units_split (k + 1) (m + 1) h, if_neg (by omega), Nat.add_sub_cancel, Nat.add_assoc]
      · have hs := f32Units_split (k + 2) 0 (by omega)
        rw [if_neg (by omega), show k + 2 - 1 = k + 1 by omega, show 2 ^ (k + 1) = 2 ^ k * 2 from Nat.pow_succ _ _] at hs
        rw [show k * 2 ^ 23 + (2 ^ 23 + m) + 1 = (k + 2) * 2 ^ 23 + 0 by omega, hs,
          show 2 ^ 23 + m + 1 = 2 ^ 24 by omega]
        omega
    rw [u1, u2, ← dm, Nat.mul_comm (2 ^ k), Nat.add_mul _ 1, Nat.one_mul]
    exact ⟨Nat.le_add_right _ _, by omega⟩

/-- What the rounding can answer: the neighbour below if the midpoint is not below the number, or the one above if the
midpoint is not above it. At the midpoint both are possible. -/
theorem f32Magnitude_cases (x : Rat) : ∃ w,
    f32Units w * x.den ≤ x.num.natAbs * 2 ^ 149 ∧ x.num.natAbs * 2 ^ 149 < f32Units (w + 1) * x.den ∧
    ((f32Magnitude x = w ∧ 2 * (x.num.natAbs * 2 ^ 149) ≤ f32Units w * x.den + f32Units (w + 1) * x.den) ∨
      (f32Magnitude x = w + 1 ∧ f32Units w * x.den + f32Units (w + 1) * x.den ≤ 2 * (x.num.natAbs * 2 ^ 149))) := by
  unfold f32Magnitude
  generalize x.num.natAbs * 2 ^ 149 = n
  have hd : 0 < x.den := x.den_pos
  obtain ⟨b1, b2⟩ := f32Below_units (n / x.den)
  refine ⟨f32Below (n / x.den), (Nat.le_div_iff_mul_le hd).1 b1, (Nat.div_lt_iff_lt_mul hd).1 b2, ?_⟩
  rw [← Nat.add_mul]
  by_cases h1 : 2 * n < (f32Units (f32Below (n / x.den)) + f32Units (f32Below (n / x.den) + 1)) * x.den
  · exact .inl ⟨if_pos h1, h1.le⟩
  · by_cases h2 : (f32Units (f32Below (n / x.den)) + f32Units (f32Below (n / x.den) + 1)) * x.den < 2 * n
    · exact .inr ⟨(if_neg h1).trans (if_pos h2), h2.le⟩
    · by_cases h3 : Config.f32TieUp x = true
      · exact .inr ⟨(if_neg h1).trans ((if_neg h2).trans (if_pos h3)), by omega⟩
      · exact .inl ⟨(if_neg h1).trans ((if_neg h2).trans (if_neg h3)), by omega⟩

/-- "The IEEE-754 binary32 value nearest `x`" (30_encoding R74): no pattern's magnitude is closer to that of `x`. Distances are
in units of `2^-149` times the denominator of `x`. -/
theorem f32Magnitude_nearest (x : Rat) (v : Nat) :
    (((f32Units (f32Magnitude x) * x.den : Nat) : Int) - (x.num.natAbs * 2 ^ 149 : Nat)).natAbs
      ≤ (((f32Units v * x.den : Nat) : Int) - (x.num.natAbs * 2 ^ 149 : Nat)).natAbs := by
  obtain ⟨w, c1, c2, h⟩ := f32Magnitude_cases x
  have hv : f32Units v * x.den ≤ f32Units w * x.den ∨ f32Units (w + 1) * x.den ≤ f32Units v * x.den := by
    by_cases h : v ≤ w
    · exact .inl (Nat.mul_le_mul_right _ (f32Units_mono h))
    · exact .inr (Nat.mul_le_mul_right _ (f32Units_mono (by omega)))
  generalize x.num.natAbs * 2 ^ 149 = n at *
  generalize f32Units v * x.den = u at *
  rcases h with ⟨h, k⟩ | ⟨h, k⟩ <;> rw [h] <;> generalize f32Units w * x.den = a at * <;>
    generalize f32Units (w + 1) * x.den = b at * <;> omega

end Sys2Proof
end

