-- ==== Sys2Proof/Laws/Memory.lean ====
section
/-! SUPPORT. The laws of the buffers: the canonical form is kept, a read after a write, byte sequences as buffers. -/

namespace Sys2Proof.Machine

@[simp] theorem Memory.read_nil (i : Nat) : Memory.read [] i = none := rfl

@[simp] theorem Memory.bytes_nil : Memory.bytes [] = [] := rfl

@[simp] theorem Memory.ofBytes_nil : Memory.ofBytes [] = [] := rfl

/-- A read after a write to the same cell gives the byte written. -/
@[simp] theorem Memory.read_write_same (m : Memory) (i : Nat) (v : Byte) : (m.write i v).read i = some v := by
  induction m with
  | nil => simp [Memory.write, Memory.read]
  | cons c rest ih =>
    obtain ⟨k, w⟩ := c
    simp only [Memory.write]
    split
    · simp [Memory.read]
    · split
      · simp [Memory.read]
      · have hk : k ≠ i := by omega
        simpa [Memory.read, hk] using ih

/-- A write leaves every other cell alone. -/
theorem Memory.read_write_other (m : Memory) (i j : Nat) (v : Byte) (h : j ≠ i) :
    (m.write i v).read j = m.read j := by
  induction m with
  | nil => simp [Memory.write, Memory.read, Ne.symm h]
  | cons c rest ih =>
    obtain ⟨k, w⟩ := c
    simp only [Memory.write]
    split
    · simp [Memory.read, Ne.symm h]
    · split
      · next hik => subst hik; simp [Memory.read, Ne.symm h]
      · simp only [Memory.read, ih]

theorem Memory.risingFrom_mono {k k' : Nat} (hk : k' ≤ k) (m : Memory) (h : m.risingFrom k = true) :
    m.risingFrom k' = true := by
  cases m with
  | nil => rfl
  | cons c rest =>
    simp only [Memory.risingFrom, Bool.and_eq_true, decide_eq_true_eq] at h ⊢
    exact ⟨by omega, h.2⟩

theorem Memory.risingFrom_write (m : Memory) (k i : Nat) (v : Byte) (hi : k ≤ i) (h : m.risingFrom k = true) :
    (m.write i v).risingFrom k = true := by
  induction m generalizing k with
  | nil => simp [Memory.write, Memory.risingFrom, hi]
  | cons c rest ih =>
    obtain ⟨j, w⟩ := c
    simp only [Memory.risingFrom, Bool.and_eq_true, decide_eq_true_eq] at h
    simp only [Memory.write]
    split
    · next hij =>
      simp only [Memory.risingFrom, Bool.and_eq_true, decide_eq_true_eq]
      exact ⟨hi, by omega, h.2⟩
    · split
      · next hij =>
        subst hij
        simp only [Memory.risingFrom, Bool.and_eq_true, decide_eq_true_eq]
        exact ⟨hi, h.2⟩
      · simp only [Memory.risingFrom, Bool.and_eq_true, decide_eq_true_eq]
        exact ⟨h.1, ih (j + 1) (by omega) h.2⟩

/-- A write keeps the canonical form. -/
theorem Memory.wf_write (m : Memory) (i : Nat) (v : Byte) (h : m.wf = true) : (m.write i v).wf = true :=
  Memory.risingFrom_write m 0 i v (Nat.zero_le i) h

theorem Memory.risingFrom_ofBytesFrom (k : Nat) (bs : List Byte) : (Memory.ofBytesFrom k bs).risingFrom k = true := by
  induction bs generalizing k with
  | nil => rfl
  | cons b rest ih => simp [Memory.ofBytesFrom, Memory.risingFrom, ih]

/-- A byte sequence is in canonical form. -/
theorem Memory.wf_ofBytes (bs : List Byte) : (Memory.ofBytes bs).wf = true := Memory.risingFrom_ofBytesFrom 0 bs

theorem Memory.bytes_ofBytesFrom (k : Nat) (bs : List Byte) : (Memory.ofBytesFrom k bs).bytes = bs := by
  induction bs generalizing k with
  | nil => rfl
  | cons b rest ih => simpa [Memory.ofBytesFrom, Memory.bytes] using ih (k + 1)

@[simp] theorem Memory.bytes_ofBytes (bs : List Byte) : (Memory.ofBytes bs).bytes = bs := Memory.bytes_ofBytesFrom 0 bs

theorem Memory.read_ofBytesFrom (k i : Nat) (bs : List Byte) :
    (Memory.ofBytesFrom k bs).read i = if k ≤ i then bs[i - k]? else none := by
  induction bs generalizing k with
  | nil => simp [Memory.ofBytesFrom]
  | cons b rest ih =>
    simp only [Memory.ofBytesFrom, Memory.read, ih]
    by_cases hk : k = i
    · subst hk; simp
    · simp only [hk, if_false]
      by_cases hle : k ≤ i
      · have h1 : k + 1 ≤ i := by omega
        have h2 : i - k = (i - (k + 1)) + 1 := by omega
        rw [if_pos h1, if_pos hle, h2, List.getElem?_cons_succ]
      · rw [if_neg (by omega), if_neg hle]

/-- Cell `i` of a byte sequence holds its byte `i`; no other cell holds a value. -/
@[simp] theorem Memory.read_ofBytes (i : Nat) (bs : List Byte) : (Memory.ofBytes bs).read i = bs[i]? := by
  simpa [Memory.ofBytes] using Memory.read_ofBytesFrom 0 i bs

theorem Memory.write_ofBytesFrom_end (k : Nat) (bs : List Byte) (v : Byte) :
    (Memory.ofBytesFrom k bs).write (k + bs.length) v = Memory.ofBytesFrom k (bs ++ [v]) := by
  induction bs generalizing k with
  | nil => rfl
  | cons b rest ih =>
    have h := ih (k + 1)
    have e : k + 1 + rest.length = k + (rest.length + 1) := by omega
    simp only [Memory.ofBytesFrom, List.cons_append, List.length_cons, Memory.write]
    rw [if_neg (by omega), if_neg (by omega), ← e, h]

/-- The next body byte written at the index of the bytes stored so far appends it (10_state R13, R17). -/
theorem Memory.write_ofBytes_end (bs : List Byte) (v : Byte) :
    (Memory.ofBytes bs).write bs.length v = Memory.ofBytes (bs ++ [v]) := by
  simpa [Memory.ofBytes] using Memory.write_ofBytesFrom_end 0 bs v

/-- `MemRead` of a cell that holds a value. -/
theorem memRead_ok {id : BufferId} {m : Memory} {i : Nat} {v : Byte} (h : m.read i = some v) :
    memRead id m i = .ok v := by
  simp [memRead, h]

/-- Everything `MemRead` can answer. -/
theorem memRead_eq_ok {id : BufferId} {m : Memory} {i : Nat} {v : Byte} :
    memRead id m i = .ok v ↔ m.read i = some v := by
  cases h : m.read i <;> simp [memRead, h]

/-- `MemWrite` inside the buffer. -/
theorem memWrite_ok {id : BufferId} {m : Memory} {i : Nat} {v : Byte} (h : i < id.depth) :
    memWrite id m i v = .ok (m.write i v) := by
  simp [memWrite, h]

/-- Everything `MemWrite` can answer. -/
theorem memWrite_eq_ok {id : BufferId} {m m' : Memory} {i : Nat} {v : Byte} :
    memWrite id m i v = .ok m' ↔ i < id.depth ∧ m' = m.write i v := by
  by_cases h : i < id.depth <;> simp [memWrite, h, eq_comm]

/-- A span of cells that hold the bytes `p`. -/
theorem memReadSpan_ok {id : BufferId} {m : Memory} (p : List Byte) (i : Nat)
    (h : ∀ k, k < p.length → m.read (i + k) = p[k]?) : memReadSpan id m i p.length = .ok p := by
  induction p generalizing i with
  | nil => rfl
  | cons b rest ih =>
    have h0 : m.read i = some b := by simpa using h 0 (by simp)
    have hr : memReadSpan id m (i + 1) rest.length = .ok rest := by
      refine ih (i + 1) (fun k hk => ?_)
      have := h (k + 1) (by simpa using hk)
      rw [show i + 1 + k = i + (k + 1) by omega]
      simpa using this
    simp [memReadSpan, memRead_ok h0, hr]

end Sys2Proof.Machine
end

