-- ==== Sys2Proof/Laws/State.lean ====
section
/-! SUPPORT. One lemma per field per update of State, so that no proof unfolds a record update. -/

namespace Sys2Proof.Machine

/-! ### `decCommit` -/

@[simp] theorem decCommit_dec (y : LinkSym) (ev : Option DecEvent) (d : DecRegs) (s : State) : (decCommit y ev d s).dec = d := rfl

@[simp] theorem decCommit_enc (y : LinkSym) (ev : Option DecEvent) (d : DecRegs) (s : State) : (decCommit y ev d s).enc = s.enc := rfl

@[simp] theorem decCommit_decOut (y : LinkSym) (ev : Option DecEvent) (d : DecRegs) (s : State) : (decCommit y ev d s).decOut = { rdEn := symPoll y, event := ev } := rfl

@[simp] theorem decCommit_encOut (y : LinkSym) (ev : Option DecEvent) (d : DecRegs) (s : State) : (decCommit y ev d s).encOut = s.encOut := rfl

@[simp] theorem decCommit_pending (y : LinkSym) (ev : Option DecEvent) (d : DecRegs) (s : State) : (decCommit y ev d s).pending = s.pending := rfl

@[simp] theorem decCommit_rxPos (y : LinkSym) (ev : Option DecEvent) (d : DecRegs) (s : State) : (decCommit y ev d s).rxPos = s.rxPos + (symBytes y).length := rfl

@[simp] theorem decCommit_txLog (y : LinkSym) (ev : Option DecEvent) (d : DecRegs) (s : State) : (decCommit y ev d s).txLog = s.txLog := rfl

@[simp] theorem decCommit_events (y : LinkSym) (ev : Option DecEvent) (d : DecRegs) (s : State) : (decCommit y ev d s).events = s.events ++ ev.toList := rfl

@[simp] theorem decCommit_funcOut (y : LinkSym) (ev : Option DecEvent) (d : DecRegs) (s : State) : (decCommit y ev d s).funcOut = s.funcOut := rfl

@[simp] theorem decCommit_cfg (y : LinkSym) (ev : Option DecEvent) (d : DecRegs) (s : State) : (decCommit y ev d s).cfg = s.cfg := rfl

/-! ### `encCommit` -/

@[simp] theorem encCommit_dec (o : EncOut) (sent : List Byte) (e : EncRegs) (s : State) : (encCommit o sent e s).dec = s.dec := rfl

@[simp] theorem encCommit_enc (o : EncOut) (sent : List Byte) (e : EncRegs) (s : State) : (encCommit o sent e s).enc = e := rfl

@[simp] theorem encCommit_decOut (o : EncOut) (sent : List Byte) (e : EncRegs) (s : State) : (encCommit o sent e s).decOut = s.decOut := rfl

@[simp] theorem encCommit_encOut (o : EncOut) (sent : List Byte) (e : EncRegs) (s : State) : (encCommit o sent e s).encOut = o := rfl

@[simp] theorem encCommit_pending (o : EncOut) (sent : List Byte) (e : EncRegs) (s : State) : (encCommit o sent e s).pending = s.pending := rfl

@[simp] theorem encCommit_rxPos (o : EncOut) (sent : List Byte) (e : EncRegs) (s : State) : (encCommit o sent e s).rxPos = s.rxPos := rfl

@[simp] theorem encCommit_txLog (o : EncOut) (sent : List Byte) (e : EncRegs) (s : State) : (encCommit o sent e s).txLog = s.txLog ++ sent := rfl

@[simp] theorem encCommit_events (o : EncOut) (sent : List Byte) (e : EncRegs) (s : State) : (encCommit o sent e s).events = s.events := rfl

@[simp] theorem encCommit_funcOut (o : EncOut) (sent : List Byte) (e : EncRegs) (s : State) : (encCommit o sent e s).funcOut = s.funcOut := rfl

@[simp] theorem encCommit_cfg (o : EncOut) (sent : List Byte) (e : EncRegs) (s : State) : (encCommit o sent e s).cfg = s.cfg := rfl

/-! ### `resetDec` -/

@[simp] theorem resetDec_dec (s : State) : (resetDec s).dec = DecRegs.canonicalIdle := rfl

@[simp] theorem resetDec_enc (s : State) : (resetDec s).enc = s.enc := rfl

@[simp] theorem resetDec_decOut (s : State) : (resetDec s).decOut = DecOut.quiet := rfl

@[simp] theorem resetDec_encOut (s : State) : (resetDec s).encOut = s.encOut := rfl

@[simp] theorem resetDec_pending (s : State) : (resetDec s).pending = s.pending := rfl

@[simp] theorem resetDec_rxPos (s : State) : (resetDec s).rxPos = s.rxPos := rfl

@[simp] theorem resetDec_txLog (s : State) : (resetDec s).txLog = s.txLog := rfl

@[simp] theorem resetDec_events (s : State) : (resetDec s).events = s.events := rfl

@[simp] theorem resetDec_funcOut (s : State) : (resetDec s).funcOut = s.funcOut := rfl

@[simp] theorem resetDec_cfg (s : State) : (resetDec s).cfg = s.cfg := rfl

/-! ### `resetEnc` -/

@[simp] theorem resetEnc_dec (s : State) : (resetEnc s).dec = s.dec := rfl

@[simp] theorem resetEnc_enc (s : State) : (resetEnc s).enc = EncRegs.canonicalIdle := rfl

@[simp] theorem resetEnc_decOut (s : State) : (resetEnc s).decOut = s.decOut := rfl

@[simp] theorem resetEnc_encOut (s : State) : (resetEnc s).encOut = EncOut.quiet := rfl

@[simp] theorem resetEnc_pending (s : State) : (resetEnc s).pending = s.pending := rfl

@[simp] theorem resetEnc_rxPos (s : State) : (resetEnc s).rxPos = s.rxPos := rfl

@[simp] theorem resetEnc_txLog (s : State) : (resetEnc s).txLog = s.txLog := rfl

@[simp] theorem resetEnc_events (s : State) : (resetEnc s).events = s.events := rfl

@[simp] theorem resetEnc_funcOut (s : State) : (resetEnc s).funcOut = s.funcOut := rfl

@[simp] theorem resetEnc_cfg (s : State) : (resetEnc s).cfg = s.cfg := rfl

/-! ### `putFunc` -/

@[simp] theorem putFunc_dec (r : FuncResult) (s : State) : (putFunc r s).dec = s.dec := rfl

@[simp] theorem putFunc_enc (r : FuncResult) (s : State) : (putFunc r s).enc = s.enc := rfl

@[simp] theorem putFunc_decOut (r : FuncResult) (s : State) : (putFunc r s).decOut = s.decOut := rfl

@[simp] theorem putFunc_encOut (r : FuncResult) (s : State) : (putFunc r s).encOut = s.encOut := rfl

@[simp] theorem putFunc_pending (r : FuncResult) (s : State) : (putFunc r s).pending = s.pending := rfl

@[simp] theorem putFunc_rxPos (r : FuncResult) (s : State) : (putFunc r s).rxPos = s.rxPos := rfl

@[simp] theorem putFunc_txLog (r : FuncResult) (s : State) : (putFunc r s).txLog = s.txLog := rfl

@[simp] theorem putFunc_events (r : FuncResult) (s : State) : (putFunc r s).events = s.events := rfl

@[simp] theorem putFunc_funcOut (r : FuncResult) (s : State) : (putFunc r s).funcOut = some r := rfl

@[simp] theorem putFunc_cfg (r : FuncResult) (s : State) : (putFunc r s).cfg = s.cfg := rfl

@[simp] theorem putAcc_decOut (r : AccReg) (v : Byte) (s : State) : (putAcc r v s).decOut = s.decOut := by cases r <;> rfl

@[simp] theorem putAcc_encOut (r : AccReg) (v : Byte) (s : State) : (putAcc r v s).encOut = s.encOut := by cases r <;> rfl

@[simp] theorem putAcc_pending (r : AccReg) (v : Byte) (s : State) : (putAcc r v s).pending = s.pending := by cases r <;> rfl

@[simp] theorem putAcc_rxPos (r : AccReg) (v : Byte) (s : State) : (putAcc r v s).rxPos = s.rxPos := by cases r <;> rfl

@[simp] theorem putAcc_txLog (r : AccReg) (v : Byte) (s : State) : (putAcc r v s).txLog = s.txLog := by cases r <;> rfl

@[simp] theorem putAcc_events (r : AccReg) (v : Byte) (s : State) : (putAcc r v s).events = s.events := by cases r <;> rfl

@[simp] theorem putAcc_funcOut (r : AccReg) (v : Byte) (s : State) : (putAcc r v s).funcOut = s.funcOut := by cases r <;> rfl

@[simp] theorem putAcc_cfg (r : AccReg) (v : Byte) (s : State) : (putAcc r v s).cfg = s.cfg := by cases r <;> rfl

@[simp] theorem putAcc_dec_acc (v : Byte) (s : State) : (putAcc .dec v s).dec.acc = v := rfl

@[simp] theorem putAcc_enc_acc (v : Byte) (s : State) : (putAcc .enc v s).enc.acc = v := rfl

@[simp] theorem putAcc_dec_enc (v : Byte) (s : State) : (putAcc .dec v s).enc = s.enc := rfl

@[simp] theorem putAcc_enc_dec (v : Byte) (s : State) : (putAcc .enc v s).dec = s.dec := rfl

@[simp] theorem getAcc_putAcc (r : AccReg) (v : Byte) (s : State) : getAcc r (putAcc r v s) = v := by cases r <;> rfl

@[simp] theorem putAcc_putAcc (r : AccReg) (v w : Byte) (s : State) : putAcc r v (putAcc r w s) = putAcc r v s := by
  cases r <;> rfl

@[simp] theorem pushPending_pending (st : Stim) (s : State) : (pushPending st s).pending = st :: s.pending := rfl

@[simp] theorem andThen_next (s : State) (f : State → Result) : andThen (.next s) f = f s := rfl

@[simp] theorem andThen_fault (r : Fault) (f : State → Result) : andThen (.fault r) f = .fault r := rfl

@[simp] theorem andThen_refused (r : Refusal) (f : State → Result) : andThen (.refused r) f = .refused r := rfl

@[simp] theorem whenSelected_true (o : Result) : whenSelected true o = o := rfl

@[simp] theorem whenSelected_false (o : Result) : whenSelected false o = .refused .rowNotSelected := rfl

/-- Everything `andThen` can do when it answers a next state. -/
theorem andThen_eq_next {o : Result} {f : State → Result} {t : State} :
    andThen o f = .next t ↔ ∃ u, o = .next u ∧ f u = .next t := by
  cases o <;> simp [andThen]

/-- Everything `whenSelected` can do when it answers a next state. -/
theorem whenSelected_eq_next {c : Bool} {o : Result} {t : State} :
    whenSelected c o = .next t ↔ c = true ∧ o = .next t := by
  cases c <;> simp

end Sys2Proof.Machine
end

