-- ==== Sys2Proof/Laws/Ops.lean ====
section
/-! SUPPORT. What each shared operation can do, said once: the provers cite these instead of unfolding the operations. -/

namespace Sys2Proof.Machine

/-! ### The operations that touch a buffer -/

/-- A store inside the buffer. -/
theorem decStore_ok {b : Byte} {after : DecState} {s : State} (h : s.dec.cnt.toNat < 255) :
    decStore b after s = .next (decCommit (.readyByte b) none
      { s.dec with state := after, cnt := s.dec.cnt + 1#8, acc := absorb s.dec.acc b,
                   buf := s.dec.buf.write s.dec.cnt.toNat b } s) := by
  have h' : s.dec.cnt.toNat < BufferId.decBuf.depth := h
  simp [decStore, memWrite_ok h']

/-- Everything a store can do. -/
theorem decStore_eq_next {b : Byte} {after : DecState} {s t : State} :
    decStore b after s = .next t ↔ s.dec.cnt.toNat < 255 ∧
      t = decCommit (.readyByte b) none
        { s.dec with state := after, cnt := s.dec.cnt + 1#8, acc := absorb s.dec.acc b,
                     buf := s.dec.buf.write s.dec.cnt.toNat b } s := by
  by_cases h : s.dec.cnt.toNat < 255
  · simp [decStore_ok h, h, eq_comm]
  · have h' : ¬ s.dec.cnt.toNat < BufferId.decBuf.depth := h
    simp [decStore, memWrite, h', h]

/-- A delivery whose cells hold a value: the type byte in cell 0, the payload in the cells after it. -/
theorem decDeliver_ok {c t : Byte} {p : List Byte} {s : State} (hl : s.dec.len.toNat = p.length + 1)
    (h : ∀ k, k < p.length + 1 → s.dec.buf.read k = (t :: p)[k]?) :
    decDeliver c s = .next (decCommit (.readyByte c) (some (.deliver t p)) DecRegs.canonicalIdle s) := by
  have h0 : s.dec.buf.read 0 = some t := by simpa using h 0 (by omega)
  have hp : memReadSpan .decBuf s.dec.buf 1 p.length = .ok p := by
    refine memReadSpan_ok p 1 (fun k hk => ?_)
    have := h (k + 1) (by omega)
    rw [show 1 + k = k + 1 by omega]
    simpa using this
  simp [decDeliver, memRead_ok h0, hl, hp]

/-- Everything a delivery can do. -/
theorem decDeliver_eq_next {c : Byte} {s u : State} (h : decDeliver c s = .next u) :
    ∃ t p, u = decCommit (.readyByte c) (some (.deliver t p)) DecRegs.canonicalIdle s := by
  unfold decDeliver at h
  split at h
  · simp at h
  · split at h
    · simp at h
    · next t _ _ p _ => exact ⟨t, p, (Host.Outcome.next.inj h).symm⟩

/-- The payload byte on offer, where its cell holds a value. -/
theorem withPayloadByte_ok {s : State} {f : Byte → State} {b : Byte}
    (h : s.enc.pay.read s.enc.idx.toNat = some b) : withPayloadByte s f = .next (f b) := by
  simp [withPayloadByte, memRead_ok h]

/-- Everything a step on the payload byte can do. -/
theorem withPayloadByte_eq_next {s t : State} {f : Byte → State} :
    withPayloadByte s f = .next t ↔ ∃ b, s.enc.pay.read s.enc.idx.toNat = some b ∧ t = f b := by
  cases h : s.enc.pay.read s.enc.idx.toNat with
  | none => simp [withPayloadByte, memRead, h]
  | some b => simp [withPayloadByte_ok h, eq_comm]

/-! ### The steps of the units -/

/-- Everything a DEC step can change: its registers, its outputs, the stream position and the event history. -/
theorem decStep_eq_next {y : LinkSym} {s t : State} (h : decStep y s = .next t) :
    ∃ ev d, t = decCommit y ev d s := by
  have store : ∀ b after, decStore b after s = .next t → ∃ ev d, t = decCommit (.readyByte b) ev d s :=
    fun b after h => ⟨_, _, (decStore_eq_next.1 h).2⟩
  have deliver : ∀ c, decDeliver c s = .next t → ∃ ev d, t = decCommit (.readyByte c) ev d s :=
    fun c h => by obtain ⟨_, _, h⟩ := decDeliver_eq_next h; exact ⟨_, _, h⟩
  unfold decStep at h
  split at h
  · unfold decStepLength at h
    split at h
    · split at h <;> exact ⟨_, _, (Host.Outcome.next.inj h).symm⟩
    · exact ⟨_, _, (Host.Outcome.next.inj h).symm⟩
  · unfold decStepBody at h
    split at h
    · split at h <;> exact store _ _ h
    · split at h <;> exact ⟨_, _, (Host.Outcome.next.inj h).symm⟩
  · unfold decStepChecksum at h
    split at h
    · split at h
      · exact deliver _ h
      · exact ⟨_, _, (Host.Outcome.next.inj h).symm⟩
    · exact ⟨_, _, (Host.Outcome.next.inj h).symm⟩

/-- Everything an ENC step can change: its registers, its outputs and the tx stream. -/
theorem encStep_eq_next {p : EncIn} {s t : State} (h : encStep p s = .next t) :
    ∃ o sent e, t = encCommit o sent e s := by
  unfold encStep at h
  split at h
  · unfold encStepIdle at h
    split at h
    · split at h <;> exact ⟨_, _, _, (Host.Outcome.next.inj h).symm⟩
    · exact ⟨_, _, _, (Host.Outcome.next.inj h).symm⟩
  · split at h <;> exact ⟨_, _, _, (Host.Outcome.next.inj h).symm⟩
  · split at h <;> exact ⟨_, _, _, (Host.Outcome.next.inj h).symm⟩
  · unfold encStepPayload at h
    split at h
    · split at h <;> (obtain ⟨_, _, h⟩ := withPayloadByte_eq_next.1 h; exact ⟨_, _, _, h⟩)
    · obtain ⟨_, _, h⟩ := withPayloadByte_eq_next.1 h
      exact ⟨_, _, _, h⟩
  · split at h <;> exact ⟨_, _, _, (Host.Outcome.next.inj h).symm⟩

/-- DEC steps on two lists of symbols, one after the other. -/
theorem decSteps_append (l₁ l₂ : List LinkSym) (s : State) :
    decSteps (l₁ ++ l₂) s = andThen (decSteps l₁ s) (decSteps l₂) := by
  induction l₁ generalizing s with
  | nil => rfl
  | cons y rest ih =>
    simp only [List.cons_append, decSteps]
    cases decStep y s <;> simp [ih]

/-- `sendFrame` with its bound as a variable: a proof that keeps `n` a variable does not make the kernel unfold 257 steps. -/
theorem sendFrame_eq (t : Byte) (p : List Byte) (s : State) :
    ∃ n, n = 257 ∧ sendFrame t p s = andThen (encStep (EncIn.command t p true) s)
      (fun u => if u.enc.state = .idle then .next u else encDrain n u) := ⟨257, rfl, rfl⟩

end Sys2Proof.Machine
end

