-- ==== Sys2Proof/Laws/Select.lean ====
section
/-! SUPPORT. Which row a step's selection word hits: one lemma for each kind of step, over the tables of
opcode_table.json. -/

namespace Sys2Proof.Machine

/-- An idle step's `Q` in AWAIT_LENGTH. -/
theorem selectDecRow_length_idle (x : Bool) :
    selectDecRow (DecState.awaitLength.code ++ (BitVec.ofBool false ++ BitVec.ofBool false ++ BitVec.ofBool false
      ++ BitVec.ofBool x ++ BitVec.ofBool false)) = some .alIdle := by revert x; decide

/-- A busy step's `Q` in AWAIT_LENGTH. -/
theorem selectDecRow_length_busy (z l m : Bool) :
    selectDecRow (DecState.awaitLength.code ++ (BitVec.ofBool true ++ BitVec.ofBool z ++ BitVec.ofBool l
      ++ BitVec.ofBool false ++ BitVec.ofBool m)) = some (if z then .alZero else .alLatch) := by revert z l m; decide

/-- An idle step's `Q` in AWAIT_BODY. -/
theorem selectDecRow_body_idle (x : Bool) :
    selectDecRow (DecState.awaitBody.code ++ (BitVec.ofBool false ++ BitVec.ofBool false ++ BitVec.ofBool false
      ++ BitVec.ofBool x ++ BitVec.ofBool false)) = some (if x then .abTimeout else .abWait) := by revert x; decide

/-- A busy step's `Q` in AWAIT_BODY. -/
theorem selectDecRow_body_busy (z l m : Bool) :
    selectDecRow (DecState.awaitBody.code ++ (BitVec.ofBool true ++ BitVec.ofBool z ++ BitVec.ofBool l
      ++ BitVec.ofBool false ++ BitVec.ofBool m)) = some (if l then .abStoreLast else .abStore) := by
  revert z l m; decide

/-- An idle step's `Q` in AWAIT_CHECKSUM. -/
theorem selectDecRow_checksum_idle (x : Bool) :
    selectDecRow (DecState.awaitChecksum.code ++ (BitVec.ofBool false ++ BitVec.ofBool false ++ BitVec.ofBool false
      ++ BitVec.ofBool x ++ BitVec.ofBool false)) = some .acMissing := by revert x; decide

/-- A busy step's `Q` in AWAIT_CHECKSUM. -/
theorem selectDecRow_checksum_busy (z l m : Bool) :
    selectDecRow (DecState.awaitChecksum.code ++ (BitVec.ofBool true ++ BitVec.ofBool z ++ BitVec.ofBool l
      ++ BitVec.ofBool false ++ BitVec.ofBool m)) = some (if m then .acDeliver else .acMismatch) := by
  revert z l m; decide

/-- The row of a step in ENC_IDLE. -/
theorem selectEncRow_idle (start ovr rdy one last : Bool) (h : ovr = true → start = true) :
    selectEncRow (EncState.idle.code ++ BitVec.ofBool start ++ BitVec.ofBool ovr ++ BitVec.ofBool rdy
      ++ BitVec.ofBool one ++ BitVec.ofBool last)
      = some (if start then if ovr then .idleReject else .idleAccept else .idleNop) := by
  revert start ovr rdy one last; decide

/-- The row of a step in ENC_LEN. -/
theorem selectEncRow_len (start ovr rdy one last : Bool) :
    selectEncRow (EncState.len.code ++ BitVec.ofBool start ++ BitVec.ofBool ovr ++ BitVec.ofBool rdy
      ++ BitVec.ofBool one ++ BitVec.ofBool last) = some (if rdy then .lenEmit else .lenStall) := by
  revert start ovr rdy one last; decide

/-- The row of a step in ENC_TYPE. -/
theorem selectEncRow_type (start ovr rdy one last : Bool) :
    selectEncRow (EncState.type.code ++ BitVec.ofBool start ++ BitVec.ofBool ovr ++ BitVec.ofBool rdy
      ++ BitVec.ofBool one ++ BitVec.ofBool last)
      = some (if rdy then if one then .typeEmitEmpty else .typeEmit else .typeStall) := by
  revert start ovr rdy one last; decide

/-- The row of a step in ENC_PAYLOAD. -/
theorem selectEncRow_payload (start ovr rdy one last : Bool) :
    selectEncRow (EncState.payload.code ++ BitVec.ofBool start ++ BitVec.ofBool ovr ++ BitVec.ofBool rdy
      ++ BitVec.ofBool one ++ BitVec.ofBool last)
      = some (if rdy then if last then .payloadEmitLast else .payloadEmit else .payloadStall) := by
  revert start ovr rdy one last; decide

/-- The row of a step in ENC_CHK. -/
theorem selectEncRow_chk (start ovr rdy one last : Bool) :
    selectEncRow (EncState.chk.code ++ BitVec.ofBool start ++ BitVec.ofBool ovr ++ BitVec.ofBool rdy
      ++ BitVec.ofBool one ++ BitVec.ofBool last) = some (if rdy then .chkEmit else .chkStall) := by
  revert start ovr rdy one last; decide

/-- The link symbol on the ports (10_state R30). -/
theorem sym_eq (p : DecIn) :
    p.sym = if p.poll then if p.rdValid then .readyByte p.data else .readyEmpty else .notReady := by
  obtain ⟨r, poll, rv, d⟩ := p
  simp only [DecIn.sym, DecIn.word]
  cases poll <;> cases rv <;> (revert d; decide)

/-- The link symbol on ports that present one. -/
@[simp] theorem sym_ofSym (y : LinkSym) : (DecIn.ofSym y).sym = y := by
  cases y <;> simp [sym_eq, DecIn.ofSym]

end Sys2Proof.Machine
end

