-- ==== Sys2Proof/Laws/Wire.lean ====
section
/-! SUPPORT. The laws of the pure functions. -/

namespace Sys2Proof

@[simp] theorem chk_nil : chk [] = 0#8 := rfl

/-- `Chk(s ++ [b]) = Chk(s) ^ b` (40_checksum R80). -/
theorem chk_concat (s : List Byte) (b : Byte) : chk (s ++ [b]) = absorb (chk s) b := by
  simp [chk, List.foldl_append]

/-- One byte folds to itself (40_checksum R80, corner case). -/
@[simp] theorem chk_singleton (b : Byte) : chk [b] = b := by simp [chk, absorb]

/-- `Encode` of a payload that fits. -/
theorem encodeFrame_of_le {t : Byte} {p : List Byte} (h : p.length ≤ 254) :
    encodeFrame t p
      = .frame ((BitVec.ofNat 8 (1 + p.length) :: t :: p) ++ [chk (BitVec.ofNat 8 (1 + p.length) :: t :: p)]) := by
  have h' : ¬ p.length > payloadMax := by simp only [payloadMax]; omega
  simp [encodeFrame, h']

/-- `Encode` of a payload that does not fit. -/
theorem encodeFrame_of_gt {t : Byte} {p : List Byte} (h : 254 < p.length) : encodeFrame t p = .rejectOversize := by
  simp [encodeFrame, payloadMax, h]

/-- The length byte of a payload that fits: `1 + n` without wrap (41_encoder R103). -/
theorem lengthByte_toNat {n : Nat} (h : n ≤ 254) : (BitVec.ofNat 8 (1 + n)).toNat = 1 + n := by
  rw [BitVec.toNat_ofNat]; exact Nat.mod_eq_of_lt (by omega)

/-- A header word tells its two bytes apart (30_encoding R65). -/
theorem headerWord_inj {l t a b : Byte} : headerWord l t = headerWord a b ↔ l = a ∧ t = b := by
  constructor
  · intro h
    have h' := congrArg BitVec.toNat h
    simp only [headerWord, BitVec.toNat_append] at h'
    rw [← Nat.shiftLeft_add_eq_or_of_lt t.isLt, ← Nat.shiftLeft_add_eq_or_of_lt b.isLt, Nat.shiftLeft_eq,
      Nat.shiftLeft_eq] at h'
    have := t.isLt
    have := b.isLt
    constructor <;> apply BitVec.eq_of_toNat_eq <;> omega
  · rintro ⟨rfl, rfl⟩; rfl

end Sys2Proof
end

