-- ==== Sys2Proof/Laws/Step.lean ====
section
/-! SUPPORT. What one input does, said once: a DEC input is DEC's step on its link symbol, an ENC input is ENC's step. -/

namespace Sys2Proof.Machine

/-- The row that DEC's selection word hits. -/
theorem selectDecRow_decSelWord (c : Config) (d : DecRegs) (y : LinkSym) :
    selectDecRow (decSelWord c d y) = some (match d.state, y with
      | .awaitLength, .readyByte b => if b == 0#8 then .alZero else .alLatch
      | .awaitLength, _ => .alIdle
      | .awaitBody, .readyByte _ => if lastBody d then .abStoreLast else .abStore
      | .awaitBody, _ => if expires c d then .abTimeout else .abWait
      | .awaitChecksum, .readyByte b => if b == d.acc then .acDeliver else .acMismatch
      | .awaitChecksum, _ => .acMissing) := by
  unfold decSelWord
  cases d.state <;> cases y <;>
    simp only [decSelConds, selectDecRow_length_idle, selectDecRow_length_busy, selectDecRow_body_idle,
      selectDecRow_body_busy, selectDecRow_checksum_idle, selectDecRow_checksum_busy]

/-- The row that ENC's selection word hits. -/
theorem selectEncRow_encSelWord (e : EncRegs) (p : EncIn) :
    selectEncRow (encSelWord e p) = some (match e.state with
      | .idle => if p.start then if oversized p then .idleReject else .idleAccept else .idleNop
      | .len => if p.txReady then .lenEmit else .lenStall
      | .type => if p.txReady then if noPayload e then .typeEmitEmpty else .typeEmit else .typeStall
      | .payload => if p.txReady then if lastPayload e then .payloadEmitLast else .payloadEmit else .payloadStall
      | .chk => if p.txReady then .chkEmit else .chkStall) := by
  have h : oversized p = true → p.start = true := by
    intro h; simp only [oversized, Bool.and_eq_true] at h; exact h.1
  unfold encSelWord
  cases e.state <;>
    simp only [selectEncRow_idle _ _ _ _ _ h, selectEncRow_len, selectEncRow_type, selectEncRow_payload,
      selectEncRow_chk]

/-- A DEC input with `rst = 0` is DEC's step on its link symbol (42_decoder R110). -/
theorem stepOn_dec {p : DecIn} (h : p.rst = false) (s : State) : stepOn (.dec p) s = decStep p.sym s := by
  simp only [stepOn, fetchInstr, fetchDec, h, decodeDecSel, selectDecRow_decSelWord, decStep]
  generalize p.sym = y
  cases hs : s.dec.state <;> cases y with
  | readyByte b => ?_
  | _ => ?_
  case awaitLength.readyByte =>
    by_cases hb : b = 0#8
    · simp [hb, decSelInstr, byteInstr, exec, execDecAlZero, hs, decStepLength]
    · have hn : (b != 0#8) = true := by simpa using hb
      simp [hb, hn, decSelInstr, byteInstr, exec, execDecAlLatch, hs, decStepLength]
  case awaitBody.readyByte =>
    cases hl : lastBody s.dec <;>
      simp [hl, decSelInstr, byteInstr, exec, execDecAbStore, execDecAbStoreLast, hs, decStepBody]
  case awaitChecksum.readyByte =>
    by_cases hb : b = s.dec.acc
    · simp [hb, decSelInstr, byteInstr, exec, execDecAcDeliver, hs, decStepChecksum]
    · have hn : (b != s.dec.acc) = true := by simpa using hb
      simp [hb, hn, decSelInstr, byteInstr, exec, execDecAcMismatch, hs, decStepChecksum]
  case awaitBody.notReady | awaitBody.readyEmpty =>
    cases hx : expires s.cfg s.dec <;>
      simp [hx, decSelInstr, idleInstr, exec, execDecAbWait, execDecAbTimeout, hs, decStepBody, IdleSym.link]
  all_goals
    simp [decSelInstr, idleInstr, exec, execDecAlIdle, execDecAcMissing, hs, decStepLength, decStepChecksum,
      IdleSym.link]

/-- An ENC input with `rst = 0` is ENC's step (41_encoder R91 to R100). -/
theorem stepOn_enc {p : EncIn} (h : p.rst = false) (s : State) : stepOn (.enc p) s = encStep p s := by
  simp only [stepOn, fetchInstr, fetchEnc, h, decodeEncSel, selectEncRow_encSelWord, encStep]
  cases hs : s.enc.state with
  | idle =>
    cases hst : p.start with
    | false => simp [encSelInstr, exec, execEncIdleNop, hs, encStepIdle, hst]
    | true =>
      by_cases hl : p.payIn.length ≤ 254
      · have hl' : ¬ 254 < p.payIn.length := by omega
        simp [encSelInstr, exec, execEncIdleAccept, hs, encStepIdle, hst, oversized, payloadMax, hl, hl']
      · have hl' : 254 < p.payIn.length := by omega
        simp [encSelInstr, exec, execEncIdleReject, hs, encStepIdle, hst, oversized, payloadMax, hl, hl']
  | len => cases hr : p.txReady <;> simp [encSelInstr, exec, execEncLenEmit, execEncLenStall, hs]
  | type =>
    cases hr : p.txReady <;> cases hn : noPayload s.enc <;>
      simp [encSelInstr, exec, execEncTypeEmit, execEncTypeEmitEmpty, execEncTypeStall, hs, hn]
  | payload =>
    cases hr : p.txReady <;> cases hn : lastPayload s.enc <;>
      simp [encSelInstr, exec, execEncPayloadEmit, execEncPayloadEmitLast, execEncPayloadStall, hs, hn, encStepPayload]
  | chk => cases hr : p.txReady <;> simp [encSelInstr, exec, execEncChkEmit, execEncChkStall, hs]

/-- A DEC input with `rst = 1` (10_state R34). -/
theorem stepOn_dec_rst {p : DecIn} (h : p.rst = true) (s : State) : stepOn (.dec p) s = .next (resetDec s) := by
  simp [stepOn, fetchInstr, fetchDec, h, exec, execReset]

/-- An ENC input with `rst = 1` (10_state R34). -/
theorem stepOn_enc_rst {p : EncIn} (h : p.rst = true) (s : State) : stepOn (.enc p) s = .next (resetEnc s) := by
  simp [stepOn, fetchInstr, fetchEnc, h, exec, execReset]

/-- The input `RESET` (30_encoding R73). -/
@[simp] theorem stepOn_reset (s : State) : stepOn .reset s = .next (resetEnc (resetDec s)) := rfl

/-- The input that evaluates a pure function. -/
theorem stepOn_func (f : FuncCall) (s : State) : ∃ r, stepOn (.func f) s = .next (putFunc r s) := by
  cases f <;> exact ⟨_, rfl⟩

/-- The WIRE row of a frame whose payload fits (30_encoding R66). -/
theorem selectWire_eq (side : Side) (t : Byte) (p : List Byte) (h : p.length ≤ 254) :
    ∃ i, selectWire side t p = some i ∧ ∀ s, exec i s = runFrame side t p s := by
  have hrow : ∀ l : Byte, selectRow 16 wireTable (headerWord l t) = some
      (if l = 0x01#8 ∧ t = 0xFF#8 then .discovery else if l = 0x05#8 ∧ t = 0x01#8 then .cpu
        else if l = 0x05#8 ∧ t = 0x02#8 then .mem else .reserved) := by
    intro l
    have hh : ∀ a b : Byte, (headerWord l t &&& 0xFFFF#16 == headerWord a b) = decide (l = a ∧ t = b) := by
      intro a b
      have : headerWord l t &&& 0xFFFF#16 = headerWord l t := by
        rw [show 0xFFFF#16 = BitVec.allOnes 16 by decide, BitVec.and_allOnes]
      rw [this]
      simp [beq_eq_decide, headerWord_inj]
    have h1 := hh 0x01#8 0xFF#8
    have h2 := hh 0x05#8 0x01#8
    have h3 := hh 0x05#8 0x02#8
    rw [show headerWord 0x01#8 0xFF#8 = 0x01FF#16 by decide] at h1
    rw [show headerWord 0x05#8 0x01#8 = 0x0501#16 by decide] at h2
    rw [show headerWord 0x05#8 0x02#8 = 0x0502#16 by decide] at h3
    simp only [wireTable, selectRow, rowHit, h1, h2, h3]
    simp
    split_ifs <;> rfl
  have hlen : ∀ k : Nat, k ≤ 254 → (BitVec.ofNat 8 (1 + p.length) = BitVec.ofNat 8 (1 + k) ↔ p.length = k) := by
    intro k hk
    constructor
    · intro he
      have := congrArg BitVec.toNat he
      simp only [BitVec.toNat_ofNat] at this
      omega
    · rintro rfl; rfl
  unfold selectWire
  rw [hrow]
  split_ifs with h1 h2 h3
  · obtain rfl : p = [] := List.length_eq_zero_iff.1 ((hlen 0 (by omega)).1 h1.1)
    exact ⟨_, rfl, fun s => by rw [h1.2]; rfl⟩
  · have h4 : p.length = 4 := (hlen 4 (by omega)).1 h2.1
    match p, h4 with
    | [a, b, c, d], _ => exact ⟨_, rfl, fun s => by rw [h2.2]; rfl⟩
  · have h4 : p.length = 4 := (hlen 4 (by omega)).1 h3.1
    match p, h4 with
    | [a, b, c, d], _ => exact ⟨_, rfl, fun s => by rw [h3.2]; rfl⟩
  · exact ⟨_, rfl, fun s => rfl⟩

/-- The input of a whole frame is the frame's statement on its stream (30_encoding R73, R74). -/
theorem stepOn_frame (side : Side) (t : Byte) (p : List Byte) (s : State) :
    stepOn (.frame side t p) s = runFrame side t p s := by
  simp only [stepOn, fetchInstr, frameInstr]
  by_cases h : p.length ≤ payloadMax
  · obtain ⟨i, hi, he⟩ := selectWire_eq side t p h
    simp [h, hi, he]
  · simp [h, exec, execFrameReserved]

end Sys2Proof.Machine
end

