-- ==== Sys2Proof/Laws/Notation.lean ====
section
/-! SUPPORT. What lists of inputs and statements do (30_encoding R73, R74), in terms of the units' steps. -/

namespace Sys2Proof.Machine

@[simp] theorem clearTxLog_txLog (s : State) : (clearTxLog s).txLog = [] := rfl

@[simp] theorem clearTxLog_dec (s : State) : (clearTxLog s).dec = s.dec := rfl

@[simp] theorem clearTxLog_enc (s : State) : (clearTxLog s).enc = s.enc := rfl

@[simp] theorem clearTxLog_events (s : State) : (clearTxLog s).events = s.events := rfl

@[simp] theorem clearTxLog_pending (s : State) : (clearTxLog s).pending = s.pending := rfl

/-- Two lists of inputs, one after the other. -/
theorem runStims_append (l₁ l₂ : List Stim) (s : State) :
    runStims (l₁ ++ l₂) s = andThen (runStims l₁ s) (runStims l₂) := by
  induction l₁ generalizing s with
  | nil => rfl
  | cons x rest ih =>
    simp only [List.cons_append, runStims]
    cases stepOn x s <;> simp [ih]

/-- DEC inputs with `rst = 0` are DEC's steps on their link symbols. -/
theorem runStims_dec (ps : List DecIn) (h : ∀ q ∈ ps, q.rst = false) (s : State) :
    runStims (ps.map Stim.dec) s = decSteps (ps.map DecIn.sym) s := by
  induction ps generalizing s with
  | nil => rfl
  | cons p ps ih =>
    simp only [List.map_cons, runStims, decSteps, stepOn_dec (h p (by simp))]
    congr 1
    funext t
    exact ih (fun q hq => h q (by simp [hq])) t

/-- `RXS` is one busy step for each byte (R74). -/
theorem runStims_rxs (bs : List Byte) (s : State) : runStims (rxsStims bs) s = receiveBytes bs s := by
  have h := runStims_dec (bs.map (fun b => DecIn.ofSym (.readyByte b))) (by simp [DecIn.ofSym]) s
  simpa [rxsStims, symStim, receiveBytes, Function.comp_def] using h

/-- `LOOPBACK`: "`RXS` of every byte in the tx log, then the tx log is emptied" (R74). -/
theorem runStmt_loopback (s : State) :
    runStmt .loopback s = andThen (receiveBytes s.txLog s) (fun t => .next (clearTxLog t)) := by
  simp only [runStmt, Stmt.stims, runStims_rxs, Stmt.finish]

/-- Every other statement is its steps and nothing more. -/
theorem runStmt_eq_stims (c : Stmt) (s : State) (h : c ≠ .loopback) : runStmt c s = runStims (c.stims s) s := by
  have hid : ∀ o : Result, andThen o (fun t => .next t) = o := by intro o; cases o <;> rfl
  cases c <;> first | exact hid _ | exact absurd rfl h

/-- A program in two parts, one after the other. -/
theorem runProgram_append (l₁ l₂ : List Stmt) (s : State) :
    runProgram (l₁ ++ l₂) s = andThen (runProgram l₁ s) (runProgram l₂) := by
  induction l₁ generalizing s with
  | nil => rfl
  | cons c rest ih =>
    simp only [List.cons_append, runProgram]
    cases runStmt c s <;> simp [ih]

end Sys2Proof.Machine
end

