-- ==== Sys2Proof/Laws/PerInstr.lean ====
section
/-! SUPPORT. The family `RowMatch`: the word in every well-formed instruction's image is a word of its row in
opcode_table.json. The (width, match, mask) triples are written out here from the table, a second time, apart from the tables
the decoder uses. -/

namespace Sys2Proof.Laws.RowMatch

/-- A row of opcode_table.json: the bits of its format's word, its match and its mask. -/
structure Row where
  width : Nat
  pattern : Nat
  mask : Nat
deriving DecidableEq, Repr

/-- The row of each instruction. Format FUNC has no word (30_encoding R72). -/
def row : Instr → Row
  | .frameDiscovery _ => ⟨16, 0x01FF, 0xFFFF⟩
  | .frameCpu _ _ _ _ _ => ⟨16, 0x0501, 0xFFFF⟩
  | .frameMem _ _ _ _ _ => ⟨16, 0x0502, 0xFFFF⟩
  | .frameReserved _ _ _ => ⟨16, 0x0000, 0x0000⟩
  | .lenZero => ⟨8, 0x00, 0xFF⟩
  | .lenValid _ => ⟨8, 0x00, 0x00⟩
  | .linkNotReady _ _ => ⟨10, 0x000, 0x200⟩
  | .linkReadyEmpty _ => ⟨10, 0x200, 0x300⟩
  | .linkReadyByte _ => ⟨10, 0x300, 0x300⟩
  | .decAlIdle _ => ⟨7, 0x00, 0x70⟩
  | .decAlZero => ⟨7, 0x18, 0x78⟩
  | .decAlLatch _ => ⟨7, 0x10, 0x78⟩
  | .decAbStore _ => ⟨7, 0x30, 0x74⟩
  | .decAbStoreLast _ => ⟨7, 0x34, 0x74⟩
  | .decAbWait _ => ⟨7, 0x20, 0x72⟩
  | .decAbTimeout _ => ⟨7, 0x22, 0x72⟩
  | .decAcDeliver _ => ⟨7, 0x51, 0x71⟩
  | .decAcMissing _ => ⟨7, 0x40, 0x70⟩
  | .decAcMismatch _ => ⟨7, 0x50, 0x71⟩
  | .encIdleNop => ⟨8, 0x00, 0xF0⟩
  | .encIdleAccept _ _ => ⟨8, 0x10, 0xF8⟩
  | .encIdleReject _ _ => ⟨8, 0x18, 0xF8⟩
  | .encLenStall => ⟨8, 0x20, 0xE4⟩
  | .encTypeStall => ⟨8, 0x40, 0xE4⟩
  | .encPayloadStall => ⟨8, 0x60, 0xE4⟩
  | .encChkStall => ⟨8, 0x80, 0xE4⟩
  | .encLenEmit => ⟨8, 0x24, 0xE4⟩
  | .encTypeEmit => ⟨8, 0x44, 0xE6⟩
  | .encTypeEmitEmpty => ⟨8, 0x46, 0xE6⟩
  | .encPayloadEmit => ⟨8, 0x64, 0xE5⟩
  | .encPayloadEmitLast => ⟨8, 0x65, 0xE5⟩
  | .encChkEmit => ⟨8, 0x84, 0xE4⟩
  | .reset _ => ⟨1, 0x1, 0x1⟩
  | .chkFold _ => ⟨0, 0x00, 0x00⟩
  | .chkClear _ => ⟨0, 0x00, 0x00⟩
  | .chkAbsorb _ _ => ⟨0, 0x00, 0x00⟩
  | .encode _ _ => ⟨0, 0x00, 0x00⟩
  | .dispatchClass _ _ => ⟨0, 0x00, 0x00⟩

/-- The word of an image, numbered as the table numbers it: `H` and `S` over two bytes, the others in one. -/
def imageWord (i : Instr) : Nat :=
  match formatOf i, encode i with
  | .wire _, l :: t :: _ => l.toNat * 256 + t.toNat
  | .linksym, [lo, hi] => hi.toNat * 256 + lo.toNat
  | .func _, _ => 0
  | _, w :: _ => w.toNat
  | _, [] => 0

/-- Whether a word is one of a row: it fits the width and meets the pattern under the mask (30_encoding R72). -/
def hits (r : Row) (w : Nat) : Bool := decide (w < 2 ^ r.width) && (w &&& r.mask == r.pattern)

/-- The word in a well-formed instruction's image is a word of its row. -/
def Statement (i : Instr) : Prop := i.wf = true → hits (row i) (imageWord i) = true

theorem frameDiscovery (s : Side) : Statement (.frameDiscovery s) := fun _ => (by decide : hits ⟨16, 0x01FF, 0xFFFF⟩ 0x01FF = true)

theorem frameCpu (s : Side) (a : Byte) (b : Byte) (c : Byte) (d : Byte) : Statement (.frameCpu s a b c d) := by
  intro _
  have e : imageWord (.frameCpu s a b c d) = 0x0501 := by simp [imageWord, formatOf, encode, frameImage]
  rw [e]
  exact (by decide : hits ⟨16, 0x0501, 0xFFFF⟩ 0x0501 = true)

theorem frameMem (s : Side) (a : Byte) (b : Byte) (c : Byte) (d : Byte) : Statement (.frameMem s a b c d) := by
  intro _
  have e : imageWord (.frameMem s a b c d) = 0x0502 := by simp [imageWord, formatOf, encode, frameImage]
  rw [e]
  exact (by decide : hits ⟨16, 0x0502, 0xFFFF⟩ 0x0502 = true)

theorem frameReserved (s : Side) (t : Byte) (p : List Byte) : Statement (.frameReserved s t p) := by
  intro _
  have h1 := (BitVec.ofNat 8 (1 + p.length)).isLt
  have h2 := t.isLt
  have e : imageWord (.frameReserved s t p) = (BitVec.ofNat 8 (1 + p.length)).toNat * 256 + t.toNat := rfl
  have e' : row (.frameReserved s t p) = ⟨16, 0, 0⟩ := rfl
  rw [e, e']
  simp only [hits, Nat.and_zero, beq_self_eq_true, Bool.and_true, decide_eq_true_eq]
  omega

theorem lenZero : Statement .lenZero := by
  unfold Statement
  decide

theorem lenValid (b : Byte) : Statement (.lenValid b) := by
  unfold Statement
  revert b
  decide

theorem linkNotReady (v : Bool) (d : Byte) : Statement (.linkNotReady v d) := by
  unfold Statement
  revert v d
  decide

theorem linkReadyEmpty (d : Byte) : Statement (.linkReadyEmpty d) := by
  unfold Statement
  revert d
  decide

theorem linkReadyByte (b : Byte) : Statement (.linkReadyByte b) := by
  unfold Statement
  revert b
  decide

theorem decAlIdle (y : IdleSym) : Statement (.decAlIdle y) := by
  unfold Statement
  cases y <;> decide

theorem decAlZero : Statement .decAlZero := by
  unfold Statement
  decide

theorem decAlLatch (b : Byte) : Statement (.decAlLatch b) := by
  unfold Statement
  revert b
  decide

theorem decAbStore (b : Byte) : Statement (.decAbStore b) := by
  unfold Statement
  revert b
  decide

theorem decAbStoreLast (b : Byte) : Statement (.decAbStoreLast b) := by
  unfold Statement
  revert b
  decide

theorem decAbWait (y : IdleSym) : Statement (.decAbWait y) := by
  unfold Statement
  cases y <;> decide

theorem decAbTimeout (y : IdleSym) : Statement (.decAbTimeout y) := by
  unfold Statement
  cases y <;> decide

theorem decAcDeliver (b : Byte) : Statement (.decAcDeliver b) := by
  unfold Statement
  revert b
  decide

theorem decAcMissing (y : IdleSym) : Statement (.decAcMissing y) := by
  unfold Statement
  cases y <;> decide

theorem decAcMismatch (b : Byte) : Statement (.decAcMismatch b) := by
  unfold Statement
  revert b
  decide

theorem encIdleNop : Statement .encIdleNop := by
  unfold Statement
  decide

theorem encIdleAccept (t : Byte) (p : List Byte) : Statement (.encIdleAccept t p) := fun _ => (by decide : hits ⟨8, 0x10, 0xF8⟩ 0x10 = true)

theorem encIdleReject (t : Byte) (p : List Byte) : Statement (.encIdleReject t p) := fun _ => (by decide : hits ⟨8, 0x18, 0xF8⟩ 0x18 = true)

theorem encLenStall : Statement .encLenStall := by
  unfold Statement
  decide

theorem encTypeStall : Statement .encTypeStall := by
  unfold Statement
  decide

theorem encPayloadStall : Statement .encPayloadStall := by
  unfold Statement
  decide

theorem encChkStall : Statement .encChkStall := by
  unfold Statement
  decide

theorem encLenEmit : Statement .encLenEmit := by
  unfold Statement
  decide

theorem encTypeEmit : Statement .encTypeEmit := by
  unfold Statement
  decide

theorem encTypeEmitEmpty : Statement .encTypeEmitEmpty := by
  unfold Statement
  decide

theorem encPayloadEmit : Statement .encPayloadEmit := by
  unfold Statement
  decide

theorem encPayloadEmitLast : Statement .encPayloadEmitLast := by
  unfold Statement
  decide

theorem encChkEmit : Statement .encChkEmit := by
  unfold Statement
  decide

theorem reset (sc : ResetScope) : Statement (.reset sc) := by
  unfold Statement
  cases sc <;> decide

theorem chkFold (bs : List Byte) : Statement (.chkFold bs) := fun _ => (by decide : hits ⟨0, 0, 0⟩ 0 = true)

theorem chkClear (r : AccReg) : Statement (.chkClear r) := fun _ => (by decide : hits ⟨0, 0, 0⟩ 0 = true)

theorem chkAbsorb (r : AccReg) (b : Byte) : Statement (.chkAbsorb r b) := fun _ => (by decide : hits ⟨0, 0, 0⟩ 0 = true)

theorem encode (t : Byte) (p : List Byte) : Statement (.encode t p) := fun _ => (by decide : hits ⟨0, 0, 0⟩ 0 = true)

theorem dispatchClass (t : Byte) (n : Nat) : Statement (.dispatchClass t n) := fun _ => (by decide : hits ⟨0, 0, 0⟩ 0 = true)

end Sys2Proof.Laws.RowMatch
end

