-- ==== Sys2Proof/Tests/Slice0.lean ====
section
/-! SUPPORT. Small tests. Words and expected values are those of 30_encoding, opcode_table.json and 95_test_vectors (the
vector is named); the last part gives, for each statement with hypotheses, values that meet them. -/

namespace Sys2Proof.Tests

open Sys2Proof Sys2Proof.Machine

/-! ### Helpers -/

/-- The next state, if there is one. -/
def nextOf (o : Result) : Option State :=
  match o with
  | .next t => some t
  | _ => none

/-- The row refused because its condition does not hold. -/
def notSelected (o : Result) : Bool :=
  match o with
  | .refused .rowNotSelected => true
  | _ => false

/-- The instruction a decoding gives. -/
def ok (r : Except DecodeError Instr) : Option Instr :=
  match r with
  | .ok i => some i
  | .error _ => none

/-- The error a decoding gives. -/
def err (r : Except DecodeError Instr) : Option DecodeError :=
  match r with
  | .ok _ => none
  | .error e => some e

/-- A payload of zeros. -/
def zeros (n : Nat) : List Byte := List.replicate n 0#8

@[simp] theorem zeros_length (n : Nat) : (zeros n).length = n := by simp [zeros]

/-- DEC with these registers, all else as after reset. -/
def withDec (d : DecRegs) : State := { State.reset with dec := d }

/-- ENC with these registers, all else as after reset. -/
def withEnc (e : EncRegs) : State := { State.reset with enc := e }

/-- DEC inside a body. -/
def inBody (len cnt acc : Byte) (idle : Nat) (body : List Byte) : State :=
  withDec { state := .awaitBody, len := len, cnt := cnt, acc := acc, idle := idle, buf := Memory.ofBytes body }

/-- DEC waiting for the checksum of the frame `05 01 00 00 2A 42` (V-DEC-2 after step 6). -/
def cpuChecksumDue : State :=
  withDec { state := .awaitChecksum, len := 0x05#8, cnt := 0x05#8, acc := 0x6C#8, idle := 0,
            buf := Memory.ofBytes [0x01#8, 0x00#8, 0x00#8, 0x2A#8, 0x42#8] }

/-- ENC on the frame `02 10 AB B9` (V-ENC-10). -/
def onFrame (st : EncState) (acc : Byte) : State :=
  withEnc { state := st, type := 0x10#8, len := 0x02#8, idx := 0#8, acc := acc, pay := [(0, 0xAB#8)] }

/-- The instruction that the first pending input selects. -/
def firstInstr (s : State) : Option Instr :=
  match s.pending with
  | [] => none
  | st :: rest => fetchInstr st { s with pending := rest }

/-- The row DEC's step would take. -/
def decRow (s : State) (y : LinkSym) : Option Instr := fetchInstr (.dec (DecIn.ofSym y)) s

/-- The row ENC's step would take. -/
def encRow (s : State) (p : EncIn) : Option Instr := fetchInstr (.enc p) s

/-! ### WellFormed: an ill-formed term for each check -/

theorem test_wf_reserved_too_long : (Instr.frameReserved .tx 0x42#8 (zeros 255)).wf = false := by simp [Instr.wf, registered]
theorem test_wf_reserved_longest : (Instr.frameReserved .tx 0x42#8 (zeros 254)).wf = true := by simp [Instr.wf, registered]
theorem test_wf_reserved_is_discovery : (Instr.frameReserved .rx 0xFF#8 []).wf = false := by decide
theorem test_wf_reserved_is_cpu : (Instr.frameReserved .rx 0x01#8 [0#8, 0#8, 0#8, 0#8]).wf = false := by decide
theorem test_wf_reserved_is_mem : (Instr.frameReserved .rx 0x02#8 [0#8, 0#8, 0#8, 0#8]).wf = false := by decide
theorem test_wf_lenValid_zero : (Instr.lenValid 0x00#8).wf = false := by decide
theorem test_wf_decAlLatch_zero : (Instr.decAlLatch 0x00#8).wf = false := by decide
theorem test_wf_accept_too_long : (Instr.encIdleAccept 0x7E#8 (zeros 255)).wf = false := by simp [Instr.wf]
theorem test_wf_reject_too_short : (Instr.encIdleReject 0x7E#8 (zeros 254)).wf = false := by simp [Instr.wf]
theorem test_wf_dispatchClass_too_long : (Instr.dispatchClass 0x01#8 255).wf = false := by decide

/-! ### Decoding words written out from the spec -/

/-- WIRE: V-TYP-1, V-DEC-2, V-TYP-4, V-TYP-5 to V-TYP-7, V-ENC-5. -/
theorem test_decode_wire :
    ok (decode (.wire .tx) [0x01#8, 0xFF#8, 0xFE#8]) = some (.frameDiscovery .tx) ∧
    ok (decode (.wire .rx) [0x05#8, 0x01#8, 0x00#8, 0x00#8, 0x2A#8, 0x42#8, 0x6C#8])
      = some (.frameCpu .rx 0x00#8 0x00#8 0x2A#8 0x42#8) ∧
    ok (decode (.wire .rx) [0x05#8, 0x02#8, 0x00#8, 0x80#8, 0x92#8, 0x42#8, 0x57#8])
      = some (.frameMem .rx 0x00#8 0x80#8 0x92#8 0x42#8) ∧
    ok (decode (.wire .rx) [0x04#8, 0x42#8, 0x01#8, 0x02#8, 0x03#8, 0x46#8])
      = some (.frameReserved .rx 0x42#8 [0x01#8, 0x02#8, 0x03#8]) ∧
    ok (decode (.wire .rx) [0x04#8, 0x01#8, 0x01#8, 0x02#8, 0x03#8, 0x05#8])
      = some (.frameReserved .rx 0x01#8 [0x01#8, 0x02#8, 0x03#8]) ∧
    ok (decode (.wire .rx) [0x02#8, 0xFF#8, 0x41#8, 0xBC#8]) = some (.frameReserved .rx 0xFF#8 [0x41#8]) ∧
    ok (decode (.wire .rx) [0x02#8, 0x00#8, 0x00#8, 0x02#8]) = some (.frameReserved .rx 0x00#8 [0x00#8]) := by decide

/-- WIRE, rejected: V-DEC-9, V-DEC-10, a zero length byte (R68), a frame cut short, a frame with a byte too many. -/
theorem test_decode_wire_rejects :
    err (decode (.wire .rx) [0x01#8, 0xFF#8, 0xFF#8]) = some .badChecksum ∧
    err (decode (.wire .rx) [0x05#8, 0x03#8, 0x00#8, 0x00#8, 0x2A#8, 0x42#8, 0x6C#8]) = some .badChecksum ∧
    err (decode (.wire .rx) [0x00#8, 0xFF#8, 0xFE#8]) = some .zeroLength ∧
    err (decode (.wire .rx) []) = some .truncated ∧
    err (decode (.wire .rx) [0x01#8, 0xFF#8]) = some .truncated ∧
    err (decode (.wire .rx) [0x01#8, 0xFF#8, 0xFE#8, 0x00#8]) = some .trailing := by decide

theorem test_decode_len :
    ok (decode .len [0x00#8]) = some .lenZero ∧ ok (decode .len [0x05#8]) = some (.lenValid 0x05#8) ∧
    ok (decode .len [0xFF#8]) = some (.lenValid 0xFF#8) ∧ err (decode .len []) = some .truncated ∧
    err (decode .len [0x01#8, 0x01#8]) = some .trailing := by decide

/-- LINKSYM: `S` bit 9 `rx_poll`, bit 8 `rx_rd_valid`, bits 7:0 `rx_data` (R30). -/
theorem test_decode_linksym :
    ok (decode .linksym [0x5A#8, 0x01#8]) = some (.linkNotReady true 0x5A#8) ∧
    ok (decode .linksym [0x5A#8, 0x02#8]) = some (.linkReadyEmpty 0x5A#8) ∧
    ok (decode .linksym [0x5A#8, 0x03#8]) = some (.linkReadyByte 0x5A#8) ∧
    err (decode .linksym [0x5A#8, 0x07#8]) = some .reservedBits := by decide

/-- DECSEL: the words `Q` of the traces V-DEC-2, P2, P3, and of V-DEC-1, V-DEC-8, V-DEC-6. -/
theorem test_decode_decsel :
    ok (decode .decsel [0x00#8, 0x00#8, 0x02#8]) = some (.decAlIdle .readyEmpty) ∧
    ok (decode .decsel [0x18#8, 0x00#8, 0x03#8]) = some .decAlZero ∧
    ok (decode .decsel [0x10#8, 0x05#8, 0x03#8]) = some (.decAlLatch 0x05#8) ∧
    ok (decode .decsel [0x30#8, 0x2A#8, 0x03#8]) = some (.decAbStore 0x2A#8) ∧
    ok (decode .decsel [0x38#8, 0x00#8, 0x03#8]) = some (.decAbStore 0x00#8) ∧
    ok (decode .decsel [0x34#8, 0x42#8, 0x03#8]) = some (.decAbStoreLast 0x42#8) ∧
    ok (decode .decsel [0x20#8, 0x00#8, 0x00#8]) = some (.decAbWait .notReady) ∧
    ok (decode .decsel [0x22#8, 0x00#8, 0x00#8]) = some (.decAbTimeout .notReady) ∧
    ok (decode .decsel [0x51#8, 0x6C#8, 0x03#8]) = some (.decAcDeliver 0x6C#8) ∧
    ok (decode .decsel [0x40#8, 0x00#8, 0x00#8]) = some (.decAcMissing .notReady) ∧
    ok (decode .decsel [0x50#8, 0x80#8, 0x03#8]) = some (.decAcMismatch 0x80#8) := by decide

/-- DECSEL, rejected: `st = 11` (R70), a bit that is none of `Q`, a symbol that contradicts the row. -/
theorem test_decode_decsel_rejects :
    err (decode .decsel [0x70#8, 0x00#8, 0x03#8]) = some .noRow ∧
    err (decode .decsel [0x90#8, 0x05#8, 0x03#8]) = some .reservedBits ∧
    err (decode .decsel [0x10#8, 0x00#8, 0x00#8]) = some .badOperand := by decide

/-- ENCSEL: the words `W` of V-ENC-10, V-ENC-11, V-ENC-12, P4, with their commands. -/
theorem test_decode_encsel :
    ok (decode .encsel [0x04#8]) = some .encIdleNop ∧
    ok (decode .encsel [0x10#8, 0x10#8, 0xAB#8]) = some (.encIdleAccept 0x10#8 [0xAB#8]) ∧
    ok (decode .encsel [0x25#8]) = some .encLenEmit ∧
    ok (decode .encsel [0x41#8]) = some .encTypeStall ∧
    ok (decode .encsel [0x45#8]) = some .encTypeEmit ∧
    ok (decode .encsel [0x46#8]) = some .encTypeEmitEmpty ∧
    ok (decode .encsel [0x64#8]) = some .encPayloadEmit ∧
    ok (decode .encsel [0x65#8]) = some .encPayloadEmitLast ∧
    ok (decode .encsel [0x84#8]) = some .encChkEmit ∧
    ok (decode .encsel [0x20#8]) = some .encLenStall ∧
    ok (decode .encsel [0x60#8]) = some .encPayloadStall ∧
    ok (decode .encsel [0x80#8]) = some .encChkStall := by decide

/-- ENCSEL: P4 step 1. -/
theorem test_decode_encsel_reject :
    ok (decode .encsel (0x1C#8 :: 0x7E#8 :: zeros 255))
      = some (.encIdleReject 0x7E#8 (zeros 255)) := by
  have h : selectEncRow 0x1C#8 = some .idleReject := by decide
  simp [decode, decodeEnc, h, encSelInstr, ok, payloadMax]

/-- ENCSEL, rejected: `st` 5 to 7 (R71), a command missing, one that contradicts the row, one not presented. -/
theorem test_decode_encsel_rejects :
    err (decode .encsel [0xA0#8]) = some .noRow ∧ err (decode .encsel [0x10#8]) = some .truncated ∧
    err (decode .encsel [0x18#8, 0x7E#8]) = some .badOperand ∧ err (decode .encsel [0x24#8, 0x00#8]) = some .trailing := by
  decide

theorem test_decode_rst :
    ok (decode .rst [0x01#8, 0x00#8]) = some (.reset .both) ∧ ok (decode .rst [0x01#8, 0x01#8]) = some (.reset .dec) ∧
    ok (decode .rst [0x01#8, 0x02#8]) = some (.reset .enc) ∧ err (decode .rst [0x00#8, 0x00#8]) = some .noRow := by decide

/-- FUNC: no word, the name selects (R72). -/
theorem test_decode_func :
    ok (decode (.func .chkFold) [0x12#8, 0x34#8]) = some (.chkFold [0x12#8, 0x34#8]) ∧
    ok (decode (.func .chkClear) [0x00#8]) = some (.chkClear .dec) ∧
    ok (decode (.func .chkAbsorb) [0x2A#8, 0x01#8]) = some (.chkAbsorb .enc 0x2A#8) ∧
    ok (decode (.func .encode) [0x10#8, 0xAB#8]) = some (.encode 0x10#8 [0xAB#8]) ∧
    ok (decode (.func .dispatchClass) [0x01#8, 0x04#8]) = some (.dispatchClass 0x01#8 4) ∧
    err (decode (.func .dispatchClass) [0x01#8, 0xFF#8]) = some .badOperand := by decide

/-- Words as the host gives them, without a format (log entry 16). -/
theorem test_decodeTableWord :
    decodeTableWord 16 0x01FF = some (.frameDiscovery .rx) ∧
    decodeTableWord 16 0x0501 = some (.frameCpu .rx 0#8 0#8 0#8 0#8) ∧
    decodeTableWord 16 0x0442 = some (.frameReserved .rx 0x42#8 [0#8, 0#8, 0#8]) ∧
    decodeTableWord 16 0x200 = some (.linkReadyEmpty 0#8) ∧ decodeTableWord 8 0x51 = some (.decAcDeliver 0x01#8) ∧
    decodeTableWord 8 0x65 = some .encPayloadEmitLast ∧ decodeTableWord 8 0x84 = some .encChkEmit ∧
    decodeTableWord 8 0x01 = some (.reset .both) ∧ decodeTableWord 8 0xFF = some (.lenValid 0xFF#8) := by decide

/-- The step after `withFetchWord` runs the word's instruction. -/
theorem test_withFetchWord :
    firstInstr (State.reset.withFetchWord 16 0x0501) = decodeTableWord 16 0x0501 ∧
    firstInstr (State.reset.withFetchWord 8 0x51) = decodeTableWord 8 0x51 ∧
    firstInstr (State.reset.withFetchWord 8 0x65) = decodeTableWord 8 0x65 ∧
    firstInstr (State.reset.withFetchWord 8 0x22) = decodeTableWord 8 0x22 ∧
    firstInstr (State.reset.withFetchWord 8 0x01) = decodeTableWord 8 0x01 := by decide

/-! ### One step of each instruction -/

/-- V-TYP-1 and V-TYP-4 on the tx stream; the rx stream of V-DEC-1. -/
theorem test_frameDiscovery :
    (nextOf (exec (.frameDiscovery .tx) State.reset)).map State.txLog = some [0x01#8, 0xFF#8, 0xFE#8] ∧
    (nextOf (exec (.frameDiscovery .rx) State.reset)).map State.events = some [.deliver 0xFF#8 []] := by decide

theorem test_frameCpu :
    (nextOf (exec (.frameCpu .tx 0x00#8 0x00#8 0x2A#8 0x42#8) State.reset)).map State.txLog
      = some [0x05#8, 0x01#8, 0x00#8, 0x00#8, 0x2A#8, 0x42#8, 0x6C#8] ∧
    (nextOf (exec (.frameCpu .rx 0x00#8 0x00#8 0x2A#8 0x42#8) State.reset)).map State.events
      = some [.deliver 0x01#8 [0x00#8, 0x00#8, 0x2A#8, 0x42#8]] := by decide

theorem test_frameMem :
    (nextOf (exec (.frameMem .tx 0x00#8 0x80#8 0x92#8 0x42#8) State.reset)).map State.txLog
      = some [0x05#8, 0x02#8, 0x00#8, 0x80#8, 0x92#8, 0x42#8, 0x57#8] ∧
    (nextOf (exec (.frameMem .rx 0x00#8 0x80#8 0x92#8 0x42#8) State.reset)).map State.rxPos = some 7 := by decide

/-- V-TYP-7; a frame received where DEC is inside another one's body is that one's bytes (R124). -/
theorem test_frameReserved :
    (nextOf (exec (.frameReserved .tx 0xFF#8 [0x41#8]) State.reset)).map State.txLog
      = some [0x02#8, 0xFF#8, 0x41#8, 0xBC#8] ∧
    (nextOf (exec (.frameReserved .rx 0x00#8 []) (inBody 0x05#8 0#8 0x05#8 0 []))).map (fun t => t.dec.cnt)
      = some 0x03#8 := by decide

/-- V-DEC-6 step 1. -/
theorem test_lenZero :
    (nextOf (exec .lenZero State.reset)).map (fun t => (t.decOut.event, t.dec))
      = some (some (.discard .lenZero), DecRegs.canonicalIdle) := by decide

/-- V-DEC-2 step 1; elsewhere the byte is not in length position. -/
theorem test_lenValid :
    (nextOf (exec (.lenValid 0x05#8) State.reset)).map (fun t => (t.dec.len, t.dec.acc)) = some (0x05#8, 0x05#8) ∧
    notSelected (exec (.lenValid 0x05#8) (inBody 0x05#8 0#8 0x05#8 0 [])) = true := by decide

/-- V-DEC-7a: an idle step counts. -/
theorem test_linkNotReady :
    (nextOf (exec (.linkNotReady true 0xFF#8) (inBody 0x05#8 1#8 0x04#8 18 [0x01#8]))).map (fun t => t.dec.idle)
      = some 19 := by decide

/-- V-DEC-15a: `ReadyEmpty` counts as idle, and reads the link. -/
theorem test_linkReadyEmpty :
    (nextOf (exec (.linkReadyEmpty 0x33#8) (inBody 0x05#8 0#8 0x05#8 19 []))).map State.decOut
      = some { rdEn := true, event := some (.discard .bodyTimeout) } := by decide

/-- V-DEC-2 step 5. -/
theorem test_linkReadyByte :
    (nextOf (exec (.linkReadyByte 0x2A#8) (inBody 0x05#8 3#8 0x04#8 0 [0x01#8, 0x00#8, 0x00#8]))).map State.dec
      = some (inBody 0x05#8 4#8 0x2E#8 0 [0x01#8, 0x00#8, 0x00#8, 0x2A#8]).dec := by decide

/-- V-DEC-4. -/
theorem test_decAlIdle :
    (nextOf (exec (.decAlIdle .notReady) State.reset)).map (fun t => (t.dec, t.decOut.event, t.rxPos))
      = some (DecRegs.canonicalIdle, none, 0) := by decide

/-- V-DEC-6 step 1: the byte is consumed. -/
theorem test_decAlZero : (nextOf (exec .decAlZero State.reset)).map State.rxPos = some 1 := by decide

/-- V-DEC-8 step 4. -/
theorem test_decAlLatch :
    (nextOf (exec (.decAlLatch 0xFE#8) State.reset)).map State.dec = some (inBody 0xFE#8 0#8 0xFE#8 0 []).dec := by decide

/-- V-DEC-2 step 2, and its row. -/
theorem test_decAbStore :
    (nextOf (exec (.decAbStore 0x01#8) (inBody 0x05#8 0#8 0x05#8 0 []))).map State.dec
      = some (inBody 0x05#8 1#8 0x04#8 0 [0x01#8]).dec ∧
    decRow (inBody 0x05#8 0#8 0x05#8 0 []) (.readyByte 0x01#8) = some (.decAbStore 0x01#8) := by decide

/-- V-DEC-2 step 6. -/
theorem test_decAbStoreLast :
    (nextOf (exec (.decAbStoreLast 0x42#8) (inBody 0x05#8 4#8 0x2E#8 0 [0x01#8, 0x00#8, 0x00#8, 0x2A#8]))).map State.dec
      = some cpuChecksumDue.dec := by decide

/-- P2 step 29. -/
theorem test_decAbWait :
    (nextOf (exec (.decAbWait .notReady) (inBody 0x05#8 2#8 0x14#8 18 [0xAA#8, 0xBB#8]))).map State.dec
      = some (inBody 0x05#8 2#8 0x14#8 19 [0xAA#8, 0xBB#8]).dec := by decide

/-- P2 step 30. -/
theorem test_decAbTimeout :
    (nextOf (exec (.decAbTimeout .notReady) (inBody 0x05#8 2#8 0x14#8 19 [0xAA#8, 0xBB#8]))).map (fun t => (t.dec, t.events))
      = some (DecRegs.canonicalIdle, [.discard .bodyTimeout]) := by decide

/-- V-DEC-2 step 7. -/
theorem test_decAcDeliver :
    (nextOf (exec (.decAcDeliver 0x6C#8) cpuChecksumDue)).map (fun t => (t.dec, t.decOut.event))
      = some (DecRegs.canonicalIdle, some (.deliver 0x01#8 [0x00#8, 0x00#8, 0x2A#8, 0x42#8])) ∧
    (nextOf (exec (.decAcDeliver 0x6C#8) cpuChecksumDue)).map (fun t => (t.decOut.deliverPlen, t.decOut.diagReason))
      = some (some 0x04#8, 0#3) := by decide

/-- V-DEC-8 step 3: one idle step, whatever `T` is. -/
theorem test_decAcMissing :
    (nextOf (exec (.decAcMissing .notReady) cpuChecksumDue)).map (fun t => (t.dec, t.decOut.diagReason))
      = some (DecRegs.canonicalIdle, 3#3) := by decide

/-- V-DEC-12 step 7. -/
theorem test_decAcMismatch :
    (nextOf (exec (.decAcMismatch 0x6D#8) cpuChecksumDue)).map (fun t => (t.dec, t.decOut.diagReason))
      = some (DecRegs.canonicalIdle, 4#3) := by decide

/-- V-ENC-10 step 7. -/
theorem test_encIdleNop :
    (nextOf (exec .encIdleNop State.reset)).map (fun t => (t.enc, t.encOut.ready, t.encOut.txValid))
      = some (EncRegs.canonicalIdle, true, false) := by decide

/-- V-ENC-10 step 1. -/
theorem test_encIdleAccept :
    (nextOf (exec (.encIdleAccept 0x10#8 [0xAB#8]) State.reset)).map State.enc = some (onFrame .len 0x00#8).enc := by decide

/-- V-ENC-13 step 1. -/
theorem test_encIdleReject :
    (nextOf (exec (.encIdleReject 0x7E#8 (zeros 255)) State.reset)).map
        (fun t => (t.encOut.encReject, t.encOut.encCause, t.enc)) = some (true, 1#2, EncRegs.canonicalIdle) := by
  have h : (State.reset.enc.state == .idle && decide (payloadMax < (zeros 255).length)) = true := by
    simp [State.reset, EncRegs.canonicalIdle]
  simp only [exec, execEncIdleReject, h]
  decide

theorem test_encLenStall :
    (nextOf (exec .encLenStall (onFrame .len 0x00#8))).map (fun t => (t.enc, t.encOut.txData, t.txLog))
      = some ((onFrame .len 0x00#8).enc, some 0x02#8, []) := by decide

/-- V-ENC-10 step 3; a command there is ignored (R94, as in V-ENC-12). -/
theorem test_encTypeStall :
    (nextOf (exec .encTypeStall (onFrame .type 0x02#8))).map (fun t => (t.enc, t.encOut.txData, t.txLog))
      = some ((onFrame .type 0x02#8).enc, some 0x10#8, []) ∧
    encRow (onFrame .type 0x02#8) (EncIn.command 0x01#8 [0x00#8] false) = some .encTypeStall := by decide

theorem test_encPayloadStall :
    (nextOf (exec .encPayloadStall (onFrame .payload 0x12#8))).map (fun t => (t.enc, t.encOut.txData, t.txLog))
      = some ((onFrame .payload 0x12#8).enc, some 0xAB#8, []) := by decide

theorem test_encChkStall :
    (nextOf (exec .encChkStall (onFrame .chk 0xB9#8))).map (fun t => (t.enc, t.encOut.txData, t.encOut.done))
      = some ((onFrame .chk 0xB9#8).enc, some 0xB9#8, false) := by decide

/-- V-ENC-10 step 2. -/
theorem test_encLenEmit :
    (nextOf (exec .encLenEmit (onFrame .len 0x00#8))).map (fun t => (t.enc, t.txLog))
      = some ((onFrame .type 0x02#8).enc, [0x02#8]) := by decide

/-- V-ENC-10 step 4. -/
theorem test_encTypeEmit :
    (nextOf (exec .encTypeEmit (onFrame .type 0x02#8))).map (fun t => (t.enc, t.txLog))
      = some ((onFrame .payload 0x12#8).enc, [0x10#8]) := by decide

/-- V-ENC-11 step 3: the empty payload skips ENC_PAYLOAD. -/
theorem test_encTypeEmitEmpty :
    (nextOf (exec .encTypeEmitEmpty
        (withEnc { state := .type, type := 0xFF#8, len := 0x01#8, idx := 0#8, acc := 0x01#8, pay := [] }))).map
      (fun t => (t.enc.state, t.enc.acc, t.txLog)) = some (.chk, 0xFE#8, [0xFF#8]) := by decide

/-- P1, the fourth transfer of the first frame: `00`, then `2A`. -/
theorem test_encPayloadEmit :
    (nextOf (exec .encPayloadEmit
        (withEnc { state := .payload, type := 0x01#8, len := 0x05#8, idx := 2#8, acc := 0x04#8,
                   pay := Memory.ofBytes [0x00#8, 0x00#8, 0x2A#8, 0x42#8] }))).map
      (fun t => (t.enc.state, t.enc.idx, t.enc.acc, t.txLog)) = some (.payload, 3#8, 0x2E#8, [0x2A#8]) := by decide

/-- V-ENC-10 step 5. -/
theorem test_encPayloadEmitLast :
    (nextOf (exec .encPayloadEmitLast (onFrame .payload 0x12#8))).map (fun t => (t.enc, t.txLog))
      = some ((onFrame .chk 0xB9#8).enc, [0xAB#8]) := by decide

/-- V-ENC-10 step 6. -/
theorem test_encChkEmit :
    (nextOf (exec .encChkEmit (onFrame .chk 0xB9#8))).map (fun t => (t.enc, t.txLog, t.encOut.done))
      = some (EncRegs.canonicalIdle, [0xB9#8], true) := by decide

/-- V-RST-1, V-RST-2: no event. -/
theorem test_reset :
    (nextOf (exec (.reset .both) (inBody 0x05#8 2#8 0x04#8 0 [0x01#8, 0x00#8]))).map (fun t => (t.dec, t.events, t.decOut))
      = some (DecRegs.canonicalIdle, [], DecOut.quiet) ∧
    (nextOf (exec (.reset .dec) (onFrame .chk 0xB9#8))).map State.enc = some (onFrame .chk 0xB9#8).enc := by decide

/-- V-CHK-1, V-CHK-4, V-CHK-7, V-CHK-8. -/
theorem test_chkFold :
    (nextOf (exec (.chkFold [0x12#8, 0x34#8, 0x56#8]) State.reset)).map State.funcOut = some (some (.chk 0x70#8)) ∧
    chk [] = 0x00#8 ∧ chk [0x05#8, 0x01#8, 0x00#8, 0x00#8, 0x2A#8, 0x42#8] = 0x6C#8 ∧
    chk [0x05#8, 0x01#8, 0x00#8, 0x00#8, 0x2A#8, 0x42#8, 0x6C#8] = 0x00#8 := by decide

theorem test_chkClear :
    (nextOf (exec (.chkClear .enc) (onFrame .chk 0xB9#8))).map (fun t => t.enc.acc) = some 0x00#8 := by decide

/-- The accumulator vector of 2.1: `04`, then `2A` gives `2E`. -/
theorem test_chkAbsorb :
    (nextOf (exec (.chkAbsorb .dec 0x2A#8) (inBody 0x05#8 3#8 0x04#8 0 []))).map (fun t => t.dec.acc) = some 0x2E#8 := by
  decide

/-- V-ENC-3, V-ENC-7. -/
theorem test_encode :
    (nextOf (exec (.encode 0x10#8 [0xAB#8]) State.reset)).map State.funcOut
      = some (some (.encode (.frame [0x02#8, 0x10#8, 0xAB#8, 0xB9#8]))) ∧
    encodeFrame 0x7E#8 (zeros 255) = .rejectOversize :=
  ⟨by decide, by simp [encodeFrame]⟩

/-- V-TYP-1, V-TYP-6, V-TYP-7. -/
theorem test_dispatchClass :
    (nextOf (exec (.dispatchClass 0xFF#8 0) State.reset)).map State.funcOut = some (some (.dispatchClass .discovery)) ∧
    classify 0x01#8 3 = .ignore ∧ classify 0xFF#8 1 = .ignore ∧ classify 0x02#8 4 = .mem := by decide

/-- The byte patterns of 95_test_vectors 2.4: 42.5, 73.25, 100.0, 0.0. -/
theorem test_f32le :
    f32le (85 / 2) = [0x00#8, 0x00#8, 0x2A#8, 0x42#8] ∧ f32le (293 / 4) = [0x00#8, 0x80#8, 0x92#8, 0x42#8] ∧
    f32le 100 = [0x00#8, 0x00#8, 0xC8#8, 0x42#8] ∧ f32le 0 = [0x00#8, 0x00#8, 0x00#8, 0x00#8] := by decide +kernel

/-- A number that is no binary32 value: IEEE-754's 0.1 is `0x3DCCCCCD`, that of -0.1 has the sign bit too. -/
theorem test_f32Nearest_rounds : f32Nearest (1 / 10) = 0x3DCCCCCD#32 ∧ f32Nearest (-1 / 10) = 0xBDCCCCCD#32 := by decide +kernel

/-- `LOOPBACK` of a discovery frame, with an input still pending: received at once, then the tx log is empty. -/
theorem test_loopback :
    (nextOf (runStmt .loopback { State.reset with txLog := [0x01#8, 0xFF#8, 0xFE#8], pending := [.reset] })).map
      (fun t => (t.events, t.txLog, t.pending)) = some ([.deliver 0xFF#8 []], [], [.reset]) := by decide

theorem test_reset_buffers_canonical :
    State.reset.dec.buf.wf = true ∧ State.reset.enc.pay.wf = true ∧ Memory.wf [(1, 0#8), (0, 0#8)] = false := by decide

/-! ### Values that meet the hypotheses of the statements

One theorem for each statement that has hypotheses, named after it; with several clauses, a value for each. -/

/-- DEC's ports with a symbol. -/
def ports (y : LinkSym) : DecIn := DecIn.ofSym y

/-- The longest body about to be filled: cell 254 is next. -/
def lastCell : State :=
  withDec { state := .awaitBody, len := 0xFF#8, cnt := 0xFE#8, acc := 0#8, idle := 0, buf := [] }

theorem witness_DecodeOfEncodeIsIdentity :
    (Instr.frameReserved .rx 0x42#8 [0x01#8]).wf = true ∧ (Instr.decAlLatch 0xFF#8).wf = true := by decide

theorem witness_SelectionRowsDisjointAndCover :
    (0x51#7).extractLsb' 5 2 ≠ 3#2 ∧ ((0x84#8).extractLsb' 5 3).toNat ≤ 4 ∧ ((0x1C#8).extractLsb' 5 3).toNat ≤ 4 ∧
    ((0x08#8).extractLsb' 5 3).toNat ≤ 4 := by decide

/-- A length byte with its body, a checksum that agrees and one that does not. -/
theorem witness_SpanDecodesIffChecksumAgrees :
    (0x02#8).toNat = [0xAB#8].length + 1 ∧ 0xB9#8 = chk (0x02#8 :: 0x10#8 :: [0xAB#8]) ∧
    0xB8#8 ≠ chk (0x02#8 :: 0x10#8 :: [0xAB#8]) ∧
    decode (.wire .rx) (0x02#8 :: 0x10#8 :: [0xAB#8] ++ [0xB9#8]) = .ok (.frameReserved .rx 0x10#8 [0xAB#8]) := by decide

theorem witness_EncodedFrameIsWellFormed : (zeros 0).length ≤ 254 ∧ (zeros 254).length ≤ 254 := by simp

theorem witness_OneBitChangesOneChecksumBit : [0x05#8, 0x2A#8][1]? = some 0x2A#8 ∧ 7 < 8 := by decide

theorem witness_EncodeRow : 255 ≤ (zeros 255).length ∧ (zeros 254).length ≤ 254 := by simp

/-- Each line of the table, the class shown; the two ends of IGNORE: a wrong size, a wrong type. -/
theorem witness_DispatchClassRow :
    classify 0xFF#8 0 = .discovery ∧ classify 0x01#8 4 = .cpu ∧ classify 0x02#8 4 = .mem ∧
    (¬ (0xFF#8 = 0xFF#8 ∧ 1 = 0) ∧ ¬ (0xFF#8 = 0x01#8 ∧ 1 = 4) ∧ ¬ (0xFF#8 = 0x02#8 ∧ 1 = 4) ∧
      classify 0xFF#8 1 = .ignore) ∧
    (¬ (0x03#8 = 0xFF#8 ∧ 4 = 0) ∧ ¬ (0x03#8 = 0x01#8 ∧ 4 = 4) ∧ ¬ (0x03#8 = 0x02#8 ∧ 4 = 4) ∧
      classify 0x03#8 4 = .ignore) := by decide

theorem witness_DecIdleInLengthChangesNothing :
    State.reset.dec.state = .awaitLength ∧ (ports .readyEmpty).rst = false ∧
    (ports .readyEmpty).sym = IdleSym.readyEmpty.link := by decide

theorem witness_DecZeroLengthByteIsSkipped :
    State.reset.dec = DecRegs.canonicalIdle ∧ (ports (.readyByte 0x00#8)).rst = false ∧
    (ports (.readyByte 0x00#8)).sym = .readyByte 0x00#8 := by decide

theorem witness_DecLengthByteIsLatched :
    State.reset.dec.state = .awaitLength ∧ 0x05#8 ≠ 0x00#8 ∧ (ports (.readyByte 0x05#8)).rst = false ∧
    (ports (.readyByte 0x05#8)).sym = .readyByte 0x05#8 := by decide

/-- A byte that is not the last; the last byte of the longest body. -/
theorem witness_DecBodyByteIsStored :
    ((inBody 0x05#8 0#8 0x05#8 0 []).dec.state = .awaitBody ∧ (inBody 0x05#8 0#8 0x05#8 0 []).dec.cnt.toNat ≤ 254 ∧
      (inBody 0x05#8 0#8 0x05#8 0 []).dec.cnt.toNat + 1 ≠ (inBody 0x05#8 0#8 0x05#8 0 []).dec.len.toNat) ∧
    (lastCell.dec.state = .awaitBody ∧ lastCell.dec.cnt.toNat ≤ 254 ∧
      lastCell.dec.cnt.toNat + 1 = lastCell.dec.len.toNat) := by decide

theorem witness_DecIdleInBodyIsCounted :
    (inBody 0x05#8 0#8 0x05#8 18 []).dec.state = .awaitBody ∧
    (inBody 0x05#8 0#8 0x05#8 18 []).dec.idle + 1 < State.reset.cfg.frameTimeoutTicks ∧
    (ports .notReady).sym = IdleSym.notReady.link := by decide

theorem witness_DecBodyTimeoutDiscards :
    (inBody 0x05#8 0#8 0x05#8 19 []).dec.state = .awaitBody ∧
    State.reset.cfg.frameTimeoutTicks ≤ (inBody 0x05#8 0#8 0x05#8 19 []).dec.idle + 1 := by decide

theorem witness_DecMatchingChecksumDelivers :
    cpuChecksumDue.dec.state = .awaitChecksum ∧
    cpuChecksumDue.dec.len.toNat = [0x00#8, 0x00#8, 0x2A#8, 0x42#8].length + 1 ∧
    (∀ k, k < [0x00#8, 0x00#8, 0x2A#8, 0x42#8].length + 1 →
      cpuChecksumDue.dec.buf.read k = (0x01#8 :: [0x00#8, 0x00#8, 0x2A#8, 0x42#8])[k]?) ∧
    (ports (.readyByte 0x6C#8)).sym = .readyByte cpuChecksumDue.dec.acc := by decide

theorem witness_DecMissingChecksumDiscards : cpuChecksumDue.dec.state = .awaitChecksum := by decide

theorem witness_DecChecksumMismatchDiscards :
    cpuChecksumDue.dec.state = .awaitChecksum ∧ 0x6D#8 ≠ cpuChecksumDue.dec.acc := by decide

theorem witness_LenRowsTakeTheLengthByte : State.reset.dec.state = .awaitLength ∧ 0x01#8 ≠ 0x00#8 := by decide

theorem witness_PortsDecodeToLinkSymbols :
    (ports .notReady).poll = false ∧ ((ports .readyEmpty).poll = true ∧ (ports .readyEmpty).rdValid = false) ∧
    ((ports (.readyByte 0#8)).poll = true ∧ (ports (.readyByte 0#8)).rdValid = true) := by decide

theorem cpuChecksumDue_inv : cpuChecksumDue.dec.Inv cpuChecksumDue.cfg := ⟨by decide, by decide, by decide⟩

theorem inBody_inv : (inBody 0x05#8 1#8 0x04#8 19 [0x01#8]).dec.Inv State.reset.cfg := ⟨by decide, by decide, by decide⟩

theorem reset_dec_inv : State.reset.dec.Inv State.reset.cfg := ⟨by decide, by decide, by decide⟩

theorem onFrame_inv : (onFrame .payload 0x12#8).enc.Inv := by
  refine ⟨by decide, by decide, by decide, by decide, by decide, by decide⟩

theorem witness_DecStepIsTotal :
    cpuChecksumDue.cfg.Valid ∧ cpuChecksumDue.dec.Inv cpuChecksumDue.cfg ∧ (ports .notReady).rst = false :=
  ⟨by decide, cpuChecksumDue_inv, by decide⟩

/-- A step that delivers, one that discards, one with `rst = 1`. -/
theorem witness_DecOutputPorts :
    cpuChecksumDue.cfg.Valid ∧ cpuChecksumDue.dec.Inv cpuChecksumDue.cfg ∧
    ((nextOf (stepOn (.dec (ports (.readyByte 0x6C#8))) cpuChecksumDue)).map (fun t => t.decOut.deliverPayload)
      = some (some [0x00#8, 0x00#8, 0x2A#8, 0x42#8])) ∧
    ((nextOf (stepOn (.dec (ports .notReady)) cpuChecksumDue)).map (fun t => t.decOut.diagDiscard) = some true) ∧
    ((nextOf (stepOn (.dec { rst := true, poll := true, rdValid := true, data := 0x6C#8 }) cpuChecksumDue)).map
      (fun t => t.decOut.diagDiscard) = some false) := ⟨by decide, cpuChecksumDue_inv, by decide, by decide, by decide⟩

theorem witness_DiscardReturnsToIdle :
    cpuChecksumDue.cfg.Valid ∧ cpuChecksumDue.dec.Inv cpuChecksumDue.cfg ∧ (ports (.readyByte 0x6D#8)).rst = false ∧
    (nextOf (stepOn (.dec (ports (.readyByte 0x6D#8))) cpuChecksumDue)).map (fun t => t.decOut.event)
      = some (some (.discard .chkMismatch)) := ⟨by decide, cpuChecksumDue_inv, by decide, by decide⟩

/-- One step for each line of the transition table. -/
theorem witness_DecTransitionTable :
    ((nextOf (stepOn (.dec (ports .notReady)) State.reset)).map (fun t => t.dec.state) = some .awaitLength) ∧
    ((nextOf (stepOn (.dec (ports (.readyByte 0x00#8))) State.reset)).map (fun t => t.dec.state) = some .awaitLength) ∧
    ((nextOf (stepOn (.dec (ports (.readyByte 0xFF#8))) State.reset)).map (fun t => t.dec.state) = some .awaitBody) ∧
    ((nextOf (stepOn (.dec (ports (.readyByte 0x00#8))) lastCell)).map (fun t => t.dec.state) = some .awaitChecksum) ∧
    ((nextOf (stepOn (.dec (ports (.readyByte 0x01#8))) (inBody 0x05#8 0#8 0x05#8 0 []))).map (fun t => t.dec.state)
      = some .awaitBody) ∧
    ((nextOf (stepOn (.dec (ports .readyEmpty)) (inBody 0x05#8 0#8 0x05#8 18 []))).map (fun t => t.dec.state)
      = some .awaitBody) ∧
    ((nextOf (stepOn (.dec (ports .readyEmpty)) (inBody 0x05#8 0#8 0x05#8 19 []))).map (fun t => t.dec.state)
      = some .awaitLength) ∧
    ((nextOf (stepOn (.dec (ports (.readyByte 0x6C#8))) cpuChecksumDue)).map (fun t => t.dec.state) = some .awaitLength) ∧
    ((nextOf (stepOn (.dec (ports (.readyByte 0x6D#8))) cpuChecksumDue)).map (fun t => t.dec.state) = some .awaitLength) ∧
    ((nextOf (stepOn (.dec (ports .notReady)) cpuChecksumDue)).map (fun t => t.dec.state) = some .awaitLength) := by
  decide

theorem witness_EncIdleChangesNothing :
    State.reset.enc.state = .idle ∧ (EncIn.noCommand true).rst = false ∧ (EncIn.noCommand true).start = false := by decide

theorem witness_EncCommandIsLatched :
    State.reset.enc.state = .idle ∧ (zeros 254).length ≤ 254 ∧ (EncIn.command 0x10#8 (zeros 254) true).rst = false ∧
    (EncIn.command 0x10#8 (zeros 254) true).start = true ∧ (EncIn.command 0x10#8 (zeros 254) true).typeIn = 0x10#8 ∧
    (EncIn.command 0x10#8 (zeros 254) true).payIn = zeros 254 :=
  ⟨by decide, by simp, rfl, rfl, rfl, rfl⟩

theorem witness_EncOversizeIsRejected :
    State.reset.enc.state = .idle ∧ 255 ≤ (zeros 255).length ∧ (EncIn.command 0x10#8 (zeros 255) true).rst = false ∧
    (EncIn.command 0x10#8 (zeros 255) true).start = true ∧ (EncIn.command 0x10#8 (zeros 255) true).typeIn = 0x10#8 ∧
    (EncIn.command 0x10#8 (zeros 255) true).payIn = zeros 255 :=
  ⟨by decide, by simp, rfl, rfl, rfl, rfl⟩

theorem witness_EncStallsWithoutReady :
    (onFrame .len 0x00#8).enc.state = .len ∧ (onFrame .type 0x02#8).enc.state = .type ∧
    ((onFrame .payload 0x12#8).enc.state = .payload ∧
      (onFrame .payload 0x12#8).enc.pay.read (onFrame .payload 0x12#8).enc.idx.toNat = some 0xAB#8) ∧
    (onFrame .chk 0xB9#8).enc.state = .chk ∧ (EncIn.noCommand false).rst = false ∧
    (EncIn.noCommand false).txReady = false := by decide

theorem witness_EncLengthByteIsSent :
    (onFrame .len 0x00#8).enc.state = .len ∧ (EncIn.noCommand true).rst = false ∧ (EncIn.noCommand true).txReady = true := by
  decide

/-- A frame with a payload, and one without. -/
theorem witness_EncTypeByteIsSent :
    ((onFrame .type 0x02#8).enc.state = .type ∧ (onFrame .type 0x02#8).enc.len ≠ 1#8) ∧
    ∃ s : State, s.enc.state = .type ∧ s.enc.len = 1#8 :=
  ⟨by decide,
    withEnc { state := .type, type := 0xFF#8, len := 0x01#8, idx := 0#8, acc := 0x01#8, pay := [] }, by decide, by decide⟩

/-- The last payload byte, and one that is not. -/
theorem witness_EncPayloadByteIsSent :
    ((onFrame .payload 0x12#8).enc.state = .payload ∧
      (onFrame .payload 0x12#8).enc.pay.read (onFrame .payload 0x12#8).enc.idx.toNat = some 0xAB#8 ∧
      (onFrame .payload 0x12#8).enc.idx.toNat + 1 = (onFrame .payload 0x12#8).enc.len.toNat - 1) ∧
    ∃ s : State, s.enc.state = .payload ∧ s.enc.pay.read s.enc.idx.toNat = some 0x01#8 ∧
      s.enc.idx.toNat + 1 ≠ s.enc.len.toNat - 1 ∧ s.enc.Inv :=
  ⟨by decide,
    withEnc { state := .payload, type := 0x42#8, len := 0x03#8, idx := 0#8, acc := 0x41#8,
              pay := [(0, 0x01#8), (1, 0x02#8)] },
    by decide, by decide, by decide, ⟨by decide, by decide, by decide, by decide, by decide, by decide⟩⟩

theorem witness_EncChecksumByteIsSent :
    (onFrame .chk 0xB9#8).enc.state = .chk ∧ (onFrame .chk 0xB9#8).enc.Inv :=
  ⟨by decide, by decide, by decide, by decide, by decide, by decide, by decide⟩

theorem witness_BusyEncIgnoresCommands :
    (onFrame .type 0x02#8).enc.state ≠ .idle ∧ (EncIn.command 0x01#8 (zeros 255) true).rst = false ∧
    (EncIn.noCommand true).rst = false ∧ (EncIn.command 0x01#8 (zeros 255) true).txReady = (EncIn.noCommand true).txReady ∧
    (nextOf (stepOn (.enc (EncIn.noCommand true)) (onFrame .type 0x02#8))).isSome = true :=
  ⟨by decide, rfl, rfl, rfl, by decide⟩

/-- One step in each state of ENC. -/
theorem witness_EncOutputPorts :
    (EncIn.noCommand true).rst = false ∧
    (nextOf (stepOn (.enc (EncIn.noCommand true)) State.reset)).isSome = true ∧
    (nextOf (stepOn (.enc (EncIn.noCommand true)) (onFrame .len 0x00#8))).isSome = true ∧
    (nextOf (stepOn (.enc (EncIn.noCommand true)) (onFrame .type 0x02#8))).isSome = true ∧
    (nextOf (stepOn (.enc (EncIn.noCommand true)) (onFrame .payload 0x12#8))).isSome = true ∧
    (nextOf (stepOn (.enc (EncIn.noCommand true)) (onFrame .chk 0xB9#8))).isSome = true := by decide

theorem witness_IdleEncoderSendsTheFrame : State.reset.enc = EncRegs.canonicalIdle ∧ (zeros 254).length ≤ 254 :=
  ⟨by decide, by simp⟩

theorem witness_AlignedDecoderDeliversTheFrame :
    State.reset.dec = DecRegs.canonicalIdle ∧ (zeros 254).length ≤ 254 ∧ registered 0x42#8 (zeros 254).length = false :=
  ⟨by decide, by simp, by simp [registered]⟩

theorem witness_OversizeFrameIsNotSent : 255 ≤ (zeros 255).length ∧ State.reset.enc.state = .idle := ⟨by simp, by decide⟩

theorem witness_FrameRowIsItsStatement :
    encodeFrame 0x10#8 [0xAB#8] = .frame [0x02#8, 0x10#8, 0xAB#8, 0xB9#8] ∧ State.reset.enc = EncRegs.canonicalIdle := by
  decide

/-- A command, then three of the four transfers; then all four, with a stall between. -/
theorem witness_SequencerEqualsEncode :
    State.reset.enc = EncRegs.canonicalIdle ∧ (EncIn.command 0x10#8 [0xAB#8] true).rst = false ∧
    (EncIn.command 0x10#8 [0xAB#8] true).start = true ∧ (EncIn.command 0x10#8 [0xAB#8] true).payIn.length ≤ 254 ∧
    (∀ q ∈ [EncIn.noCommand true, EncIn.noCommand false, EncIn.noCommand true, EncIn.noCommand true, EncIn.noCommand true],
      q.rst = false) ∧
    ([EncIn.noCommand true, EncIn.noCommand false, EncIn.noCommand true].filter (fun q => q.txReady)).length < 4 ∧
    ([EncIn.noCommand true, EncIn.noCommand false, EncIn.noCommand true, EncIn.noCommand true, EncIn.noCommand true].filter
      (fun q => q.txReady)).length = 4 := by decide

/-- V-DEC-7b's idle steps, an idle step before. -/
theorem witness_DecoderRoundTrip :
    State.reset.dec = DecRegs.canonicalIdle ∧
    encodeFrame 0x10#8 [0xAB#8] = .frame (0x02#8 :: 0x10#8 :: [0xAB#8] ++ [0xB9#8]) ∧
    [LinkSym.notReady, .readyByte 0x02#8, .readyByte 0x10#8, .readyEmpty, .readyByte 0xAB#8, .readyByte 0xB9#8].map
        (fun y => (ports y).sym)
      = [.notReady] ++ [.readyByte 0x02#8] ++ ([.readyByte 0x10#8, .readyEmpty] ++ [.readyByte 0xAB#8])
        ++ [.readyByte 0xB9#8] ∧
    (∀ y ∈ [LinkSym.notReady], symIdle y = true) ∧
    ([LinkSym.readyByte 0x10#8, .readyEmpty] ++ [LinkSym.readyByte 0xAB#8]).flatMap symBytes = 0x10#8 :: [0xAB#8] ∧
    ([LinkSym.readyByte 0x10#8, .readyEmpty].filter symIdle).length < State.reset.cfg.frameTimeoutTicks := by decide

theorem witness_FlippedBitIsDiscarded :
    State.reset.dec = DecRegs.canonicalIdle ∧ encodeFrame 0xFF#8 [] = .frame [0x01#8, 0xFF#8, 0xFE#8] ∧ 1 ≤ 2 ∧
    [0x01#8, 0xFF#8, 0xFE#8][2]? = some 0xFE#8 ∧ 0 < 8 := by decide

/-- V-DEC-16a is delivered, V-DEC-9 discarded. -/
theorem witness_SpanDeliveredIffXorZero :
    State.reset.dec = DecRegs.canonicalIdle ∧ (0x01#8).toNat = ([] : List Byte).length + 1 ∧
    chk (0x01#8 :: 0x55#8 :: [] ++ [0x54#8]) = 0#8 ∧ chk (0x01#8 :: 0xFF#8 :: [] ++ [0xFF#8]) ≠ 0#8 := by decide

theorem witness_SilenceResynchronises :
    State.reset.cfg.Valid ∧ (inBody 0x05#8 1#8 0x04#8 19 [0x01#8]).dec.Inv State.reset.cfg ∧
    (∀ q ∈ List.replicate 20 (ports .notReady), q.rst = false ∧ symIdle q.sym = true) ∧
    State.reset.cfg.frameTimeoutTicks ≤ (List.replicate 20 (ports .notReady)).length :=
  ⟨by decide, inBody_inv, by decide, by decide⟩

/-- P2; and garbage that delivers nothing. -/
theorem witness_GarbageBetweenFramesIsContained :
    State.reset.cfg.Valid ∧ State.reset.dec = DecRegs.canonicalIdle ∧
    encodeFrame 0xFF#8 [] = .frame [0x01#8, 0xFF#8, 0xFE#8] ∧ encodeFrame 0x00#8 [] = .frame [0x01#8, 0x00#8, 0x01#8] ∧
    State.reset.cfg.frameTimeoutTicks ≤ (List.replicate 20 IdleSym.notReady).length ∧
    [0x05#8, 0xAA#8, 0xBB#8].length = 3 ∧ (∀ x, [0x05#8, 0xAA#8, 0xBB#8] ≠ [0x01#8, x, 0x01#8 ^^^ x]) :=
  ⟨by decide, by decide, by decide, by decide, by decide, by decide, by simp⟩

theorem witness_PartialFrameNeverBlocks :
    State.reset.cfg.Valid ∧ 0x05#8 ≠ 0x00#8 ∧
    (inBody 0x05#8 0#8 0x05#8 0 []).dec
      = { state := .awaitBody, len := 0x05#8, cnt := 0#8, acc := 0x05#8, idle := 0, buf := [] } ∧
    (∀ q ∈ List.replicate 25 (ports (.readyByte 0x01#8)), q.rst = false) ∧
    (List.replicate 25 (ports (.readyByte 0x01#8))).length = (0x05#8).toNat + State.reset.cfg.frameTimeoutTicks := by decide

theorem reset_inv : State.reset.Inv := ⟨by decide, reset_dec_inv, by decide, by decide, by decide, by decide, by decide, by decide⟩

/-- A state inside two frames, with an input waiting. -/
def midway : State := { cpuChecksumDue with enc := (onFrame .payload 0x12#8).enc, pending := [.dec (ports (.readyByte 0x6C#8))] }

theorem midway_inv : midway.Inv := ⟨by decide, cpuChecksumDue_inv, onFrame_inv⟩

theorem witness_StepKeepsInvariant : midway.Inv ∧ (nextOf (step midway)).isSome = true := ⟨midway_inv, by decide⟩

theorem witness_RunsFromInvariantAreSafe : midway.Inv := midway_inv

theorem witness_StepRunsTheSelectedInstruction :
    midway.pending = .dec (ports (.readyByte 0x6C#8)) :: [] ∧
    fetchInstr (.dec (ports (.readyByte 0x6C#8))) { midway with pending := [] } = some (.decAcDeliver 0x6C#8) ∧
    State.reset.pending = [] := by decide

theorem witness_ResetStep :
    DecIn.rst { rst := true, poll := false, rdValid := false, data := 0#8 } = true ∧
    EncIn.rst { rst := true, start := false, typeIn := 0#8, payIn := [], txReady := false } = true := by decide

theorem witness_UnitStepsCommute : midway.Inv := midway_inv

theorem witness_UnitsDoNotInterfere :
    (nextOf (stepOn (.dec (ports .notReady)) midway)).isSome = true ∧
    (nextOf (stepOn (.enc (EncIn.noCommand true)) midway)).isSome = true := by decide

theorem witness_DecRowsFrame :
    isDecRow (.decAbWait .notReady) = true ∧ keepsBody (.decAbWait .notReady) = true ∧
    (nextOf (exec (.decAbWait .notReady) (inBody 0x05#8 1#8 0x04#8 0 [0x01#8]))).isSome = true ∧
    (nextOf (exec (.decAbStore 0x00#8) (inBody 0x05#8 1#8 0x04#8 0 [0x01#8]))).isSome = true ∧
    (nextOf (exec (.decAbStoreLast 0x00#8) lastCell)).isSome = true := by decide

theorem witness_EncRowsFrame :
    (isEncRow .encPayloadStall = true ∧ keepsPayload .encPayloadStall = true ∧
      (nextOf (exec .encPayloadStall (onFrame .payload 0x12#8))).isSome = true) ∧
    (isEncRow (.encIdleAccept 0x10#8 [0xAB#8]) = true ∧
      (nextOf (exec (.encIdleAccept 0x10#8 [0xAB#8]) State.reset)).isSome = true) ∧
    (isEncRow .encChkEmit = true ∧ (nextOf (exec .encChkEmit (onFrame .chk 0xB9#8))).isSome = true) := by decide

theorem witness_ParameterIsConstant :
    (nextOf (exec (.frameDiscovery .tx) State.reset)).isSome = true ∧ (nextOf (step midway)).isSome = true := by decide

theorem witness_BuffersStayCanonical :
    cpuChecksumDue.dec.buf.wf = true ∧ cpuChecksumDue.enc.pay.wf = true ∧
    (nextOf (exec (.decAcDeliver 0x6C#8) cpuChecksumDue)).isSome = true := by decide

end Sys2Proof.Tests
end

section
/-! The ports of DEC as link symbol words (10_state R30). -/

namespace Sys2Proof.Machine

/-- The ports `rx_data` and `rx_rd_valid` stand in the word as they are. -/
@[simp] theorem DecIn.word_data (p : DecIn) : p.word.extractLsb' 0 8 = p.data :=
  BitVec.extractLsb'_append_eq_right

@[simp] theorem DecIn.word_rdValid (p : DecIn) : p.word.getLsbD 8 = p.rdValid := by
  simp only [DecIn.word, BitVec.getLsbD_append]
  simp

/-- The LINKSYM row of a word `S`: `rx_poll = 0` settles it alone. -/
theorem selectLinkRow_append (poll rv : Bool) (d : Byte) :
    selectRow 10 linkTable (BitVec.ofBool poll ++ BitVec.ofBool rv ++ d)
      = some (if poll then if rv then .readyByte else .readyEmpty else .notReady) := by
  revert poll rv d
  decide

/-- The LINKSYM row that the ports select. -/
theorem selectLinkRow_word (p : DecIn) :
    selectRow 10 linkTable p.word
      = some (if p.poll then if p.rdValid then .readyByte else .readyEmpty else .notReady) :=
  selectLinkRow_append p.poll p.rdValid p.data

/-- The LINKSYM instruction that the ports decode to. -/
theorem decodeLinkSym_word (p : DecIn) :
    decodeLinkSym p.word = some (if p.poll then if p.rdValid then .linkReadyByte p.data else .linkReadyEmpty p.data
      else .linkNotReady p.rdValid p.data) := by
  simp only [decodeLinkSym, selectLinkRow_word, DecIn.word_data, DecIn.word_rdValid]
  cases p.poll <;> cases p.rdValid <;> rfl

/-- Settles O23: the symbol and the instruction are read off the ports, `rx_poll` first. -/
theorem portsDecodeToLinkSymbols : Obligations.PortsDecodeToLinkSymbols := by
  intro p
  rw [sym_eq, decodeLinkSym_word]
  refine ⟨fun hp => ?notReady, fun hp hv => ?readyEmpty, fun hp hv => ?readyByte⟩
  case notReady => simp [hp]
  case readyEmpty => simp [hp, hv]
  case readyByte => simp [hp, hv]

end Sys2Proof.Machine
end

section
/-! A predicate of states that each step of each unit keeps is kept by every input: frames on either stream are made of
such steps (30_encoding R73, R74). -/

namespace Sys2Proof.Machine

/-- The predicate is kept by DEC's steps. -/
def KeptByDec (P : State → Prop) : Prop := ∀ (y : LinkSym) (s t : State), P s → decStep y s = .next t → P t

/-- The predicate is kept by ENC's steps. -/
def KeptByEnc (P : State → Prop) : Prop := ∀ (p : EncIn) (s t : State), P s → encStep p s = .next t → P t

variable {P : State → Prop}

theorem decSteps_keeps (hd : KeptByDec P) (ys : List LinkSym) {s t : State} (hs : P s)
    (h : decSteps ys s = .next t) : P t := by
  induction ys generalizing s with
  | nil => cases h; exact hs
  | cons y rest ih =>
    obtain ⟨u, hu, ht⟩ := andThen_eq_next.1 h
    exact ih (hd y s u hs hu) ht

theorem encDrain_keeps (he : KeptByEnc P) (n : Nat) {s t : State} (hs : P s) (h : encDrain n s = .next t) : P t := by
  induction n generalizing s with
  | zero => cases h; exact hs
  | succ n ih =>
    obtain ⟨u, hu, ht⟩ := andThen_eq_next.1 h
    have hPu : P u := he _ s u hs hu
    split at ht
    · cases ht; exact hPu
    · exact ih hPu ht

theorem sendFrame_keeps (he : KeptByEnc P) {ty : Byte} {p : List Byte} {s t : State} (hs : P s)
    (h : sendFrame ty p s = .next t) : P t := by
  obtain ⟨n, -, hn⟩ := sendFrame_eq ty p s
  rw [hn] at h
  obtain ⟨u, hu, ht⟩ := andThen_eq_next.1 h
  have hPu : P u := he _ s u hs hu
  split at ht
  · cases ht; exact hPu
  · exact encDrain_keeps he n hPu ht

theorem receiveFrame_keeps (hd : KeptByDec P) {ty : Byte} {p : List Byte} {s t : State} (hs : P s)
    (h : receiveFrame ty p s = .next t) : P t := by
  unfold receiveFrame at h
  split at h
  · exact decSteps_keeps hd _ hs h
  · cases h; exact hs

theorem runFrame_keeps (hd : KeptByDec P) (he : KeptByEnc P) {side : Side} {ty : Byte} {p : List Byte} {s t : State}
    (hs : P s) (h : runFrame side ty p s = .next t) : P t := by
  cases side with
  | tx => exact sendFrame_keeps he hs h
  | rx => exact receiveFrame_keeps hd hs h

/-- What the steps of the units, the resets and the pure functions keep, every input keeps. -/
theorem stepOn_keeps (hd : KeptByDec P) (he : KeptByEnc P) (hrd : ∀ s, P s → P (resetDec s))
    (hre : ∀ s, P s → P (resetEnc s)) (hf : ∀ r s, P s → P (putFunc r s)) {st : Stim} {s t : State}
    (hs : P s) (h : stepOn st s = .next t) : P t := by
  cases st with
  | dec p =>
    cases hr : p.rst with
    | false => rw [stepOn_dec hr] at h; exact hd _ s t hs h
    | true => rw [stepOn_dec_rst hr] at h; cases h; exact hrd s hs
  | enc p =>
    cases hr : p.rst with
    | false => rw [stepOn_enc hr] at h; exact he _ s t hs h
    | true => rw [stepOn_enc_rst hr] at h; cases h; exact hre s hs
  | reset => cases h; exact hre _ (hrd s hs)
  | frame side ty p => rw [stepOn_frame] at h; exact runFrame_keeps hd he hs h
  | func f =>
    obtain ⟨r, hr⟩ := stepOn_func f s
    rw [hr] at h; cases h; exact hf r s hs

end Sys2Proof.Machine
end

section
/-! The invariants of the two units (10_state R18, R27), state by state, and that every step keeps them. -/

namespace Sys2Proof.Machine

/-! ### Byte sequences in buffers, and their fold -/

@[simp] theorem absorb_zero_left (b : Byte) : absorb 0#8 b = b := BitVec.zero_xor

/-- A count below another byte does not wrap. -/
theorem toNat_succ_of_lt {a b : Byte} (h : a.toNat < b.toNat) : (a + 1#8).toNat = a.toNat + 1 := by bv_omega

/-- A read of a buffer that holds a byte sequence. -/
theorem Memory.holds.read {m : Memory} {n : Nat} (h : m.holds n) (i : Nat) : m.read i = m.bytes[i]? := by
  rw [h.1, Memory.read_ofBytes, Memory.bytes_ofBytes]

/-- The byte after the last one stored is appended. -/
theorem Memory.holds.write {m : Memory} {n : Nat} (h : m.holds n) (b : Byte) :
    m.write n b = Memory.ofBytes (m.bytes ++ [b]) := by
  obtain ⟨hm, hn⟩ := h
  rw [← hn, ← Memory.write_ofBytes_end, ← hm]

theorem Memory.holds.holds_write {m : Memory} {n : Nat} (h : m.holds n) (b : Byte) : (m.write n b).holds (n + 1) := by
  simp [Memory.holds, h.write b, h.2]

/-- The fold over a span that ends in the byte just stored. -/
theorem Memory.holds.chk_write {m : Memory} {n : Nat} (h : m.holds n) (l b : Byte) :
    chk (l :: (m.write n b).bytes) = absorb (chk (l :: m.bytes)) b := by
  rw [h.write b, Memory.bytes_ofBytes, ← List.cons_append, chk_concat]

/-! ### DEC (R18) -/

theorem DecRegs.canonicalIdle_inv (c : Config) : DecRegs.canonicalIdle.Inv c := ⟨fun _ => rfl, nofun, nofun⟩

theorem DecRegs.inv_awaitBody {c : Config} {d : DecRegs} (hs : d.state = .awaitBody) :
    d.Inv c ↔ 1 ≤ d.len.toNat ∧ d.cnt.toNat < d.len.toNat ∧ d.idle < c.frameTimeoutTicks ∧
      d.acc = chk (d.len :: d.buf.bytes) ∧ d.buf.holds d.cnt.toNat := by
  simp [DecRegs.Inv, hs]

theorem DecRegs.inv_awaitChecksum {c : Config} {d : DecRegs} (hs : d.state = .awaitChecksum) :
    d.Inv c ↔ 1 ≤ d.len.toNat ∧ d.cnt = d.len ∧ d.idle < c.frameTimeoutTicks ∧
      d.acc = chk (d.len :: d.buf.bytes) ∧ d.buf.holds d.len.toNat := by
  simp [DecRegs.Inv, hs]

/-- R112, R113 and the idle step. -/
theorem decStepLength_keeps_inv {y : LinkSym} {s t : State} (hc : s.cfg.Valid) (hi : s.dec.Inv s.cfg)
    (h : decStepLength y s = .next t) : t.dec.Inv s.cfg := by
  unfold decStepLength at h
  split at h
  · next b =>
    split at h
    · cases h; exact DecRegs.canonicalIdle_inv _
    · next hb =>
      cases h
      have hpos : 1 ≤ b.toNat := by bv_omega
      exact (DecRegs.inv_awaitBody rfl).2 ⟨hpos, hpos, hc, by simp [decLatch], rfl, rfl⟩
  · cases h; exact hi

/-- R115: a stored byte leaves the count below the length, and the last one makes them equal. -/
theorem decStore_keeps_inv {b : Byte} {s t : State} (hs : s.dec.state = .awaitBody) (hi : s.dec.Inv s.cfg)
    (h : decStore b (if lastBody s.dec then .awaitChecksum else .awaitBody) s = .next t) : t.dec.Inv s.cfg := by
  obtain ⟨hlen, hcnt, hidle, hacc, hbuf⟩ := (DecRegs.inv_awaitBody hs).1 hi
  obtain ⟨-, rfl⟩ := decStore_eq_next.1 h
  have hsucc := toNat_succ_of_lt hcnt
  have hacc' : absorb s.dec.acc b = chk (s.dec.len :: (s.dec.buf.write s.dec.cnt.toNat b).bytes) := by
    rw [hbuf.chk_write, hacc]
  have hbuf' := hbuf.holds_write b
  rw [← hsucc] at hbuf'
  by_cases hl : s.dec.cnt.toNat + 1 = s.dec.len.toNat
  · have heq : s.dec.cnt + 1#8 = s.dec.len := BitVec.eq_of_toNat_eq (hsucc.trans hl)
    rw [heq] at hbuf'
    exact (DecRegs.inv_awaitChecksum (by simp [lastBody, hl])).2 ⟨hlen, heq, hidle, hacc', hbuf'⟩
  · have hlt : (s.dec.cnt + 1#8).toNat < s.dec.len.toNat := by omega
    exact (DecRegs.inv_awaitBody (by simp [lastBody, hl])).2 ⟨hlen, hlt, hidle, hacc', hbuf'⟩

/-- R115 to R117. -/
theorem decStepBody_keeps_inv {y : LinkSym} {s t : State} (hs : s.dec.state = .awaitBody) (hi : s.dec.Inv s.cfg)
    (h : decStepBody y s = .next t) : t.dec.Inv s.cfg := by
  unfold decStepBody at h
  split at h
  · rw [← apply_ite (fun after => decStore _ after s)] at h
    exact decStore_keeps_inv hs hi h
  · split at h
    · cases h; exact DecRegs.canonicalIdle_inv _
    · next hx =>
      cases h
      obtain ⟨hlen, hcnt, -, hacc, hbuf⟩ := (DecRegs.inv_awaitBody hs).1 hi
      have hidle : s.dec.idle + 1 < s.cfg.frameTimeoutTicks := by simpa [expires] using hx
      exact (DecRegs.inv_awaitBody (d := { s.dec with idle := s.dec.idle + 1 }) hs).2 ⟨hlen, hcnt, hidle, hacc, hbuf⟩

/-- R119 to R121: every step in AWAIT_CHECKSUM ends in the canonical idle state. -/
theorem decStepChecksum_dec {y : LinkSym} {s t : State} (h : decStepChecksum y s = .next t) :
    t.dec = DecRegs.canonicalIdle := by
  unfold decStepChecksum at h
  split at h
  · split at h
    · obtain ⟨_, _, rfl⟩ := decDeliver_eq_next h; rfl
    · cases h; rfl
  · cases h; rfl

theorem decStep_keeps_inv {y : LinkSym} {s t : State} (hc : s.cfg.Valid) (hi : s.dec.Inv s.cfg)
    (h : decStep y s = .next t) : t.dec.Inv s.cfg := by
  cases hs : s.dec.state <;> simp only [decStep, hs] at h
  case awaitLength => exact decStepLength_keeps_inv hc hi h
  case awaitBody => exact decStepBody_keeps_inv hs hi h
  case awaitChecksum => rw [decStepChecksum_dec h]; exact DecRegs.canonicalIdle_inv _

/-! ### ENC (R27) -/

theorem EncRegs.canonicalIdle_inv : EncRegs.canonicalIdle.Inv :=
  ⟨fun _ => rfl, fun h => absurd rfl h, nofun, nofun, nofun, nofun⟩

theorem EncRegs.inv_len {e : EncRegs} (hs : e.state = .len) :
    e.Inv ↔ (1 ≤ e.len.toNat ∧ e.pay.holds (e.len.toNat - 1)) ∧ e.idx = 0#8 ∧ e.acc = 0#8 := by
  simp [EncRegs.Inv, hs]

theorem EncRegs.inv_type {e : EncRegs} (hs : e.state = .type) :
    e.Inv ↔ (1 ≤ e.len.toNat ∧ e.pay.holds (e.len.toNat - 1)) ∧ e.idx = 0#8 ∧ e.acc = chk [e.len] := by
  simp [EncRegs.Inv, hs]

theorem EncRegs.inv_payload {e : EncRegs} (hs : e.state = .payload) :
    e.Inv ↔ (1 ≤ e.len.toNat ∧ e.pay.holds (e.len.toNat - 1)) ∧ 2 ≤ e.len.toNat ∧ e.idx.toNat < e.len.toNat - 1 ∧
      e.acc = chk (e.len :: e.type :: e.pay.bytes.take e.idx.toNat) := by
  simp [EncRegs.Inv, hs]

theorem EncRegs.inv_chk {e : EncRegs} (hs : e.state = .chk) :
    e.Inv ↔ (1 ≤ e.len.toNat ∧ e.pay.holds (e.len.toNat - 1)) ∧ e.idx = 0#8 ∧
      e.acc = chk (e.len :: e.type :: e.pay.bytes) := by
  simp [EncRegs.Inv, hs]

/-- R91 to R93. -/
theorem encStepIdle_keeps_inv {p : EncIn} {s t : State} (hi : s.enc.Inv) (h : encStepIdle p s = .next t) :
    t.enc.Inv := by
  unfold encStepIdle at h
  split at h
  · next hst =>
    split at h
    · cases h; exact hi
    · next ho =>
      cases h
      have hle : p.payIn.length ≤ 254 := by simpa [oversized, hst, payloadMax] using ho
      have hlen := lengthByte_toNat hle
      refine (EncRegs.inv_len rfl).2 ⟨⟨?_, ?_, ?_⟩, rfl, rfl⟩ <;> simp only [encAccept, encCommit_enc, hlen]
      · omega
      · rw [Memory.bytes_ofBytes]
      · rw [Memory.bytes_ofBytes]; omega
  · cases h; exact hi

/-- R97. -/
theorem encSendLen_keeps_inv {s : State} (hs : s.enc.state = .len) (hi : s.enc.Inv) : (encSendLen s).enc.Inv := by
  obtain ⟨hpay, hidx, hacc⟩ := (EncRegs.inv_len hs).1 hi
  exact (EncRegs.inv_type rfl).2 ⟨hpay, hidx, by simp [encSendLen, encSend, hacc]⟩

/-- R98: the payload follows, or, if it is empty, the checksum. -/
theorem encSendType_keeps_inv {s : State} (hs : s.enc.state = .type) (hi : s.enc.Inv) :
    (encSendType (if noPayload s.enc then .chk else .payload) s).enc.Inv := by
  obtain ⟨⟨hlen, hpay⟩, hidx, hacc⟩ := (EncRegs.inv_type hs).1 hi
  have hacc' : absorb s.enc.acc s.enc.type = chk [s.enc.len, s.enc.type] := by
    rw [hacc, ← chk_concat]; rfl
  by_cases hone : s.enc.len = 1#8
  · have hnil : s.enc.pay.bytes = [] := List.length_eq_zero_iff.1 (by rw [hpay.2, hone]; rfl)
    refine (EncRegs.inv_chk (by simp [encSendType, encSend, noPayload, hone])).2 ⟨⟨hlen, hpay⟩, hidx, ?_⟩
    simpa [encSendType, encSend, hnil] using hacc'
  · have htwo : 2 ≤ s.enc.len.toNat := by bv_omega
    refine (EncRegs.inv_payload (by simp [encSendType, encSend, noPayload, hone])).2 ⟨⟨hlen, hpay⟩, htwo, ?_, ?_⟩
    · simp [encSendType, encSend, hidx]; omega
    · simpa [encSendType, encSend, hidx] using hacc'

/-- The accumulator after the payload byte on offer is absorbed (R24, R99). -/
theorem EncRegs.absorb_payload {e : EncRegs} {b : Byte} (hs : e.state = .payload) (hi : e.Inv)
    (hb : e.pay.read e.idx.toNat = some b) :
    absorb e.acc b = chk (e.len :: e.type :: e.pay.bytes.take (e.idx.toNat + 1)) := by
  obtain ⟨⟨-, hpay⟩, -, -, hacc⟩ := (EncRegs.inv_payload hs).1 hi
  rw [hpay.read] at hb
  rw [hacc, ← chk_concat, List.take_add_one, hb]
  rfl

/-- R99, `lastp = 1`. -/
theorem encSendPayloadLast_keeps_inv {s : State} {b : Byte} (hs : s.enc.state = .payload) (hi : s.enc.Inv)
    (hl : lastPayload s.enc = true) (hb : s.enc.pay.read s.enc.idx.toNat = some b) :
    (encSendPayloadLast b s).enc.Inv := by
  obtain ⟨⟨hlen, hpay⟩, -, -, -⟩ := (EncRegs.inv_payload hs).1 hi
  have hall : s.enc.pay.bytes.take (s.enc.idx.toNat + 1) = s.enc.pay.bytes := by
    have hidx : s.enc.idx.toNat + 1 = s.enc.len.toNat - 1 := by simpa [lastPayload] using hl
    rw [hidx, ← hpay.2, List.take_length]
  have hacc := EncRegs.absorb_payload hs hi hb
  rw [hall] at hacc
  exact (EncRegs.inv_chk rfl).2 ⟨⟨hlen, hpay⟩, rfl, hacc⟩

/-- R99, `lastp = 0`. -/
theorem encSendPayload_keeps_inv {s : State} {b : Byte} (hs : s.enc.state = .payload) (hi : s.enc.Inv)
    (hl : lastPayload s.enc ≠ true) (hb : s.enc.pay.read s.enc.idx.toNat = some b) : (encSendPayload b s).enc.Inv := by
  obtain ⟨hpay, htwo, hidx, -⟩ := (EncRegs.inv_payload hs).1 hi
  have hne : s.enc.idx.toNat + 1 ≠ s.enc.len.toNat - 1 := by simpa [lastPayload] using hl
  have hsucc : (s.enc.idx + 1#8).toNat = s.enc.idx.toNat + 1 := toNat_succ_of_lt (by omega : _ < s.enc.len.toNat)
  have hlt : (s.enc.idx + 1#8).toNat < s.enc.len.toNat - 1 := by omega
  have hacc := EncRegs.absorb_payload hs hi hb
  rw [← hsucc] at hacc
  exact (EncRegs.inv_payload (e := (encSendPayload b s).enc) hs).2 ⟨hpay, htwo, hlt, hacc⟩

/-- R95, R99. -/
theorem encStepPayload_keeps_inv {rdy : Bool} {s t : State} (hs : s.enc.state = .payload) (hi : s.enc.Inv)
    (h : encStepPayload rdy s = .next t) : t.enc.Inv := by
  unfold encStepPayload at h
  split at h
  · split at h
    · next hl =>
      obtain ⟨b, hb, rfl⟩ := withPayloadByte_eq_next.1 h
      exact encSendPayloadLast_keeps_inv hs hi hl hb
    · next hl =>
      obtain ⟨b, hb, rfl⟩ := withPayloadByte_eq_next.1 h
      exact encSendPayload_keeps_inv hs hi hl hb
  · obtain ⟨b, -, rfl⟩ := withPayloadByte_eq_next.1 h
    exact hi

theorem encStep_keeps_inv {p : EncIn} {s t : State} (hi : s.enc.Inv) (h : encStep p s = .next t) : t.enc.Inv := by
  cases hs : s.enc.state <;> simp only [encStep, hs] at h
  case idle => exact encStepIdle_keeps_inv hi h
  case len =>
    split at h <;> cases h
    · exact encSendLen_keeps_inv hs hi
    · exact hi
  case type =>
    split at h <;> cases h
    · exact encSendType_keeps_inv hs hi
    · exact hi
  case payload => exact encStepPayload_keeps_inv hs hi h
  case chk =>
    split at h <;> cases h
    · exact EncRegs.canonicalIdle_inv
    · exact hi

/-! ### The machine -/

theorem keptByDec_inv : KeptByDec State.Inv := by
  rintro y s t ⟨hc, hd, he⟩ h
  have hd' := decStep_keeps_inv hc hd h
  obtain ⟨ev, d, rfl⟩ := decStep_eq_next h
  exact ⟨hc, hd', he⟩

theorem keptByEnc_inv : KeptByEnc State.Inv := by
  rintro p s t ⟨hc, hd, he⟩ h
  have he' := encStep_keeps_inv he h
  obtain ⟨o, sent, e, rfl⟩ := encStep_eq_next h
  exact ⟨hc, hd, he'⟩

/-- A reset step of both units meets the invariant, whatever they held (R35). -/
theorem reset_establishes_inv {s : State} (hc : s.cfg.Valid) : (resetEnc (resetDec s)).Inv :=
  ⟨hc, DecRegs.canonicalIdle_inv _, EncRegs.canonicalIdle_inv⟩

theorem stepOn_keeps_inv {st : Stim} {s t : State} (hi : s.Inv) (h : stepOn st s = .next t) : t.Inv :=
  stepOn_keeps keptByDec_inv keptByEnc_inv (fun _ ⟨hc, _, he⟩ => ⟨hc, DecRegs.canonicalIdle_inv _, he⟩)
    (fun _ ⟨hc, hd, _⟩ => ⟨hc, hd, EncRegs.canonicalIdle_inv⟩) (fun _ _ hi => hi) hi h

theorem step_keeps_inv {s t : State} (hi : s.Inv) (h : step s = .next t) : t.Inv := by
  unfold step at h
  split at h
  · cases h; exact hi
  · next st rest _ =>
    have hi' : State.Inv { s with pending := rest } := hi
    exact stepOn_keeps_inv hi' h

/-- Settles O49: the reset step ends in both canonical idle states, and each input is made of unit steps that keep the
invariants. -/
theorem stepKeepsInvariant : Obligations.StepKeepsInvariant :=
  ⟨fun s hc => ⟨resetEnc (resetDec s), rfl, reset_establishes_inv hc⟩, fun _ _ => step_keeps_inv⟩

end Sys2Proof.Machine
end

section
/-! The checksum as a sum in the group of bytes under XOR (40_checksum R80, R83). -/

namespace Sys2Proof

theorem absorb_right_comm (a b c : Byte) : absorb (absorb a b) c = absorb (absorb a c) b := by
  simp only [absorb, BitVec.xor_assoc, BitVec.xor_comm b c]

/-- `Chk(s ++ t) = Chk(s) ^ Chk(t)` (40_checksum R83), from R80 byte by byte of `t`. -/
theorem chk_append (s t : List Byte) : chk (s ++ t) = chk s ^^^ chk t := by
  induction t using List.reverseRecOn with
  | nil => simp
  | append_singleton t b ih => rw [← List.append_assoc, chk_concat, chk_concat, ih, absorb, absorb, BitVec.xor_assoc]

/-- The order of the bytes does not matter (40_checksum R83), since that of two absorbs does not. -/
theorem chk_perm {s s' : List Byte} (h : s'.Perm s) : chk s' = chk s :=
  h.foldl_eq' (fun x _ y _ a => absorb_right_comm a x y) 0#8

/-- A span closed by its own checksum folds to zero (40_checksum R83). -/
theorem chk_concat_chk (s : List Byte) : chk (s ++ [chk s]) = 0#8 := by
  rw [chk_concat, absorb, BitVec.xor_self]

/-- Settles O8: XOR is a commutative group of exponent two, and the fold is a homomorphism from lists under `++`. -/
theorem chkAlgebra : Obligations.ChkAlgebra :=
  ⟨BitVec.xor_comm, BitVec.xor_assoc, fun _ => BitVec.xor_zero, fun _ => BitVec.xor_self,
    chk_append, fun _ _ => chk_perm, chk_concat_chk⟩

end Sys2Proof
end

section
/-! CHK.CLEAR and CHK.ABSORB on an accumulator register (40_checksum R81). -/

namespace Sys2Proof.Machine

theorem exec_chkClear (r : AccReg) (s : State) : exec (.chkClear r) s = .next (putAcc r 0#8 s) := rfl

theorem exec_chkAbsorb (r : AccReg) (b : Byte) (s : State) :
    exec (.chkAbsorb r b) s = .next (putAcc r (absorb (getAcc r s) b) s) := rfl

@[simp] theorem putAcc_getAcc (r : AccReg) (s : State) : putAcc r (getAcc r s) s = s := by cases r <;> rfl

/-- A run of CHK.ABSORB folds the bytes into the accumulator and changes nothing else. -/
theorem foldl_chkAbsorb (r : AccReg) (bs : List Byte) (s : State) :
    bs.foldl (fun o b => andThen o (exec (.chkAbsorb r b))) (.next s)
      = .next (putAcc r (bs.foldl absorb (getAcc r s)) s) := by
  induction bs generalizing s with
  | nil => simp
  | cons b bs ih => simp [exec_chkAbsorb, ih]

/-- CHK.CLEAR and then a run of CHK.ABSORB: the accumulator is the fold, and nothing else changes (40_checksum R81). -/
theorem foldl_chkAbsorb_chkClear (r : AccReg) (bs : List Byte) (s : State) :
    bs.foldl (fun o b => andThen o (exec (.chkAbsorb r b))) (exec (.chkClear r) s) = .next (putAcc r (chk bs) s) := by
  rw [exec_chkClear, foldl_chkAbsorb, getAcc_putAcc, putAcc_putAcc, chk]

/-- Settles O7: both rows write the accumulator alone, and the run after a clear is the fold from zero. -/
theorem accumulatorFormFolds : Obligations.AccumulatorFormFolds :=
  ⟨exec_chkClear .dec, exec_chkClear .enc, fun s b => exec_chkAbsorb .dec b s, fun s b => exec_chkAbsorb .enc b s,
    fun r bs s => ⟨_, foldl_chkAbsorb_chkClear r bs s, getAcc_putAcc r (chk bs) s⟩⟩

end Sys2Proof.Machine
end

section
/-! One ENC step in closed form: the byte the multiplexer offers (41_encoder R96), the registers after it is transferred (R97
to R100), and the row that the step selects in each state (30_encoding R71). -/

namespace Sys2Proof.Machine

/-- The output multiplexer (R96): the byte on offer; none in ENC_IDLE, or where the payload cell holds no value. -/
def EncRegs.offered (e : EncRegs) : Option Byte :=
  match e.state with
  | .idle => none
  | .len => some e.len
  | .type => some e.type
  | .payload => e.pay.read e.idx.toNat
  | .chk => some e.acc

/-- The registers after the byte `b` on offer is transferred (R97 to R100). -/
def EncRegs.afterSend (e : EncRegs) (b : Byte) : EncRegs :=
  match e.state with
  | .idle => e
  | .len => { e with acc := absorb e.acc b, state := .type }
  | .type => { e with acc := absorb e.acc b, state := if noPayload e then .chk else .payload }
  | .payload =>
    if lastPayload e then { e with acc := absorb e.acc b, state := .chk, idx := 0#8 }
    else { e with acc := absorb e.acc b, idx := e.idx + 1#8 }
  | .chk => EncRegs.canonicalIdle

/-- What a step outside ENC_IDLE leaves, with the byte `b` on offer (R95, R97 to R100). -/
def encOffer (b : Byte) (ready : Bool) (s : State) : State :=
  if ready then encCommit (offerOut b (decide (s.enc.state = .chk))) [b] (s.enc.afterSend b) s else encHold b s

/-! ### The step -/

theorem encStep_idle {s : State} (hs : s.enc.state = .idle) (p : EncIn) : encStep p s = encStepIdle p s := by
  simp [encStep, hs]

theorem oversized_of_no_command {p : EncIn} (hst : p.start = false) : oversized p = false := by simp [oversized, hst]

theorem oversized_of_fits {p : EncIn} (hl : p.payIn.length ≤ 254) : oversized p = false := by
  simp [oversized, payloadMax, hl]

theorem oversized_of_too_long {p : EncIn} (hst : p.start = true) (hl : 255 ≤ p.payIn.length) : oversized p = true := by
  have hl' : 254 < p.payIn.length := hl
  simp [oversized, payloadMax, hst, hl']

/-- Outside ENC_IDLE a step offers the multiplexer's byte, whatever command is presented (R94, R95, R97 to R100). -/
theorem encStep_of_offered {p : EncIn} {s : State} {b : Byte} (hb : s.enc.offered = some b) :
    encStep p s = .next (encOffer b p.txReady s) := by
  cases hs : s.enc.state <;> simp only [EncRegs.offered, hs, Option.some.injEq, reduceCtorEq] at hb
  case len => subst hb; cases hr : p.txReady <;> simp [encStep, encOffer, EncRegs.afterSend, encSendLen, encSend, hs, hr]
  case type =>
    subst hb; cases hr : p.txReady <;> simp [encStep, encOffer, EncRegs.afterSend, encSendType, encSend, hs, hr]
  case payload =>
    cases hr : p.txReady <;> cases hl : lastPayload s.enc <;>
      simp [encStep, encStepPayload, withPayloadByte_ok hb, encOffer, EncRegs.afterSend, encSendPayload,
        encSendPayloadLast, encSend, hs, hr, hl]
  case chk => subst hb; cases hr : p.txReady <;> simp [encStep, encOffer, EncRegs.afterSend, encFinish, hs, hr]

/-- Everything a step outside ENC_IDLE can do when it answers a next state. -/
theorem encStep_busy_eq_next {p : EncIn} {s t : State} (hs : s.enc.state ≠ .idle) (h : encStep p s = .next t) :
    ∃ b, s.enc.offered = some b ∧ t = encOffer b p.txReady s := by
  obtain ⟨b, hb⟩ : ∃ b, s.enc.offered = some b := by
    cases hst : s.enc.state <;> simp only [EncRegs.offered, hst]
    case idle => exact absurd hst hs
    case payload =>
      simp only [encStep, encStepPayload, hst] at h
      split_ifs at h <;> (obtain ⟨b, hb, -⟩ := withPayloadByte_eq_next.1 h; exact ⟨b, hb⟩)
    all_goals exact ⟨_, rfl⟩
  rw [encStep_of_offered hb] at h
  exact ⟨b, hb, (Host.Outcome.next.inj h).symm⟩

/-- Outside ENC_IDLE a step looks at `tx_ready` alone (R94). -/
theorem encStep_busy_congr {p q : EncIn} {s : State} (hs : s.enc.state ≠ .idle) (hr : p.txReady = q.txReady) :
    encStep p s = encStep q s := by
  cases hst : s.enc.state <;> simp only [encStep, hst, hr]
  case idle => exact absurd hst hs

/-! ### The row -/

section
variable {p : EncIn} {s : State} (hr : p.rst = false)
include hr

/-- The row of a step with `rst = 0` is the one that `W` hits. -/
theorem fetchInstr_enc {r : EncSelRow} (h : selectEncRow (encSelWord s.enc p) = some r) :
    fetchInstr (.enc p) s = encSelInstr r p.typeIn p.payIn := by
  simp [fetchInstr, fetchEnc, hr, decodeEncSel, h]

theorem fetchInstr_enc_nop (hs : s.enc.state = .idle) (hst : p.start = false) :
    fetchInstr (.enc p) s = some .encIdleNop := by
  rw [fetchInstr_enc hr (r := .idleNop) (by simp [selectEncRow_encSelWord, hs, hst])]; rfl

theorem fetchInstr_enc_accept (hs : s.enc.state = .idle) (hst : p.start = true) (hl : p.payIn.length ≤ 254) :
    fetchInstr (.enc p) s = some (.encIdleAccept p.typeIn p.payIn) := by
  rw [fetchInstr_enc hr (r := .idleAccept) (by simp [selectEncRow_encSelWord, hs, hst, oversized_of_fits hl])]
  simp [encSelInstr, payloadMax, hl]

theorem fetchInstr_enc_reject (hs : s.enc.state = .idle) (hst : p.start = true) (hl : 255 ≤ p.payIn.length) :
    fetchInstr (.enc p) s = some (.encIdleReject p.typeIn p.payIn) := by
  rw [fetchInstr_enc hr (r := .idleReject) (by simp [selectEncRow_encSelWord, hs, hst, oversized_of_too_long hst hl])]
  have hl' : ¬ p.payIn.length ≤ 254 := by omega
  simp [encSelInstr, payloadMax, hl']

theorem fetchInstr_enc_len (hs : s.enc.state = .len) :
    fetchInstr (.enc p) s = some (if p.txReady then .encLenEmit else .encLenStall) := by
  rw [fetchInstr_enc hr (by rw [selectEncRow_encSelWord, hs])]
  cases p.txReady <;> rfl

theorem fetchInstr_enc_type (hs : s.enc.state = .type) :
    fetchInstr (.enc p) s
      = some (if p.txReady then if noPayload s.enc then .encTypeEmitEmpty else .encTypeEmit else .encTypeStall) := by
  rw [fetchInstr_enc hr (by rw [selectEncRow_encSelWord, hs])]
  cases p.txReady <;> cases noPayload s.enc <;> rfl

theorem fetchInstr_enc_payload (hs : s.enc.state = .payload) :
    fetchInstr (.enc p) s = some (if p.txReady then if lastPayload s.enc then .encPayloadEmitLast else .encPayloadEmit
      else .encPayloadStall) := by
  rw [fetchInstr_enc hr (by rw [selectEncRow_encSelWord, hs])]
  cases p.txReady <;> cases lastPayload s.enc <;> rfl

theorem fetchInstr_enc_chk (hs : s.enc.state = .chk) :
    fetchInstr (.enc p) s = some (if p.txReady then .encChkEmit else .encChkStall) := by
  rw [fetchInstr_enc hr (by rw [selectEncRow_encSelWord, hs])]
  cases p.txReady <;> rfl

/-- The row that a step selects does what the step does. -/
theorem exec_of_fetchInstr_enc {i : Instr} (h : fetchInstr (.enc p) s = some i) : exec i s = encStep p s := by
  simpa [stepOn, h] using stepOn_enc hr s

end

/-- Outside ENC_IDLE the row does not depend on the command (R94). -/
theorem fetchInstr_enc_congr {p q : EncIn} {s : State} (hs : s.enc.state ≠ .idle) (hp : p.rst = false)
    (hq : q.rst = false) (hr : p.txReady = q.txReady) : fetchInstr (.enc p) s = fetchInstr (.enc q) s := by
  cases hst : s.enc.state
  case idle => exact absurd hst hs
  case len => rw [fetchInstr_enc_len hp hst, fetchInstr_enc_len hq hst, hr]
  case type => rw [fetchInstr_enc_type hp hst, fetchInstr_enc_type hq hst, hr]
  case payload => rw [fetchInstr_enc_payload hp hst, fetchInstr_enc_payload hq hst, hr]
  case chk => rw [fetchInstr_enc_chk hp hst, fetchInstr_enc_chk hq hst, hr]

end Sys2Proof.Machine
end

section
/-! The rules of ENC in ENC_IDLE (41_encoder R91 to R93). -/

namespace Sys2Proof.Machine

/-- A step in which no byte is transferred. -/
theorem encCommit_nil (o : EncOut) (e : EncRegs) (s : State) :
    encCommit o [] e s = { s with enc := e, encOut := o } := by simp [encCommit]

/-- Settles O28: the row is the step without a command. -/
theorem encIdleChangesNothing : Obligations.EncIdleChangesNothing := by
  intro s hs
  have hrow : ∀ p : EncIn, p.rst = false → p.start = false → fetchInstr (.enc p) s = some .encIdleNop :=
    fun p hr hst => fetchInstr_enc_nop hr hs hst
  refine ⟨?_, hrow⟩
  rw [exec_of_fetchInstr_enc rfl (hrow (EncIn.noCommand true) rfl rfl), encStep_idle hs]
  exact congrArg _ (encCommit_nil (idleOut none) s.enc s)

/-- A command that fits is latched (R92). -/
theorem encStep_accept {p : EncIn} {s : State} (hs : s.enc.state = .idle) (hst : p.start = true)
    (hl : p.payIn.length ≤ 254) : encStep p s = .next (encAccept p.typeIn p.payIn s) := by
  simp [encStep_idle hs, encStepIdle, hst, oversized_of_fits hl]

/-- A command that does not fit is rejected (R93). -/
theorem encStep_reject {p : EncIn} {s : State} (hs : s.enc.state = .idle) (hst : p.start = true)
    (hl : 255 ≤ p.payIn.length) : encStep p s = .next (takeReject .oversize s) := by
  simp [encStep_idle hs, encStepIdle, hst, oversized_of_too_long hst hl]

/-- Settles O29: the row is the step that presents the command; the latch is the payload as a buffer. -/
theorem encCommandIsLatched : Obligations.EncCommandIsLatched := by
  intro s t p hs hl
  have hrow : ∀ q : EncIn, q.rst = false → q.start = true → q.typeIn = t → q.payIn = p →
      fetchInstr (.enc q) s = some (.encIdleAccept t p) := by
    rintro q hr hst rfl rfl
    exact fetchInstr_enc_accept hr hs hst hl
  refine ⟨BitVec.ofNat 8 (1 + p.length), Memory.ofBytes p, lengthByte_toNat hl, (Memory.read_ofBytes · p), ?_, hrow⟩
  rw [exec_of_fetchInstr_enc rfl (hrow (EncIn.command t p true) rfl rfl rfl rfl), encStep_accept hs rfl hl]
  exact congrArg _ (encCommit_nil ..)

/-- Settles O30: the row is the step that presents the command. -/
theorem encOversizeIsRejected : Obligations.EncOversizeIsRejected := by
  intro s t p hs hl
  have hrow : ∀ q : EncIn, q.rst = false → q.start = true → q.typeIn = t → q.payIn = p →
      fetchInstr (.enc q) s = some (.encIdleReject t p) := by
    rintro q hr hst rfl rfl
    exact fetchInstr_enc_reject hr hs hst hl
  refine ⟨?_, fun o ho => by simp [EncOut.encReject, EncOut.encCause, RejectCause.code, ho], hrow⟩
  rw [exec_of_fetchInstr_enc rfl (hrow (EncIn.command t p true) rfl rfl rfl rfl), encStep_reject hs rfl hl]
  exact congrArg _ (encCommit_nil ..)

end Sys2Proof.Machine
end

section
/-! The rules of ENC outside ENC_IDLE (41_encoder R94 to R100). -/

namespace Sys2Proof.Machine

section
variable {i : Instr} {s : State} {b : Byte} (hb : s.enc.offered = some b)
include hb

/-- A row selected with `tx_ready = 0` offers the byte and changes no register (R95). -/
theorem exec_stall_row (hrow : ∀ p : EncIn, p.rst = false → p.txReady = false → fetchInstr (.enc p) s = some i) :
    exec i s = .next { s with encOut := offerOut b false } := by
  rw [exec_of_fetchInstr_enc rfl (hrow (EncIn.noCommand false) rfl rfl), encStep_of_offered hb]
  exact congrArg _ (encCommit_nil (offerOut b false) s.enc s)

/-- A row selected with `tx_ready = 1` transfers the byte (R97 to R100). -/
theorem exec_emit_row (hrow : ∀ p : EncIn, p.rst = false → p.txReady = true → fetchInstr (.enc p) s = some i) :
    exec i s = .next { s with
      enc := s.enc.afterSend b, encOut := offerOut b (decide (s.enc.state = .chk)), txLog := s.txLog ++ [b] } := by
  rw [exec_of_fetchInstr_enc rfl (hrow (EncIn.noCommand true) rfl rfl), encStep_of_offered hb]
  rfl

end

/-- Settles O31: in each of the four states the row is the stall, with that state's byte on offer. -/
theorem encStallsWithoutReady : Obligations.EncStallsWithoutReady := by
  intro s
  refine ⟨fun hs => ?len, fun hs => ?type, fun hs b hb => ?payload, fun hs => ?chk⟩
  case len =>
    have hrow : ∀ p : EncIn, p.rst = false → p.txReady = false → fetchInstr (.enc p) s = some .encLenStall :=
      fun p hr hy => by simp [fetchInstr_enc_len hr hs, hy]
    exact ⟨exec_stall_row (by simp [EncRegs.offered, hs]) hrow, hrow⟩
  case type =>
    have hrow : ∀ p : EncIn, p.rst = false → p.txReady = false → fetchInstr (.enc p) s = some .encTypeStall :=
      fun p hr hy => by simp [fetchInstr_enc_type hr hs, hy]
    exact ⟨exec_stall_row (by simp [EncRegs.offered, hs]) hrow, hrow⟩
  case payload =>
    have hrow : ∀ p : EncIn, p.rst = false → p.txReady = false → fetchInstr (.enc p) s = some .encPayloadStall :=
      fun p hr hy => by simp [fetchInstr_enc_payload hr hs, hy]
    exact ⟨exec_stall_row (by simp [EncRegs.offered, hs, hb]) hrow, hrow⟩
  case chk =>
    have hrow : ∀ p : EncIn, p.rst = false → p.txReady = false → fetchInstr (.enc p) s = some .encChkStall :=
      fun p hr hy => by simp [fetchInstr_enc_chk hr hs, hy]
    exact ⟨exec_stall_row (by simp [EncRegs.offered, hs]) hrow, hrow⟩

/-- Settles O32: the row is the step with `tx_ready = 1`, and the byte on offer is the length. -/
theorem encLengthByteIsSent : Obligations.EncLengthByteIsSent := by
  intro s hs
  have hrow : ∀ p : EncIn, p.rst = false → p.txReady = true → fetchInstr (.enc p) s = some .encLenEmit :=
    fun p hr hy => by simp [fetchInstr_enc_len hr hs, hy]
  refine ⟨?_, hrow⟩
  rw [exec_emit_row (b := s.enc.len) (by simp [EncRegs.offered, hs]) hrow]
  simp [EncRegs.afterSend, offerOut, absorb, hs]

/-- Settles O33: the two rows differ in the state after the byte. -/
theorem encTypeByteIsSent : Obligations.EncTypeByteIsSent := by
  intro s hs
  have hb : s.enc.offered = some s.enc.type := by simp [EncRegs.offered, hs]
  refine ⟨fun hl => ?more, fun hl => ?empty⟩
  case more =>
    have hn : noPayload s.enc = false := by simpa [noPayload] using hl
    have hrow : ∀ p : EncIn, p.rst = false → p.txReady = true → fetchInstr (.enc p) s = some .encTypeEmit :=
      fun p hr hy => by simp [fetchInstr_enc_type hr hs, hy, hn]
    refine ⟨?_, hrow⟩
    rw [exec_emit_row hb hrow]
    simp [EncRegs.afterSend, offerOut, absorb, hs, hn]
  case empty =>
    have hn : noPayload s.enc = true := by simpa [noPayload] using hl
    have hrow : ∀ p : EncIn, p.rst = false → p.txReady = true → fetchInstr (.enc p) s = some .encTypeEmitEmpty :=
      fun p hr hy => by simp [fetchInstr_enc_type hr hs, hy, hn]
    refine ⟨?_, hrow⟩
    rw [exec_emit_row hb hrow]
    simp [EncRegs.afterSend, offerOut, absorb, hs, hn]

/-- The index of a payload byte that is not the last does not wrap (R99). -/
theorem EncRegs.idx_succ_le {e : EncRegs} (hs : e.state = .payload) (hi : e.Inv)
    (hl : e.idx.toNat + 1 ≠ e.len.toNat - 1) :
    (e.idx + 1#8).toNat = e.idx.toNat + 1 ∧ (e.idx + 1#8).toNat ≤ 253 := by
  obtain ⟨-, -, hidx, -⟩ := (EncRegs.inv_payload hs).1 hi
  have hsucc : (e.idx + 1#8).toNat = e.idx.toNat + 1 := toNat_succ_of_lt (by omega : _ < e.len.toNat)
  have := e.len.isLt
  omega

/-- Settles O34: the two rows differ in the state and the index after the byte. -/
theorem encPayloadByteIsSent : Obligations.EncPayloadByteIsSent := by
  intro s b hs hcell
  have hb : s.enc.offered = some b := by simp [EncRegs.offered, hs, hcell]
  refine ⟨fun hl => ?more, fun hl => ?last⟩
  case more =>
    have hn : lastPayload s.enc = false := by simpa [lastPayload] using hl
    have hrow : ∀ p : EncIn, p.rst = false → p.txReady = true → fetchInstr (.enc p) s = some .encPayloadEmit :=
      fun p hr hy => by simp [fetchInstr_enc_payload hr hs, hy, hn]
    refine ⟨?_, fun hi => EncRegs.idx_succ_le hs hi hl, hrow⟩
    rw [exec_emit_row hb hrow]
    simp [EncRegs.afterSend, offerOut, absorb, hs, hn]
  case last =>
    have hn : lastPayload s.enc = true := by simpa [lastPayload] using hl
    have hrow : ∀ p : EncIn, p.rst = false → p.txReady = true → fetchInstr (.enc p) s = some .encPayloadEmitLast :=
      fun p hr hy => by simp [fetchInstr_enc_payload hr hs, hy, hn]
    refine ⟨?_, hrow⟩
    rw [exec_emit_row hb hrow]
    simp [EncRegs.afterSend, offerOut, absorb, hs, hn]

/-- Settles O35: that the byte is the checksum is the invariant of ENC_CHK. -/
theorem encChecksumByteIsSent : Obligations.EncChecksumByteIsSent := by
  intro s hs
  have hrow : ∀ p : EncIn, p.rst = false → p.txReady = true → fetchInstr (.enc p) s = some .encChkEmit :=
    fun p hr hy => by simp [fetchInstr_enc_chk hr hs, hy]
  refine ⟨?_, fun hi => ((EncRegs.inv_chk hs).1 hi).2.2, hrow⟩
  rw [exec_emit_row (b := s.enc.acc) (by simp [EncRegs.offered, hs]) hrow]
  simp [EncRegs.afterSend, EncRegs.canonicalIdle, offerOut, hs]

/-! ### The ports -/

@[simp] theorem encOffer_encOut (b : Byte) (ready : Bool) (s : State) :
    (encOffer b ready s).encOut = offerOut b (decide (s.enc.state = .chk) && ready) := by
  cases ready <;> simp [encOffer, encHold]

@[simp] theorem encOffer_txLog (b : Byte) (ready : Bool) (s : State) :
    (encOffer b ready s).txLog = s.txLog ++ (if ready then [b] else []) := by
  cases ready <;> simp [encOffer, encHold]

/-- Settles O36: neither the row nor the step looks at the command, and the outputs are those of an offer. -/
theorem busyEncIgnoresCommands : Obligations.BusyEncIgnoresCommands := by
  intro s p q hs hp hq hr
  refine ⟨?_, fetchInstr_enc_congr hs hp hq hr, fun t ht => ?_⟩
  · rw [stepOn_enc hp, stepOn_enc hq, encStep_busy_congr hs hr]
  · rw [stepOn_enc hp] at ht
    obtain ⟨b, -, rfl⟩ := encStep_busy_eq_next hs ht
    simp [offerOut, EncOut.encReject, EncOut.encCause]

/-- Everything a step in ENC_IDLE puts out (R91 to R93). -/
theorem encStep_idle_out {p : EncIn} {s t : State} (hs : s.enc.state = .idle) (h : encStep p s = .next t) :
    t.encOut = idleOut (if oversized p then some .oversize else none) ∧ t.txLog = s.txLog := by
  rw [encStep_idle hs, encStepIdle] at h
  cases hst : p.start <;> cases ho : oversized p <;> simp only [hst, ho] at h <;> cases h
  case false.false => simp [encNothing]
  case false.true => simp [oversized_of_no_command hst] at ho
  case true.false => simp [encAccept]
  case true.true => simp [takeReject]

/-- Settles O37: an idle step puts out what its command asks for, any other the multiplexer's byte. -/
theorem encOutputPorts : Obligations.EncOutputPorts := by
  intro s t p hr h
  rw [stepOn_enc hr] at h
  change _ ∧ _ ∧ t.encOut.txData = s.enc.offered ∧ _
  by_cases hs : s.enc.state = .idle
  · obtain ⟨hout, hlog⟩ := encStep_idle_out hs h
    have hover : (s.enc.state == .idle && p.start && decide (255 ≤ p.payIn.length)) = oversized p := by
      rw [hs]; rfl
    rw [hout, hlog, hover]
    cases oversized p <;>
      simp [hs, idleOut, EncRegs.offered, EncOut.encReject, EncOut.encCause, RejectCause.code]
  · obtain ⟨b, hb, rfl⟩ := encStep_busy_eq_next hs h
    simp [hs, hb, offerOut, EncOut.encReject, EncOut.encCause, beq_eq_decide]

end Sys2Proof.Machine
end

section
/-! Sequencer equals function (41_encoder R101): the registers of ENC stand for the wire bytes still to be sent, the byte on
offer is the first of them, and a transfer leaves the others. -/

namespace Sys2Proof.Machine

/-- The span of the frame being emitted: length, type, payload (30_encoding R60). -/
def EncRegs.span (e : EncRegs) : List Byte := e.len :: e.type :: e.pay.bytes

/-- The wire bytes still to be sent, by the state (10_state R20, R23). -/
def EncRegs.remaining (e : EncRegs) : List Byte :=
  match e.state with
  | .idle => []
  | .len => e.span ++ [chk e.span]
  | .type => e.type :: e.pay.bytes ++ [chk e.span]
  | .payload => e.pay.bytes.drop e.idx.toNat ++ [chk e.span]
  | .chk => [chk e.span]

theorem EncRegs.remaining_eq_nil {e : EncRegs} : e.remaining = [] ↔ e.state = .idle := by
  cases hs : e.state <;> simp [EncRegs.remaining, EncRegs.span, hs]

/-- Only the transfer of the checksum byte ends in ENC_IDLE. -/
theorem EncRegs.afterSend_state_idle {e : EncRegs} (hs : e.state ≠ .idle) (b : Byte) :
    (e.afterSend b).state = .idle ↔ e.state = .chk := by
  cases hst : e.state
  case idle => exact absurd hst hs
  case type => cases hn : noPayload e <;> simp [EncRegs.afterSend, hst, hn]
  case payload => cases hl : lastPayload e <;> simp [EncRegs.afterSend, hst, hl]
  all_goals simp [EncRegs.afterSend, EncRegs.canonicalIdle, hst]

/-- In ENC_PAYLOAD the byte on offer is the next of the payload, and after the last one the checksum is due. -/
theorem EncRegs.remaining_payload {e : EncRegs} (hs : e.state = .payload) (hi : e.Inv) :
    ∃ b, e.offered = some b ∧ e.remaining = b :: (e.afterSend b).remaining := by
  obtain ⟨⟨-, hpay⟩, -, hidx, -⟩ := (EncRegs.inv_payload hs).1 hi
  have hlt : e.idx.toNat < e.pay.bytes.length := by rw [hpay.2]; exact hidx
  have hdrop := List.drop_eq_getElem_cons hlt
  refine ⟨e.pay.bytes[e.idx.toNat], by simp [EncRegs.offered, hs, hpay.read, hlt], ?_⟩
  cases hl : lastPayload e with
  | true =>
    have hend : e.pay.bytes.drop (e.idx.toNat + 1) = [] := by
      have : e.idx.toNat + 1 = e.len.toNat - 1 := by simpa [lastPayload] using hl
      rw [this, ← hpay.2, List.drop_length]
    simp [EncRegs.remaining, EncRegs.afterSend, EncRegs.span, hs, hl, hdrop, hend]
  | false =>
    have hsucc : (e.idx + 1#8).toNat = e.idx.toNat + 1 := toNat_succ_of_lt (by omega : _ < e.len.toNat)
    rw [← hsucc] at hdrop
    simp only [EncRegs.remaining, EncRegs.afterSend, EncRegs.span, hs, hl, hdrop, Bool.false_eq_true, if_false,
      List.cons_append]

/-- The simulation of one transfer: the byte on offer is the first of those still to be sent, and its transfer leaves the
others. -/
theorem EncRegs.remaining_eq_cons {e : EncRegs} (hi : e.Inv) (hs : e.state ≠ .idle) :
    ∃ b, e.offered = some b ∧ e.remaining = b :: (e.afterSend b).remaining := by
  cases hst : e.state
  case idle => exact absurd hst hs
  case len => exact ⟨e.len, by simp [EncRegs.offered, EncRegs.remaining, EncRegs.afterSend, EncRegs.span, hst]⟩
  case type =>
    obtain ⟨⟨-, hpay⟩, hidx, -⟩ := (EncRegs.inv_type hst).1 hi
    refine ⟨e.type, by simp [EncRegs.offered, hst], ?_⟩
    cases hn : noPayload e with
    | true =>
      have hone : e.len = 1#8 := by simpa [noPayload] using hn
      have hnil : e.pay.bytes = [] := List.length_eq_zero_iff.1 (by rw [hpay.2, hone]; rfl)
      simp [EncRegs.remaining, EncRegs.afterSend, EncRegs.span, hst, hn, hnil]
    | false => simp [EncRegs.remaining, EncRegs.afterSend, EncRegs.span, hst, hn, hidx]
  case payload => exact EncRegs.remaining_payload hst hi
  case chk =>
    obtain ⟨-, -, hacc⟩ := (EncRegs.inv_chk hst).1 hi
    exact ⟨e.acc, by
      simp [EncRegs.offered, EncRegs.remaining, EncRegs.afterSend, EncRegs.canonicalIdle, EncRegs.span, hst, hacc]⟩

/-- The inputs with `tx_ready = 1`, counted. -/
def transfers (ins : List EncIn) : Nat := (ins.filter (fun q => q.txReady)).length

/-- A step inside a frame: it offers the first byte still to be sent, and the checksum byte is the last of them. -/
theorem encStep_remaining {s : State} (hi : s.enc.Inv) (hs : s.enc.remaining ≠ []) (p : EncIn) :
    ∃ b, encStep p s = .next (encOffer b p.txReady s) ∧ (encOffer b p.txReady s).enc.Inv ∧
      s.enc.remaining = b :: (s.enc.afterSend b).remaining ∧
      ((s.enc.afterSend b).remaining = [] ↔ s.enc.state = .chk) := by
  have hbusy : s.enc.state ≠ .idle := mt EncRegs.remaining_eq_nil.2 hs
  obtain ⟨b, hb, hrem⟩ := EncRegs.remaining_eq_cons hi hbusy
  have hstep := encStep_of_offered (p := p) hb
  exact ⟨b, hstep, encStep_keeps_inv hi hstep, hrem,
    EncRegs.remaining_eq_nil.trans (EncRegs.afterSend_state_idle hbusy b)⟩

/-- A run inside a frame with fewer transfers than bytes still to be sent: it sends so many of them, in order, and
`enc_done` stays 0. -/
theorem runStims_enc_partial (ins : List EncIn) (hr : ∀ q ∈ ins, q.rst = false) {s : State} (hi : s.enc.Inv)
    (hd : s.encOut.done = false) (hlt : transfers ins < s.enc.remaining.length) :
    ∃ e o, runStims (ins.map Stim.enc) s
        = .next { s with enc := e, encOut := o, txLog := s.txLog ++ s.enc.remaining.take (transfers ins) } ∧
      e.Inv ∧ e.remaining = s.enc.remaining.drop (transfers ins) ∧ o.done = false := by
  induction ins generalizing s with
  | nil => exact ⟨s.enc, s.encOut, by simp [runStims, transfers], hi, rfl, hd⟩
  | cons q ins ih =>
    obtain ⟨b, hstep, hinv, hrem, hlast⟩ := encStep_remaining hi (List.ne_nil_of_length_pos (by omega)) q
    obtain ⟨hrq, hr'⟩ := List.forall_mem_cons.1 hr
    rw [List.map_cons, runStims, stepOn_enc hrq, hstep, andThen_next]
    cases hq : q.txReady <;> rw [hq] at hinv
    case false =>
      have hcount : transfers (q :: ins) = transfers ins := by simp [transfers, hq]
      rw [hcount] at hlt ⊢
      obtain ⟨e, o, hrest, h⟩ := ih hr' hinv (by simp [offerOut]) hlt
      exact ⟨e, o, by rw [hrest]; simp [encOffer, encHold, encCommit], h⟩
    case true =>
      have hcount : transfers (q :: ins) = transfers ins + 1 := by simp [transfers, hq]
      rw [hcount, hrem] at hlt ⊢
      have hlt' : transfers ins < (s.enc.afterSend b).remaining.length := by simpa using hlt
      have hchk : s.enc.state ≠ .chk := mt hlast.2 (List.ne_nil_of_length_pos (by omega))
      obtain ⟨e, o, hrest, h⟩ := ih hr' hinv (by simp [offerOut, hchk]) hlt'
      exact ⟨e, o, by rw [hrest]; simp [encOffer, encCommit], h⟩

/-- The transfer of the last byte: `enc_done`, and the canonical idle state. -/
theorem encStep_last {p : EncIn} {s : State} {b : Byte} (hp : p.txReady = true) (hi : s.enc.Inv)
    (hrem : s.enc.remaining = [b]) :
    encStep p s = .next { s with
      enc := EncRegs.canonicalIdle, encOut := offerOut b true, txLog := s.txLog ++ [b] } := by
  obtain ⟨c, hstep, -, hcons, hlast⟩ := encStep_remaining hi (by simp [hrem]) p
  obtain ⟨rfl, hnil⟩ := List.cons.inj (hrem.symm.trans hcons)
  have hchk := hlast.1 hnil.symm
  rw [hstep, hp]
  simp [encOffer, encCommit, EncRegs.afterSend, hchk]

/-- A run inside a frame that ends with the transfer of its last byte. -/
theorem runStims_enc_whole (ins : List EncIn) (q : EncIn) (hr : ∀ p ∈ ins ++ [q], p.rst = false)
    (hq : q.txReady = true) {s : State} (hi : s.enc.Inv) (hd : s.encOut.done = false)
    (hcount : transfers ins + 1 = s.enc.remaining.length) :
    ∃ o, runStims ((ins ++ [q]).map Stim.enc) s
        = .next { s with enc := EncRegs.canonicalIdle, encOut := o, txLog := s.txLog ++ s.enc.remaining } ∧
      o.done = true := by
  obtain ⟨hr', hrq⟩ := List.forall_mem_append.1 hr
  have hlt : transfers ins < s.enc.remaining.length := by omega
  obtain ⟨e, o, hrun, hinv, hrem, -⟩ := runStims_enc_partial ins hr' hi hd hlt
  have hone : e.remaining = [s.enc.remaining[transfers ins]] := by
    rw [hrem, List.drop_eq_getElem_cons hlt, hcount, List.drop_length]
  have hall : s.enc.remaining.take (transfers ins) ++ [s.enc.remaining[transfers ins]] = s.enc.remaining := by
    rw [← hone, hrem, List.take_append_drop]
  refine ⟨offerOut s.enc.remaining[transfers ins] true, ?_, rfl⟩
  rw [List.map_append, runStims_append, hrun, andThen_next, List.map_singleton, runStims, stepOn_enc (hrq q (by simp)),
    encStep_last hq hinv hone]
  simp [runStims, hall]

/-- After a command is accepted the whole frame is still to be sent (R92). -/
theorem encAccept_remaining (t : Byte) (p : List Byte) (s : State) :
    (encAccept t p s).enc.remaining
      = (BitVec.ofNat 8 (1 + p.length) :: t :: p) ++ [chk (BitVec.ofNat 8 (1 + p.length) :: t :: p)] := by
  simp [EncRegs.remaining, EncRegs.span, encAccept]

/-- Settles O42: the accepted command leaves the bytes of `Encode(t, p)` to be sent, and each transfer sends the first of
those that are left. -/
theorem sequencerEqualsEncode : Obligations.SequencerEqualsEncode := by
  intro s c ins hs hc hst hl hr
  have hidle : s.enc.state = .idle := by rw [hs]; rfl
  have hrem := encAccept_remaining c.typeIn c.payIn s
  have hacc := encStep_accept hidle hst hl
  have hinv : (encAccept c.typeIn c.payIn s).enc.Inv :=
    encStep_keeps_inv (by rw [hs]; exact EncRegs.canonicalIdle_inv) hacc
  have hrun : ∀ l, runStims (.enc c :: l) s = runStims l (encAccept c.typeIn c.payIn s) :=
    fun l => by rw [runStims, stepOn_enc hc, hacc, andThen_next]
  have hlen : (encAccept c.typeIn c.payIn s).enc.remaining.length = c.payIn.length + 3 := by simp [hrem]
  refine ⟨_, by rw [encodeFrame_of_le hl, hrem], hlen, ?short, ?whole⟩
  case short =>
    intro (hlt : transfers ins < _)
    obtain ⟨e, o, h, -, hleft, hd⟩ := runStims_enc_partial ins hr hinv rfl (hlen ▸ hlt)
    refine ⟨e, o, ?_, fun he => ?_, hd⟩
    · rw [hrun, h]
      simp [encAccept, encCommit, transfers]
    · have hsent := List.drop_eq_nil_iff.1 (hleft.symm.trans (EncRegs.remaining_eq_nil.2 he))
      omega
  case whole =>
    rintro hcount ⟨q, hlast, hq⟩
    obtain ⟨init, rfl⟩ := List.getLast?_eq_some_iff.1 hlast
    have hinit : transfers init + 1 = c.payIn.length + 3 := by simpa [transfers, hq] using hcount
    obtain ⟨o, h, hd⟩ := runStims_enc_whole init q hr hq hinv rfl (hlen ▸ hinit)
    refine ⟨o, ?_, hd⟩
    rw [hrun, h, ← hs]
    simp [encAccept, encCommit]

end Sys2Proof.Machine
end

section
/-! One DEC step by the state and the symbol (42_decoder R122), and the row that it selects (30_encoding R70). -/

namespace Sys2Proof.Machine

/-! ### The symbols -/

@[simp] theorem symIdle_link (y : IdleSym) : symIdle y.link = true := by cases y <;> rfl

@[simp] theorem symBytes_link (y : IdleSym) : symBytes y.link = [] := by cases y <;> rfl

/-- An idle step's symbol is one of the two of 00_scope R9. -/
theorem exists_link_of_symIdle {y : LinkSym} (h : symIdle y = true) : ∃ z : IdleSym, y = z.link := by
  cases y with
  | notReady => exact ⟨.notReady, rfl⟩
  | readyEmpty => exact ⟨.readyEmpty, rfl⟩
  | readyByte b => cases h

/-- The two kinds of step: idle, or busy with a byte (00_scope R9). -/
theorem link_or_readyByte (y : LinkSym) : (∃ z : IdleSym, y = z.link) ∨ ∃ b, y = .readyByte b := by
  cases hy : symIdle y with
  | true => exact .inl (exists_link_of_symIdle hy)
  | false => cases y <;> simp [symIdle] at hy ⊢

@[simp] theorem symPoll_sym (p : DecIn) : symPoll p.sym = p.poll := by
  cases hp : p.poll <;> cases hv : p.rdValid <;> simp [sym_eq, hp, hv, symPoll]

@[simp] theorem ofSym_rst (y : LinkSym) : (DecIn.ofSym y).rst = false := by cases y <;> rfl

/-! ### What a step leaves -/

theorem decCommit_link (y : IdleSym) (ev : Option DecEvent) (d : DecRegs) (s : State) :
    decCommit y.link ev d s = { s with
      dec := d, decOut := { rdEn := symPoll y.link, event := ev }, events := s.events ++ ev.toList } := by
  simp [decCommit]

theorem decCommit_readyByte (b : Byte) (ev : Option DecEvent) (d : DecRegs) (s : State) :
    decCommit (.readyByte b) ev d s = { s with
      dec := d, decOut := { rdEn := true, event := ev }, rxPos := s.rxPos + 1, events := s.events ++ ev.toList } := rfl

/-! ### The step -/

section
variable {s : State} (y : IdleSym) {b : Byte}

theorem decStep_length_idle (hs : s.dec.state = .awaitLength) : decStep y.link s = .next (decNothing y.link s) := by
  cases y <;> simp [decStep, decStepLength, IdleSym.link, hs]

theorem decStep_length_zero (hs : s.dec.state = .awaitLength) :
    decStep (.readyByte 0#8) s = .next (takeDiscard .lenZero (.readyByte 0#8) s) := by
  simp [decStep, decStepLength, hs]

theorem decStep_length_latch (hs : s.dec.state = .awaitLength) (hb : b ≠ 0#8) :
    decStep (.readyByte b) s = .next (decLatch b s) := by
  simp [decStep, decStepLength, hs, hb]

theorem decStep_body_byte (hs : s.dec.state = .awaitBody) :
    decStep (.readyByte b) s = decStore b (if lastBody s.dec then .awaitChecksum else .awaitBody) s := by
  cases hl : lastBody s.dec <;> simp [decStep, decStepBody, hs, hl]

theorem decStep_body_wait (hs : s.dec.state = .awaitBody) (hx : s.dec.idle + 1 < s.cfg.frameTimeoutTicks) :
    decStep y.link s = .next (decCountIdle y.link s) := by
  cases y <;> simp [decStep, decStepBody, IdleSym.link, expires, hs, hx]

theorem decStep_body_timeout (hs : s.dec.state = .awaitBody) (hx : s.cfg.frameTimeoutTicks ≤ s.dec.idle + 1) :
    decStep y.link s = .next (takeDiscard .bodyTimeout y.link s) := by
  cases y <;> simp [decStep, decStepBody, IdleSym.link, expires, hs, hx]

theorem decStep_checksum_match (hs : s.dec.state = .awaitChecksum) :
    decStep (.readyByte s.dec.acc) s = decDeliver s.dec.acc s := by
  simp [decStep, decStepChecksum, hs]

theorem decStep_checksum_mismatch (hs : s.dec.state = .awaitChecksum) (hb : b ≠ s.dec.acc) :
    decStep (.readyByte b) s = .next (takeDiscard .chkMismatch (.readyByte b) s) := by
  simp [decStep, decStepChecksum, hs, hb]

theorem decStep_checksum_idle (hs : s.dec.state = .awaitChecksum) :
    decStep y.link s = .next (takeDiscard .chkMissing y.link s) := by
  cases y <;> simp [decStep, decStepChecksum, IdleSym.link, hs]

end

/-! ### The row -/

/-- The DECSEL row of an idle step. -/
def decIdleInstr (c : Config) (d : DecRegs) (y : IdleSym) : Instr :=
  match d.state with
  | .awaitLength => .decAlIdle y
  | .awaitBody => if expires c d then .decAbTimeout y else .decAbWait y
  | .awaitChecksum => .decAcMissing y

/-- The DECSEL row of a busy step. -/
def decByteInstr (d : DecRegs) (b : Byte) : Instr :=
  match d.state with
  | .awaitLength => if b = 0#8 then .decAlZero else .decAlLatch b
  | .awaitBody => if lastBody d then .decAbStoreLast b else .decAbStore b
  | .awaitChecksum => if b = d.acc then .decAcDeliver b else .decAcMismatch b

theorem decodeDecSel_link (c : Config) (d : DecRegs) (y : IdleSym) :
    decodeDecSel (decSelWord c d y.link) y.link = some (decIdleInstr c d y) := by
  rw [decodeDecSel, selectDecRow_decSelWord, decIdleInstr]
  cases d.state <;> cases y <;> cases expires c d <;> rfl

theorem decodeDecSel_readyByte (c : Config) (d : DecRegs) (b : Byte) :
    decodeDecSel (decSelWord c d (.readyByte b)) (.readyByte b) = some (decByteInstr d b) := by
  rw [decodeDecSel, selectDecRow_decSelWord, decByteInstr]
  cases d.state with
  | awaitLength => by_cases hb : b = 0#8 <;> simp [hb, decSelInstr, byteInstr]
  | awaitBody => cases lastBody d <;> rfl
  | awaitChecksum => by_cases hb : b = d.acc <;> simp [hb, decSelInstr, byteInstr]

/-- The row that a step selects does what the step does. -/
theorem exec_of_fetchInstr_dec {p : DecIn} {s : State} {i : Instr} (hr : p.rst = false)
    (h : fetchInstr (.dec p) s = some i) : exec i s = decStep p.sym s := by
  simpa [stepOn, h] using stepOn_dec hr s

/-- A row whose selection word and whose step are known: what it does, and that the ports with this symbol select it. -/
theorem exec_and_fetchInstr_dec {s t : State} {y : LinkSym} {i : Instr}
    (hrow : decodeDecSel (decSelWord s.cfg s.dec y) y = some i) (hstep : decStep y s = .next t) :
    exec i s = .next t ∧ ∀ p : DecIn, p.rst = false → p.sym = y → fetchInstr (.dec p) s = some i := by
  have hfetch : ∀ p : DecIn, p.rst = false → p.sym = y → fetchInstr (.dec p) s = some i := by
    rintro p hr rfl
    simpa [fetchInstr, fetchDec, hr] using hrow
  refine ⟨?_, hfetch⟩
  rw [exec_of_fetchInstr_dec (ofSym_rst y) (hfetch _ (ofSym_rst y) (sym_ofSym y)), sym_ofSym, hstep]

/-- An idle step's row. -/
theorem decIdleRow_spec {s t : State} {y : IdleSym} {i : Instr} (hrow : decIdleInstr s.cfg s.dec y = i)
    (hstep : decStep y.link s = .next t) :
    exec i s = .next t ∧ ∀ p : DecIn, p.rst = false → p.sym = y.link → fetchInstr (.dec p) s = some i :=
  exec_and_fetchInstr_dec (by rw [decodeDecSel_link, hrow]) hstep

/-- A busy step's row. -/
theorem decByteRow_spec {s t : State} {b : Byte} {i : Instr} (hrow : decByteInstr s.dec b = i)
    (hstep : decStep (.readyByte b) s = .next t) :
    exec i s = .next t ∧ ∀ p : DecIn, p.rst = false → p.sym = .readyByte b → fetchInstr (.dec p) s = some i :=
  exec_and_fetchInstr_dec (by rw [decodeDecSel_readyByte, hrow]) hstep

end Sys2Proof.Machine
end

section
/-! The rules of DEC (42_decoder R111 to R121): each row with its step. -/

namespace Sys2Proof.Machine

/-- Settles O12: the step writes the registers back as they are. -/
theorem decIdleInLengthChangesNothing : Obligations.DecIdleInLengthChangesNothing := by
  intro s y hs
  simpa [decNothing, decCommit_link] using
    decIdleRow_spec (i := .decAlIdle y) (by simp [decIdleInstr, hs]) (decStep_length_idle y hs)

/-- Settles O13: the discard writes the canonical idle state, which DEC is in already. -/
theorem decZeroLengthByteIsSkipped : Obligations.DecZeroLengthByteIsSkipped := by
  intro s hs
  have hst : s.dec.state = .awaitLength := by rw [hs]; rfl
  simpa [takeDiscard, decCommit_readyByte, ← hs] using
    decByteRow_spec (i := .decAlZero) (by simp [decByteInstr, hst]) (decStep_length_zero hst)

/-- Settles O14: a cleared accumulator that absorbs the length byte holds it. -/
theorem decLengthByteIsLatched : Obligations.DecLengthByteIsLatched := by
  intro s b hs hb
  simpa [decLatch, decCommit_readyByte] using
    decByteRow_spec (i := .decAlLatch b) (by simp [decByteInstr, hs, hb]) (decStep_length_latch hs hb)

/-- Settles O15: the two rows differ in the state after the byte. -/
theorem decBodyByteIsStored : Obligations.DecBodyByteIsStored := by
  intro s b hs hcnt
  have hstep := decStep_body_byte (b := b) hs
  rw [decStore_ok (by omega)] at hstep
  refine ⟨by bv_omega, fun hl => ?more, fun hl => ?last⟩
  case more =>
    have hlast : lastBody s.dec = false := by simpa [lastBody] using hl
    simpa [decCommit_readyByte, absorb, hlast, ← hs] using
      decByteRow_spec (i := .decAbStore b) (by simp [decByteInstr, hs, hlast]) hstep
  case last =>
    have hlast : lastBody s.dec = true := by simpa [lastBody] using hl
    simpa [decCommit_readyByte, absorb, hlast] using
      decByteRow_spec (i := .decAbStoreLast b) (by simp [decByteInstr, hs, hlast]) hstep

/-- Settles O16: `dec_idle + 1 < T` leaves `expire = 0`, and no `T` below 2 has such a count. -/
theorem decIdleInBodyIsCounted : Obligations.DecIdleInBodyIsCounted := by
  intro s y hs hx
  refine ⟨by omega, ?_⟩
  simpa [decCountIdle, decCommit_link] using
    decIdleRow_spec (i := .decAbWait y) (by simp [decIdleInstr, expires, hs, hx]) (decStep_body_wait y hs hx)

/-- Settles O17: `T ≤ dec_idle + 1` is `expire = 1`. -/
theorem decBodyTimeoutDiscards : Obligations.DecBodyTimeoutDiscards := by
  intro s y hs hx
  simpa [takeDiscard, decCommit_link] using
    decIdleRow_spec (i := .decAbTimeout y) (by simp [decIdleInstr, expires, hs, hx]) (decStep_body_timeout y hs hx)

/-- Settles O18: the cells of the body are the type and the payload, so the delivery reads them. -/
theorem decMatchingChecksumDelivers : Obligations.DecMatchingChecksumDelivers := by
  intro s t p hs hlen hcells
  have hstep := decStep_checksum_match hs
  rw [decDeliver_ok hlen hcells] at hstep
  have hplen : BitVec.ofNat 8 p.length = s.dec.len - 1#8 := by
    apply BitVec.eq_of_toNat_eq
    have := s.dec.len.isLt
    bv_omega
  have hports : ∀ o : DecOut, o.event = some (.deliver t p) → o.deliverValid = true ∧ o.deliverType = some t ∧
      o.deliverPlen = some (s.dec.len - 1#8) ∧ o.deliverPayload = some p ∧ o.diagDiscard = false := fun o ho => by
    simp [DecOut.deliverValid, DecOut.deliverType, DecOut.deliverPlen, DecOut.deliverPayload, DecOut.diagDiscard, ho,
      hplen]
  obtain ⟨hexec, hfetch⟩ := decByteRow_spec (i := .decAcDeliver s.dec.acc) (by simp [decByteInstr, hs]) hstep
  exact ⟨hexec, hports, hfetch⟩

/-- Settles O19: an idle step in AWAIT_CHECKSUM looks at neither `dec_idle` nor `T`. -/
theorem decMissingChecksumDiscards : Obligations.DecMissingChecksumDiscards := by
  intro s y hs
  simpa [takeDiscard, decCommit_link] using
    decIdleRow_spec (i := .decAcMissing y) (by simp [decIdleInstr, hs]) (decStep_checksum_idle y hs)

/-- Settles O20: the byte differs from the accumulator, so `match = 0`. -/
theorem decChecksumMismatchDiscards : Obligations.DecChecksumMismatchDiscards := by
  intro s c hs hc
  simpa [takeDiscard, decCommit_readyByte] using
    decByteRow_spec (i := .decAcMismatch c) (by simp [decByteInstr, hs, hc]) (decStep_checksum_mismatch hs hc)

end Sys2Proof.Machine
end

section
/-! DEC inside a frame, in closed form: the registers for the bytes of the body received so far, and one step from them
(10_state R18, 42_decoder R113 to R121). -/

namespace Sys2Proof.Machine

/-- The registers of DEC after the length byte `l`, the body bytes `bs` and `n` idle steps (10_state R11 to R17). -/
def DecRegs.inFrame (l : Byte) (bs : List Byte) (n : Nat) : DecRegs :=
  { state := if bs.length < l.toNat then .awaitBody else .awaitChecksum
    len := l, cnt := BitVec.ofNat 8 bs.length, acc := chk (l :: bs), idle := n, buf := Memory.ofBytes bs }

theorem DecRegs.state_of_inFrame_body {d : DecRegs} {l : Byte} {bs : List Byte} {n : Nat}
    (hd : d = DecRegs.inFrame l bs n) (h : bs.length < l.toNat) : d.state = .awaitBody := by
  rw [hd]; exact if_pos h

theorem DecRegs.state_of_inFrame_checksum {d : DecRegs} {l : Byte} {bs : List Byte} {n : Nat}
    (hd : d = DecRegs.inFrame l bs n) (h : bs.length = l.toNat) : d.state = .awaitChecksum := by
  rw [hd]; exact if_neg (by omega)

/-- Registers whose buffer and accumulator agree with the count are those of a frame. -/
theorem DecRegs.eq_inFrame {d : DecRegs}
    (hs : d.state = if d.cnt.toNat < d.len.toNat then .awaitBody else .awaitChecksum)
    (hacc : d.acc = chk (d.len :: d.buf.bytes)) (hbuf : d.buf.holds d.cnt.toNat) :
    d = DecRegs.inFrame d.len d.buf.bytes d.idle := by
  rw [DecRegs.inFrame, hbuf.2, ← hs, ← hacc, ← hbuf.1, BitVec.ofNat_toNat, BitVec.setWidth_eq]

/-- The states of the invariant (R18): the canonical idle state, and those inside a frame. -/
theorem DecRegs.Inv.idle_or_inFrame {c : Config} {d : DecRegs} (h : d.Inv c) : d = DecRegs.canonicalIdle ∨
    ∃ l bs n, d = DecRegs.inFrame l bs n ∧ 1 ≤ l.toNat ∧ bs.length ≤ l.toNat ∧ n < c.frameTimeoutTicks := by
  cases hs : d.state with
  | awaitLength => exact .inl (h.1 hs)
  | awaitBody =>
    obtain ⟨hlen, hcnt, hidle, hacc, hbuf⟩ := (DecRegs.inv_awaitBody hs).1 h
    have hframe := DecRegs.eq_inFrame (by rw [hs, if_pos hcnt]) hacc hbuf
    exact .inr ⟨d.len, d.buf.bytes, d.idle, hframe, hlen, by rw [hbuf.2]; exact hcnt.le, hidle⟩
  | awaitChecksum =>
    obtain ⟨hlen, hcnt, hidle, hacc, hbuf⟩ := (DecRegs.inv_awaitChecksum hs).1 h
    have hframe := DecRegs.eq_inFrame (by rw [hs, hcnt, if_neg (lt_irrefl _)]) hacc (hcnt ▸ hbuf)
    exact .inr ⟨d.len, d.buf.bytes, d.idle, hframe, hlen, hbuf.2.le, hidle⟩

/-- The length byte latched (R113): no byte of the body yet. -/
theorem decLatch_eq {l : Byte} (hl : 1 ≤ l.toNat) (s : State) :
    decLatch l s = decCommit (.readyByte l) none (DecRegs.inFrame l [] 0) s := by
  have h : 0 < l.toNat := hl
  simp [decLatch, DecRegs.inFrame, h]

section
variable {s : State} {l : Byte} {bs : List Byte} {n : Nat} (hs : s.dec = DecRegs.inFrame l bs n)
include hs

/-- A body byte (R115). -/
theorem decStep_inFrame_byte (hlt : bs.length < l.toNat) (b : Byte) :
    decStep (.readyByte b) s = .next (decCommit (.readyByte b) none (DecRegs.inFrame l (bs ++ [b]) n) s) := by
  have hst := DecRegs.state_of_inFrame_body hs hlt
  have hcnt : s.dec.cnt.toNat = bs.length := by
    rw [hs]; exact Nat.mod_eq_of_lt (hlt.trans l.isLt)
  have hsucc : s.dec.cnt + 1#8 = BitVec.ofNat 8 (bs.length + 1) := by
    rw [hs]; exact (BitVec.ofNat_add _ _).symm
  have hbuf : s.dec.buf.write s.dec.cnt.toNat b = Memory.ofBytes (bs ++ [b]) := by
    rw [hcnt, hs]; exact Memory.write_ofBytes_end bs b
  have hacc : absorb s.dec.acc b = chk (l :: (bs ++ [b])) := by
    rw [hs, ← List.cons_append]; exact (chk_concat _ b).symm
  have hlast : (if lastBody s.dec then DecState.awaitChecksum else .awaitBody)
      = if (bs ++ [b]).length < l.toNat then DecState.awaitBody else .awaitChecksum := by
    have hlen : s.dec.len = l := by rw [hs]; rfl
    simp only [lastBody, hcnt, hlen, List.length_append, List.length_singleton, beq_iff_eq]
    by_cases h : bs.length + 1 = l.toNat
    · rw [if_pos h, if_neg (by omega)]
    · rw [if_neg h, if_pos (by omega)]
  rw [decStep_body_byte hst, decStore_ok (by have := l.isLt; omega), hsucc, hbuf, hacc, hlast]
  simp [DecRegs.inFrame, hs]

/-- An idle step inside the body that is not the `T`-th (R116). -/
theorem decStep_inFrame_wait (hlt : bs.length < l.toNat) (hx : n + 1 < s.cfg.frameTimeoutTicks) (y : IdleSym) :
    decStep y.link s = .next (decCommit y.link none (DecRegs.inFrame l bs (n + 1)) s) := by
  have hst := DecRegs.state_of_inFrame_body hs hlt
  have hidle : s.dec.idle = n := by rw [hs]; rfl
  rw [decStep_body_wait y hst (by rwa [hidle]), decCountIdle, hs]
  rfl

/-- The `T`-th idle step inside the body (R117). -/
theorem decStep_inFrame_timeout (hlt : bs.length < l.toNat) (hx : s.cfg.frameTimeoutTicks ≤ n + 1) (y : IdleSym) :
    decStep y.link s = .next (takeDiscard .bodyTimeout y.link s) := by
  have hst := DecRegs.state_of_inFrame_body hs hlt
  have hidle : s.dec.idle = n := by rw [hs]; rfl
  exact decStep_body_timeout y hst (by rwa [hidle])

/-- An idle step after the whole body (R120). -/
theorem decStep_inFrame_missing (hlen : bs.length = l.toNat) (y : IdleSym) :
    decStep y.link s = .next (takeDiscard .chkMissing y.link s) :=
  decStep_checksum_idle y (DecRegs.state_of_inFrame_checksum hs hlen)

/-- A byte after the whole body that is not its checksum (R121). -/
theorem decStep_inFrame_mismatch (hlen : bs.length = l.toNat) {c : Byte} (hc : c ≠ chk (l :: bs)) :
    decStep (.readyByte c) s = .next (takeDiscard .chkMismatch (.readyByte c) s) :=
  decStep_checksum_mismatch (DecRegs.state_of_inFrame_checksum hs hlen) (by rw [hs]; exact hc)

end

/-- The checksum byte after the whole body (R119). -/
theorem decStep_inFrame_deliver {s : State} {l t : Byte} {p : List Byte} {n : Nat}
    (hs : s.dec = DecRegs.inFrame l (t :: p) n) (hlen : (t :: p).length = l.toNat) :
    decStep (.readyByte (chk (l :: t :: p))) s
      = .next (decCommit (.readyByte (chk (l :: t :: p))) (some (.deliver t p)) DecRegs.canonicalIdle s) := by
  have hst := DecRegs.state_of_inFrame_checksum hs hlen
  have hacc : s.dec.acc = chk (l :: t :: p) := by rw [hs]; rfl
  rw [← hacc, decStep_checksum_match hst]
  refine decDeliver_ok (by rw [hs]; exact hlen.symm) (fun k _ => ?_)
  rw [hs]
  exact Memory.read_ofBytes k (t :: p)

/-- Any byte after the whole body ends the frame (R118). -/
theorem decStep_inFrame_checksum {s : State} {l : Byte} {bs : List Byte} {n : Nat}
    (hs : s.dec = DecRegs.inFrame l bs n) (hl : 1 ≤ l.toNat) (hlen : bs.length = l.toNat) (c : Byte) :
    ∃ ev, decStep (.readyByte c) s = .next (decCommit (.readyByte c) (some ev) DecRegs.canonicalIdle s) ∧
      ((∃ t p, ev = .deliver t p) ∨ ev = .discard .chkMismatch) := by
  by_cases hc : c = chk (l :: bs)
  · subst hc
    obtain ⟨t, p, rfl⟩ := List.exists_cons_of_length_pos (l := bs) (by omega)
    exact ⟨_, decStep_inFrame_deliver hs hlen, .inl ⟨t, p, rfl⟩⟩
  · exact ⟨_, decStep_inFrame_mismatch hs hlen hc, .inr rfl⟩

end Sys2Proof.Machine
end

section
/-! DEC's step is total on the states of its invariant (42_decoder R110). -/

namespace Sys2Proof.Machine

/-- An idle step completes in every state. -/
theorem decStep_link_completes (y : IdleSym) (s : State) : Completes (decStep y.link s) := by
  cases hs : s.dec.state with
  | awaitLength => exact ⟨_, decStep_length_idle y hs⟩
  | awaitBody =>
    by_cases hx : s.dec.idle + 1 < s.cfg.frameTimeoutTicks
    · exact ⟨_, decStep_body_wait y hs hx⟩
    · exact ⟨_, decStep_body_timeout y hs (by omega)⟩
  | awaitChecksum => exact ⟨_, decStep_checksum_idle y hs⟩

/-- A busy step completes in the states of the invariant: the body has a cell for the byte, and the delivered cells hold
values (R123). -/
theorem decStep_readyByte_completes {s : State} (hi : s.dec.Inv s.cfg) (b : Byte) :
    Completes (decStep (.readyByte b) s) := by
  obtain hd | ⟨l, bs, n, hd, hl, hbs, -⟩ := hi.idle_or_inFrame
  · have hs : s.dec.state = .awaitLength := by rw [hd]; rfl
    by_cases hb : b = 0#8
    · subst hb; exact ⟨_, decStep_length_zero hs⟩
    · exact ⟨_, decStep_length_latch hs hb⟩
  · obtain hlt | hlen := hbs.lt_or_eq
    · exact ⟨_, decStep_inFrame_byte hd hlt b⟩
    · obtain ⟨ev, hstep, -⟩ := decStep_inFrame_checksum hd hl hlen b
      exact ⟨_, hstep⟩

/-- In the states of the invariant a step completes, keeps the invariant, takes the link's byte and puts out the event that
it adds to the history. -/
theorem decStep_total {s : State} (hc : s.cfg.Valid) (hi : s.dec.Inv s.cfg) (y : LinkSym) :
    ∃ t, decStep y s = .next t ∧ t.dec.Inv s.cfg ∧ t.decOut.rdEn = symPoll y ∧
      t.rxPos = s.rxPos + (symBytes y).length ∧ t.events = s.events ++ t.decOut.event.toList := by
  obtain ⟨t, ht⟩ : Completes (decStep y s) := by
    obtain ⟨z, rfl⟩ | ⟨b, rfl⟩ := link_or_readyByte y
    · exact decStep_link_completes z s
    · exact decStep_readyByte_completes hi b
  have hinv := decStep_keeps_inv hc hi ht
  obtain ⟨ev, d, rfl⟩ := decStep_eq_next ht
  exact ⟨_, ht, hinv, rfl, rfl, rfl⟩

/-- Exactly one row of DECSEL is hit in each of the three states (30_encoding R70). -/
theorem decSelTable_hits_one (st : DecState) (conds : BitVec 5) :
    (decSelTable.filter (fun r => rowHit 7 (st.code ++ conds) r.2)).length = 1 := by
  revert conds
  cases st <;> decide

/-- Settles O24: each step and each LINKSYM row is DEC's step on its symbol, which is total on the invariant. -/
theorem decStepIsTotal : Obligations.DecStepIsTotal := by
  intro s hc hi
  have htotal := decStep_total hc hi
  refine ⟨fun p hr => ?ports, fun v d => ?notReady, fun d => ?readyEmpty, fun b => ?readyByte⟩
  case ports =>
    obtain ⟨t, ht, hinv, hrd, hpos, hevents⟩ := htotal p.sym
    rw [symPoll_sym] at hrd
    exact ⟨t, by rw [stepOn_dec hr, ht], hinv, hrd, hpos, hevents, decSelTable_hits_one _ _⟩
  case notReady =>
    obtain ⟨t, ht, hinv, hrd, hpos, -⟩ := htotal .notReady
    exact ⟨t, ht, hinv, hrd, hpos⟩
  case readyEmpty =>
    obtain ⟨t, ht, hinv, hrd, hpos, -⟩ := htotal .readyEmpty
    exact ⟨t, ht, hinv, hrd, hpos⟩
  case readyByte =>
    obtain ⟨t, ht, hinv, hrd, hpos, -⟩ := htotal (.readyByte b)
    exact ⟨t, ht, hinv, hrd, hpos⟩

end Sys2Proof.Machine
end

section
/-! Runs of DEC: the round trip (42_decoder R126), the silence that resynchronises (R128), the frame that always ends
(R130). -/

namespace Sys2Proof.Machine

/-! ### The bytes and the steps of a run -/

/-- The bytes that a run consumes (20_memory R42). -/
def rxBytes (ys : List LinkSym) : List Byte := ys.flatMap symBytes

@[simp] theorem rxBytes_nil : rxBytes [] = [] := rfl

@[simp] theorem rxBytes_link_cons (y : IdleSym) (ys : List LinkSym) : rxBytes (y.link :: ys) = rxBytes ys := by
  simp [rxBytes]

@[simp] theorem rxBytes_readyByte_cons (b : Byte) (ys : List LinkSym) :
    rxBytes (.readyByte b :: ys) = b :: rxBytes ys := rfl

@[simp] theorem rxBytes_append (xs ys : List LinkSym) : rxBytes (xs ++ ys) = rxBytes xs ++ rxBytes ys := by
  simp [rxBytes]

/-- The idle steps of a run. -/
def idleSteps (ys : List LinkSym) : Nat := (ys.filter symIdle).length

/-- The busy steps of a run. -/
def busySteps (ys : List LinkSym) : Nat := (ys.filter (fun y => !symIdle y)).length

@[simp] theorem idleSteps_nil : idleSteps [] = 0 := rfl

@[simp] theorem busySteps_nil : busySteps [] = 0 := rfl

@[simp] theorem idleSteps_link_cons (y : IdleSym) (ys : List LinkSym) : idleSteps (y.link :: ys) = idleSteps ys + 1 := by
  simp [idleSteps]

@[simp] theorem busySteps_link_cons (y : IdleSym) (ys : List LinkSym) : busySteps (y.link :: ys) = busySteps ys := by
  simp [busySteps]

@[simp] theorem idleSteps_readyByte_cons (b : Byte) (ys : List LinkSym) :
    idleSteps (.readyByte b :: ys) = idleSteps ys := rfl

@[simp] theorem busySteps_readyByte_cons (b : Byte) (ys : List LinkSym) :
    busySteps (.readyByte b :: ys) = busySteps ys + 1 := rfl

theorem idleSteps_map_sym (ps : List DecIn) :
    idleSteps (ps.map DecIn.sym) = (ps.filter (fun q => symIdle q.sym)).length := by
  simp [idleSteps, List.filter_map, Function.comp_def]

theorem busySteps_map_sym (ps : List DecIn) :
    busySteps (ps.map DecIn.sym) = (ps.filter (fun q => !symIdle q.sym)).length := by
  simp [busySteps, List.filter_map, Function.comp_def]

/-- A run of idle steps is a list of the two idle symbols. -/
theorem exists_links_of_symIdle {ys : List LinkSym} (h : ∀ y ∈ ys, symIdle y = true) :
    ∃ zs : List IdleSym, ys = zs.map IdleSym.link := by
  have hmem : ys ∈ Set.range (List.map IdleSym.link) := by
    rw [Set.range_list_map]
    intro y hy
    obtain ⟨z, rfl⟩ := exists_link_of_symIdle (h y hy)
    exact ⟨z, rfl⟩
  obtain ⟨zs, rfl⟩ := hmem
  exact ⟨zs, rfl⟩

/-! ### Silence (R128) -/

/-- Idle steps keep the canonical idle state, with no event (R111). -/
theorem decSteps_idle_canonicalIdle (zs : List IdleSym) {s : State} (hs : s.dec = DecRegs.canonicalIdle) :
    ∃ o, decSteps (zs.map IdleSym.link) s = .next { s with decOut := o } := by
  induction zs generalizing s with
  | nil => exact ⟨s.decOut, rfl⟩
  | cons z zs ih =>
    have hlen : s.dec.state = .awaitLength := by rw [hs]; rfl
    obtain ⟨o, ho⟩ := ih (s := decNothing z.link s) hs
    refine ⟨o, ?_⟩
    rw [List.map_cons, decSteps, decStep_length_idle z hlen, andThen_next, ho]
    simp [decNothing, decCommit_link]

/-- A discard in an idle step, and idle steps after it. -/
theorem decSteps_idle_of_discard {z : IdleSym} {r : DiscardReason} {s : State}
    (h : decStep z.link s = .next (takeDiscard r z.link s)) (zs : List IdleSym) :
    ∃ o, decSteps ((z :: zs).map IdleSym.link) s = .next { s with
      dec := DecRegs.canonicalIdle, decOut := o, events := s.events ++ [.discard r] } := by
  obtain ⟨o, ho⟩ := decSteps_idle_canonicalIdle zs (s := takeDiscard r z.link s) rfl
  refine ⟨o, ?_⟩
  rw [List.map_cons, decSteps, h, andThen_next, ho]
  simp [takeDiscard, decCommit_link]

/-- Inside a frame the idle steps up to the `T`-th end in one discard (R116, R117, R120). -/
theorem decSteps_idle_inFrame (zs : List IdleSym) {s : State} {l : Byte} {bs : List Byte} {n : Nat}
    (hs : s.dec = DecRegs.inFrame l bs n) (hbs : bs.length ≤ l.toNat) (hn : n < s.cfg.frameTimeoutTicks)
    (hT : s.cfg.frameTimeoutTicks ≤ n + zs.length) :
    ∃ o r, decSteps (zs.map IdleSym.link) s = .next { s with
      dec := DecRegs.canonicalIdle, decOut := o, events := s.events ++ [.discard r] } := by
  induction zs generalizing s n with
  | nil => rw [List.length_nil] at hT; omega
  | cons z zs ih =>
    rw [List.length_cons] at hT
    obtain hlt | hlen := hbs.lt_or_eq
    · obtain hx | hx := Nat.lt_or_ge (n + 1) s.cfg.frameTimeoutTicks
      · obtain ⟨o, r, ho⟩ := ih (s := decCommit z.link none (DecRegs.inFrame l bs (n + 1)) s) rfl hx
          (by rw [decCommit_cfg]; omega)
        refine ⟨o, r, ?_⟩
        rw [List.map_cons, decSteps, decStep_inFrame_wait hs hlt hx, andThen_next, ho]
        simp [decCommit_link]
      · obtain ⟨o, ho⟩ := decSteps_idle_of_discard (decStep_inFrame_timeout hs hlt hx z) zs
        exact ⟨o, _, ho⟩
    · obtain ⟨o, ho⟩ := decSteps_idle_of_discard (decStep_inFrame_missing hs hlen z) zs
      exact ⟨o, _, ho⟩

/-- Settles O46: in the canonical idle state silence changes nothing, inside a frame it ends in one discard. -/
theorem silenceResynchronises : Obligations.SilenceResynchronises := by
  intro s ps hc hi hps hT
  obtain ⟨zs, hzs⟩ := exists_links_of_symIdle (ys := ps.map DecIn.sym) (by simpa using fun q hq => (hps q hq).2)
  have hlen : zs.length = ps.length := by simpa using (congrArg List.length hzs).symm
  rw [runStims_dec ps (fun q hq => (hps q hq).1), hzs]
  obtain hs | ⟨l, bs, n, hs, -, hbs, hn⟩ := hi.idle_or_inFrame
  · obtain ⟨o, ho⟩ := decSteps_idle_canonicalIdle zs hs
    exact ⟨o, [], by rw [ho, ← hs]; simp, .inl rfl⟩
  · obtain ⟨o, r, ho⟩ := decSteps_idle_inFrame zs hs hbs hn (by omega)
    exact ⟨o, _, ho, .inr ⟨r, rfl⟩⟩

/-! ### The round trip (R126) -/

/-- A run that stays inside the body: its bytes are appended and its idle steps counted, with no event. -/
theorem decSteps_body (ys : List LinkSym) {s : State} {l : Byte} {bs : List Byte} {n : Nat}
    (hs : s.dec = DecRegs.inFrame l bs n) (hbytes : bs.length + (rxBytes ys).length < l.toNat)
    (hidle : n + idleSteps ys < s.cfg.frameTimeoutTicks) :
    ∃ o, decSteps ys s = .next { s with
      dec := DecRegs.inFrame l (bs ++ rxBytes ys) (n + idleSteps ys)
      decOut := o
      rxPos := s.rxPos + (rxBytes ys).length } := by
  induction ys generalizing s bs n with
  | nil => exact ⟨s.decOut, by simp [decSteps, ← hs]⟩
  | cons y ys ih =>
    obtain ⟨z, rfl⟩ | ⟨b, rfl⟩ := link_or_readyByte y
    · rw [rxBytes_link_cons] at hbytes ⊢
      rw [idleSteps_link_cons, Nat.add_comm (idleSteps ys), ← Nat.add_assoc] at hidle ⊢
      obtain ⟨o, ho⟩ := ih (s := decCommit z.link none (DecRegs.inFrame l bs (n + 1)) s) rfl hbytes hidle
      refine ⟨o, ?_⟩
      rw [decSteps, decStep_inFrame_wait hs (by omega) (by omega), andThen_next, ho]
      simp [decCommit_link]
    · rw [rxBytes_readyByte_cons, List.length_cons] at hbytes ⊢
      rw [idleSteps_readyByte_cons] at hidle ⊢
      obtain ⟨o, ho⟩ := ih (s := decCommit (.readyByte b) none (DecRegs.inFrame l (bs ++ [b]) n) s) rfl
        (by rw [List.length_append, List.length_singleton]; omega) hidle
      refine ⟨o, ?_⟩
      rw [decSteps, decStep_inFrame_byte hs (by omega), andThen_next, ho]
      simp [decCommit_readyByte, Nat.add_assoc, Nat.add_comm 1]

/-- The length byte and the whole body, with fewer than `T` idle steps before its last byte: the checksum byte is due. -/
theorem decSteps_span {s : State} {l last : Byte} {body : List LinkSym} {bs : List Byte}
    (hs : s.dec = DecRegs.canonicalIdle) (hbs : rxBytes (body ++ [.readyByte last]) = bs) (hlen : bs.length = l.toNat)
    (hidle : idleSteps body < s.cfg.frameTimeoutTicks) :
    ∃ o, decSteps (.readyByte l :: (body ++ [.readyByte last])) s = .next { s with
      dec := DecRegs.inFrame l bs (idleSteps body), decOut := o, rxPos := s.rxPos + (bs.length + 1) } := by
  subst hbs
  have hlt : (rxBytes body).length + 1 = l.toNat := by simpa using hlen
  have hne : l ≠ 0#8 := by rintro rfl; simp at hlt
  have hlatch : decStep (.readyByte l) s = .next (decCommit (.readyByte l) none (DecRegs.inFrame l [] 0) s) := by
    rw [decStep_length_latch (by rw [hs]; rfl) hne, decLatch_eq (by omega)]
  obtain ⟨o, ho⟩ := decSteps_body body (s := decCommit (.readyByte l) none (DecRegs.inFrame l [] 0) s) rfl
    (by rw [List.length_nil]; omega) (by rwa [Nat.zero_add, decCommit_cfg])
  refine ⟨{ rdEn := true, event := none }, ?_⟩
  rw [decSteps, hlatch, andThen_next, decSteps_append, ho, andThen_next, decSteps,
    decStep_inFrame_byte rfl (by rw [List.nil_append]; omega), andThen_next, decSteps]
  simp [decCommit_readyByte, Nat.add_assoc, Nat.add_comm 1]

/-- The bytes of a frame whose payload fits (41_encoder R90). -/
theorem encodeFrame_eq_frame {l t c : Byte} {p : List Byte} (h : encodeFrame t p = .frame (l :: t :: p ++ [c])) :
    l.toNat = p.length + 1 ∧ c = chk (l :: t :: p) := by
  obtain hgt | hle := Nat.lt_or_ge 254 p.length
  · rw [encodeFrame_of_gt hgt] at h
    cases h
  · rw [encodeFrame_of_le hle, EncodeResult.frame.injEq] at h
    obtain ⟨hspan, hc⟩ := List.append_inj' h rfl
    obtain ⟨hl, -⟩ := List.cons.inj hspan
    obtain ⟨hc, -⟩ := List.cons.inj hc
    rw [hl] at hc
    exact ⟨by rw [← hl, lengthByte_toNat hle, Nat.add_comm], hc.symm⟩

/-- Settles O43: the idle steps before the frame change nothing, the span is received, and the checksum byte delivers. -/
theorem decoderRoundTrip : Obligations.DecoderRoundTrip := by
  intro s t l c p ps before body last hs henc hrst hsyms hbefore hbody hidle
  obtain ⟨hl, rfl⟩ := encodeFrame_eq_frame henc
  obtain ⟨zs, rfl⟩ := exists_links_of_symIdle hbefore
  have hlen : (t :: p).length = l.toNat := hl.symm
  obtain ⟨o, hquiet⟩ := decSteps_idle_canonicalIdle zs hs
  obtain ⟨o', hspan⟩ := decSteps_span (s := { s with decOut := o }) hs hbody hlen hidle
  rw [runStims_dec ps hrst, hsyms, List.append_assoc (zs.map _), List.singleton_append, decSteps_append, decSteps_append,
    hquiet, andThen_next, hspan, andThen_next, decSteps, decStep_inFrame_deliver rfl hlen, andThen_next, decSteps]
  simp [decCommit_readyByte, hs, Nat.add_assoc]

/-! ### A frame always ends (R130) -/

/-- The ends of a frame of length byte `L` with the numbers of busy and idle steps after the length byte (R130). -/
inductive FrameEnd (T L : Nat) : (busy idle : Nat) → Option DecEvent → Prop
  | deliver {idle : Nat} (t : Byte) (p : List Byte) (h : idle < T) : FrameEnd T L (L + 1) idle (some (.deliver t p))
  | mismatch {idle : Nat} (h : idle < T) : FrameEnd T L (L + 1) idle (some (.discard .chkMismatch))
  | missing {idle : Nat} (h : idle ≤ T) : FrameEnd T L L idle (some (.discard .chkMissing))
  | timeout {busy : Nat} (h : busy < L) : FrameEnd T L busy T (some (.discard .bodyTimeout))

/-- The run `ys`, after `busy` and `idle` steps of the frame of length byte `l`, reaches the frame's end. -/
def ReachesFrameEnd (l : Byte) (busy idle : Nat) (ys : List LinkSym) (s : State) : Prop :=
  ∃ pre post u, ys = pre ++ post ∧ decSteps pre s = .next u ∧ u.dec = DecRegs.canonicalIdle ∧
    FrameEnd s.cfg.frameTimeoutTicks l.toNat (busy + busySteps pre) (idle + idleSteps pre) u.decOut.event

section
variable {l : Byte} {busy idle : Nat} {ys : List LinkSym} {s : State}

/-- A step that ends the frame. -/
theorem reachesFrameEnd_of_end {y : LinkSym} {ev : DecEvent}
    (h : decStep y s = .next (decCommit y (some ev) DecRegs.canonicalIdle s))
    (hend : FrameEnd s.cfg.frameTimeoutTicks l.toNat (busy + busySteps [y]) (idle + idleSteps [y]) (some ev)) :
    ReachesFrameEnd l busy idle (y :: ys) s :=
  ⟨[y], ys, _, rfl, by rw [decSteps, h]; rfl, rfl, hend⟩

/-- An idle step inside the frame, then a run that reaches its end. -/
theorem reachesFrameEnd_link_cons {z : IdleSym} {d : DecRegs} (h : decStep z.link s = .next (decCommit z.link none d s))
    (hrest : ReachesFrameEnd l busy (idle + 1) ys (decCommit z.link none d s)) :
    ReachesFrameEnd l busy idle (z.link :: ys) s := by
  obtain ⟨pre, post, u, rfl, hrun, hu, hend⟩ := hrest
  refine ⟨z.link :: pre, post, u, rfl, by rw [decSteps, h, andThen_next, hrun], hu, ?_⟩
  rw [busySteps_link_cons, idleSteps_link_cons, Nat.add_comm (idleSteps pre), ← Nat.add_assoc]
  exact hend

/-- A busy step inside the frame, then a run that reaches its end. -/
theorem reachesFrameEnd_readyByte_cons {b : Byte} {d : DecRegs}
    (h : decStep (.readyByte b) s = .next (decCommit (.readyByte b) none d s))
    (hrest : ReachesFrameEnd l (busy + 1) idle ys (decCommit (.readyByte b) none d s)) :
    ReachesFrameEnd l busy idle (.readyByte b :: ys) s := by
  obtain ⟨pre, post, u, rfl, hrun, hu, hend⟩ := hrest
  refine ⟨.readyByte b :: pre, post, u, rfl, by rw [decSteps, h, andThen_next, hrun], hu, ?_⟩
  rw [busySteps_readyByte_cons, idleSteps_readyByte_cons, Nat.add_comm (busySteps pre), ← Nat.add_assoc]
  exact hend

/-- After the whole body the next step ends the frame (R118, R120). -/
theorem reachesFrameEnd_of_checksum_due {bs : List Byte} {n : Nat} (hs : s.dec = DecRegs.inFrame l bs n)
    (hl : 1 ≤ l.toNat) (hlen : bs.length = l.toNat) (hn : n < s.cfg.frameTimeoutTicks) (y : LinkSym) :
    ReachesFrameEnd l bs.length n (y :: ys) s := by
  obtain ⟨z, rfl⟩ | ⟨c, rfl⟩ := link_or_readyByte y
  · refine reachesFrameEnd_of_end (decStep_inFrame_missing hs hlen z) ?_
    simpa [hlen] using FrameEnd.missing hn
  · obtain ⟨ev, hstep, ⟨t, p, rfl⟩ | rfl⟩ := decStep_inFrame_checksum hs hl hlen c <;>
      refine reachesFrameEnd_of_end hstep ?_
    · simpa [hlen] using FrameEnd.deliver t p hn
    · simpa [hlen] using FrameEnd.mismatch hn

end

/-- From inside a frame every run of enough steps reaches its end: each busy step fills a cell of the body, each idle step
counts towards `T`, and one step more ends it. -/
theorem reachesFrameEnd_inFrame (ys : List LinkSym) {s : State} {l : Byte} {bs : List Byte} {n : Nat}
    (hs : s.dec = DecRegs.inFrame l bs n) (hl : 1 ≤ l.toNat) (hbs : bs.length ≤ l.toNat)
    (hn : n < s.cfg.frameTimeoutTicks) (henough : l.toNat + s.cfg.frameTimeoutTicks ≤ bs.length + n + ys.length) :
    ReachesFrameEnd l bs.length n ys s := by
  induction ys generalizing s bs n with
  | nil => rw [List.length_nil] at henough; omega
  | cons y ys ih =>
    rw [List.length_cons] at henough
    obtain hlt | hlen := hbs.lt_or_eq
    · obtain ⟨z, rfl⟩ | ⟨b, rfl⟩ := link_or_readyByte y
      · obtain hx | hx := Nat.lt_or_ge (n + 1) s.cfg.frameTimeoutTicks
        · refine reachesFrameEnd_link_cons (decStep_inFrame_wait hs hlt hx z) (ih rfl hbs hx ?_)
          rw [decCommit_cfg]
          omega
        · have hT : s.cfg.frameTimeoutTicks = n + 1 := by omega
          refine reachesFrameEnd_of_end (decStep_inFrame_timeout hs hlt hx z) ?_
          simpa [hT] using FrameEnd.timeout (T := n + 1) hlt
      · have hlen : (bs ++ [b]).length = bs.length + 1 := by simp
        refine reachesFrameEnd_readyByte_cons (decStep_inFrame_byte hs hlt b) ?_
        rw [← hlen]
        refine ih rfl (by omega) hn ?_
        rw [decCommit_cfg]
        omega
    · exact reachesFrameEnd_of_checksum_due hs hl hlen hn y

/-- Settles O48: the latched length byte is a frame with no byte of its body received, and no idle step. -/
theorem partialFrameNeverBlocks : Obligations.PartialFrameNeverBlocks := by
  intro s l ps hc hl hs hrst hlen
  have hpos : 1 ≤ l.toNat := by bv_omega
  have hframe : s.dec = DecRegs.inFrame l [] 0 := by
    rw [hs, DecRegs.inFrame, if_pos (show ([] : List Byte).length < l.toNat from hpos), chk_singleton]
    rfl
  obtain ⟨pre, post, u, hsplit, hrun, hu, hend⟩ :=
    reachesFrameEnd_inFrame (ps.map DecIn.sym) hframe hpos (Nat.zero_le _) hc (by simp [hlen])
  have htake : (ps.take pre.length).map DecIn.sym = pre := by rw [List.map_take, hsplit, List.take_left]
  have hk : pre.length ≤ ps.length := by
    have := congrArg List.length hsplit
    rw [List.length_map, List.length_append] at this
    omega
  refine ⟨pre.length, u, hk, ?_, hu, ?_⟩
  · rw [runStims_dec _ (fun q hq => hrst q (List.mem_of_mem_take hq)), htake, hrun]
  · rw [← idleSteps_map_sym, ← busySteps_map_sym, htake]
    rw [List.length_nil, Nat.zero_add, Nat.zero_add] at hend
    generalize busySteps pre = busy, idleSteps pre = idle, u.decOut.event = ev at hend ⊢
    cases hend with
    | deliver t p h => exact ⟨rfl, by omega⟩
    | mismatch h => exact ⟨rfl, by omega⟩
    | missing h => exact ⟨rfl, h⟩
    | timeout h => exact ⟨by omega, rfl⟩

end Sys2Proof.Machine
end

section
/-! Reset (10_state R34, R35; 70_reset_and_hazards R176): the units that sample `rst`, its precedence, its repetition. -/

namespace Sys2Proof.Machine

theorem exec_reset_both (s : State) : exec (.reset .both) s = .next (resetEnc (resetDec s)) := rfl

theorem exec_reset_dec (s : State) : exec (.reset .dec) s = .next (resetDec s) := rfl

theorem exec_reset_enc (s : State) : exec (.reset .enc) s = .next (resetEnc s) := rfl

/-- `rst = 1` is looked at before the word `Q` is formed (30_encoding R72). -/
theorem fetchInstr_dec_rst {p : DecIn} (h : p.rst = true) (s : State) :
    fetchInstr (.dec p) s = some (.reset .dec) := by
  rw [fetchInstr, fetchDec, if_pos h]

/-- `rst = 1` is looked at before the word `W` is formed (30_encoding R72). -/
theorem fetchInstr_enc_rst {p : EncIn} (h : p.rst = true) (s : State) :
    fetchInstr (.enc p) s = some (.reset .enc) := by
  rw [fetchInstr, fetchEnc, if_pos h]

theorem resetDec_resetDec (s : State) : resetDec (resetDec s) = resetDec s := rfl

theorem resetEnc_resetEnc (s : State) : resetEnc (resetEnc s) = resetEnc s := rfl

/-- The units' resets write disjoint fields. -/
theorem resetDec_resetEnc (s : State) : resetDec (resetEnc s) = resetEnc (resetDec s) := rfl

/-- A second reset of both units finds every register and output at its reset value. -/
theorem exec_reset_both_twice (s : State) :
    andThen (exec (.reset .both) s) (exec (.reset .both)) = exec (.reset .both) s := by
  rw [exec_reset_both, andThen_next, exec_reset_both, resetDec_resetEnc, resetDec_resetDec, resetEnc_resetEnc]

/-- Settles O54: the canonical idle states and the quiet outputs are the values written out, and both fetches ask for `rst`
first. -/
theorem resetStep : Obligations.ResetStep := by
  intro s
  refine ⟨exec_reset_both s, exec_reset_dec s, exec_reset_enc s, ?decFirst, ?encFirst, rfl, exec_reset_both_twice s⟩
  case decFirst => exact fun _ h => fetchInstr_dec_rst h s
  case encFirst => exact fun _ h => fetchInstr_enc_rst h s

end Sys2Proof.Machine
end

section
/-! Corruption of a byte and the checksum (40_checksum R85), and the sequences that fold to zero (30_encoding R62). -/

namespace Sys2Proof

theorem chk_cons (b : Byte) (s : List Byte) : chk (b :: s) = b ^^^ chk s := by
  rw [← List.singleton_append, chk_append, chk_singleton]

/-- A byte replaced changes the fold by the difference of the two bytes. -/
theorem chk_set {s : List Byte} {i : Nat} {b : Byte} (h : s[i]? = some b) (v : Byte) :
    chk (s.set i v) = chk s ^^^ (b ^^^ v) := by
  induction s generalizing i with
  | nil => simp at h
  | cons a s ih =>
    cases i with
    | zero =>
      obtain rfl : a = b := by simpa using h
      have hcancel : a ^^^ chk s ^^^ (a ^^^ v) = (a ^^^ a) ^^^ (v ^^^ chk s) := by ac_rfl
      rw [List.set_cons_zero, chk_cons, chk_cons, hcancel, BitVec.xor_self, BitVec.zero_xor]
    | succ i => rw [List.set_cons_succ, chk_cons, chk_cons, ih h, BitVec.xor_assoc]

/-- A changed byte changes the fold in exactly the bits in which the byte changed (40_checksum R85). -/
theorem chk_set_xor {s : List Byte} {i : Nat} {b : Byte} (h : s[i]? = some b) (m : Byte) :
    chk (s.set i (b ^^^ m)) = chk s ^^^ m := by
  rw [chk_set h, ← BitVec.xor_assoc b, BitVec.xor_self, BitVec.zero_xor]

/-- Settles O9: the mask of the changed bits goes through the fold. -/
theorem oneBitChangesOneChecksumBit : Obligations.OneBitChangesOneChecksumBit :=
  fun _ _ k _ h _ => chk_set_xor h (1#8 <<< k)

/-- A span and a byte fold to zero exactly if the byte is the span's checksum (30_encoding R62). -/
theorem chk_concat_eq_zero {s : List Byte} {c : Byte} : chk (s ++ [c]) = 0#8 ↔ c = chk s := by
  rw [chk_concat, absorb, BitVec.xor_eq_zero_iff, eq_comm]

/-- A mask of one bit of a byte is not zero. -/
theorem one_shiftLeft_ne_zero {k : Nat} (hk : k < 8) : (1#8 <<< k) ≠ 0#8 := by
  interval_cases k <;> decide

end Sys2Proof
end

section
/-! The bytes of a frame (41_encoder R90, R104), and DEC on the bytes of a span, aligned (42_decoder R118, R127). -/

namespace Sys2Proof.Machine

/-- Everything `Encode` gives: the length byte, the type, the payload and their checksum. -/
theorem encodeFrame_eq_frame_iff {t : Byte} {p f : List Byte} : encodeFrame t p = .frame f ↔
    p.length ≤ 254 ∧
      f = (BitVec.ofNat 8 (1 + p.length) :: t :: p) ++ [chk (BitVec.ofNat 8 (1 + p.length) :: t :: p)] := by
  obtain hgt | hle := Nat.lt_or_ge 254 p.length
  · simp [encodeFrame_of_gt hgt, Nat.not_le.2 hgt]
  · simp [encodeFrame_of_le hle, hle, eq_comm]

/-- Busy steps inside a frame: their bytes are appended to the body. -/
theorem receiveBytes_inFrame (bs' : List Byte) {s : State} {l : Byte} {bs : List Byte} {n : Nat}
    (hs : s.dec = DecRegs.inFrame l bs n) (hlen : bs.length + bs'.length ≤ l.toNat) :
    ∃ o, receiveBytes bs' s = .next { s with
      dec := DecRegs.inFrame l (bs ++ bs') n, decOut := o, rxPos := s.rxPos + bs'.length } := by
  induction bs' generalizing s bs with
  | nil => exact ⟨s.decOut, by simp [receiveBytes, decSteps, ← hs]⟩
  | cons b bs' ih =>
    rw [List.length_cons] at hlen
    obtain ⟨o, ho⟩ := ih (s := decCommit (.readyByte b) none (DecRegs.inFrame l (bs ++ [b]) n) s) rfl
      (by rw [List.length_append, List.length_singleton]; omega)
    refine ⟨o, ?_⟩
    rw [receiveBytes, List.map_cons, decSteps, decStep_inFrame_byte hs (by omega), andThen_next, ← receiveBytes, ho]
    simp [decCommit_readyByte, Nat.add_assoc, Nat.add_comm 1]

/-- A length byte and busy steps that do not fill more than the body. -/
theorem receiveBytes_length_cons {s : State} {l : Byte} {bs : List Byte} (hs : s.dec = DecRegs.canonicalIdle)
    (hl : 1 ≤ l.toNat) (hlen : bs.length ≤ l.toNat) :
    ∃ o, receiveBytes (l :: bs) s = .next { s with
      dec := DecRegs.inFrame l bs 0, decOut := o, rxPos := s.rxPos + (bs.length + 1) } := by
  have hlatch : decStep (.readyByte l) s = .next (decCommit (.readyByte l) none (DecRegs.inFrame l [] 0) s) := by
    rw [decStep_length_latch (by rw [hs]; rfl) (by rintro rfl; simp at hl), decLatch_eq hl]
  obtain ⟨o, ho⟩ := receiveBytes_inFrame bs (s := decCommit (.readyByte l) none (DecRegs.inFrame l [] 0) s) rfl
    (by simpa using hlen)
  refine ⟨o, ?_⟩
  rw [receiveBytes, List.map_cons, decSteps, hlatch, andThen_next, ← receiveBytes, ho]
  simp [decCommit_readyByte, Nat.add_assoc, Nat.add_comm 1]

/-- The end of a frame whose span is `l :: t :: p` and whose checksum byte is `c` (R118). -/
def frameEvent (l t : Byte) (p : List Byte) (c : Byte) : DecEvent :=
  if c = chk (l :: t :: p) then .deliver t p else .discard .chkMismatch

/-- DEC on a whole span, aligned: one event, in the last step (R118, R119, R121). -/
theorem receiveBytes_span {s : State} {l t : Byte} {p : List Byte} (hs : s.dec = DecRegs.canonicalIdle)
    (hl : l.toNat = p.length + 1) (c : Byte) :
    receiveBytes (l :: t :: p ++ [c]) s = .next { s with
      decOut := { rdEn := true, event := some (frameEvent l t p c) }
      rxPos := s.rxPos + (p.length + 3)
      events := s.events ++ [frameEvent l t p c] } := by
  obtain ⟨o, ho⟩ := receiveBytes_length_cons (bs := t :: p) hs (by omega) hl.ge
  have hlast : ∀ u : State, u.dec = DecRegs.inFrame l (t :: p) 0 → decStep (.readyByte c) u
      = .next (decCommit (.readyByte c) (some (frameEvent l t p c)) DecRegs.canonicalIdle u) := by
    intro u hu
    by_cases hc : c = chk (l :: t :: p)
    · subst hc
      rw [decStep_inFrame_deliver hu hl.symm, frameEvent, if_pos rfl]
    · rw [decStep_inFrame_mismatch hu hl.symm hc, frameEvent, if_neg hc, takeDiscard]
  rw [receiveBytes, List.map_append, decSteps_append, ← receiveBytes, ho, andThen_next, List.map_singleton, decSteps,
    hlast _ rfl, andThen_next, decSteps]
  simp [decCommit_readyByte, hs, Nat.add_assoc]

/-- DEC on a frame, aligned: it is delivered (R126). -/
theorem receiveBytes_frame {s : State} {t : Byte} {p f : List Byte} (hs : s.dec = DecRegs.canonicalIdle)
    (hf : encodeFrame t p = .frame f) :
    receiveBytes f s = .next { s with
      decOut := { rdEn := true, event := some (.deliver t p) }
      rxPos := s.rxPos + (p.length + 3)
      events := s.events ++ [.deliver t p] } := by
  obtain ⟨hle, rfl⟩ := encodeFrame_eq_frame_iff.1 hf
  rw [receiveBytes_span hs (by rw [lengthByte_toNat hle, Nat.add_comm]), frameEvent, if_pos rfl]

/-- Settles O45: the span's bytes fold to zero exactly if its last byte is the checksum of the others. -/
theorem spanDeliveredIffXorZero : Obligations.SpanDeliveredIffXorZero := by
  intro s l t c p hs hl
  refine ⟨frameEvent l t p c, by rw [runStims_rxs, receiveBytes_span hs hl], fun h => ?zero, fun h => ?other⟩
  case zero => rw [frameEvent, if_pos (chk_concat_eq_zero.1 h)]
  case other => rw [frameEvent, if_neg (mt chk_concat_eq_zero.2 h)]

/-- Two or more bytes are a first, a last and those between. -/
theorem exists_cons_concat {bs : List Byte} {n : Nat} (h : bs.length = n + 2) :
    ∃ t p c, bs = t :: p ++ [c] ∧ p.length = n := by
  obtain ⟨t, rest, rfl⟩ := List.exists_cons_of_length_pos (l := bs) (by omega)
  obtain rfl | ⟨p, c, rfl⟩ := List.eq_nil_or_concat' rest
  · simp at h
  · exact ⟨t, p, c, rfl, by simpa using h⟩

/-- Settles O44: the length byte stands, so DEC takes the same span, and the changed bit shows in its fold. -/
theorem flippedBitIsDiscarded : Obligations.FlippedBitIsDiscarded := by
  intro s t p f i k b hs hf hi hb hk
  obtain ⟨hle, rfl⟩ := encodeFrame_eq_frame_iff.1 hf
  have hl : (BitVec.ofNat 8 (1 + p.length)).toNat = p.length + 1 := by rw [lengthByte_toNat hle, Nat.add_comm]
  generalize BitVec.ofNat 8 (1 + p.length) = l at *
  have hfold := chk_set_xor hb (1#8 <<< k)
  rw [chk_concat_chk, BitVec.zero_xor] at hfold
  obtain ⟨j, rfl⟩ := Nat.exists_eq_add_of_le' hi
  obtain ⟨t', p', c', hset, hlen⟩ := exists_cons_concat (n := p.length)
    (bs := (t :: p ++ [chk (l :: t :: p)]).set j (b ^^^ (1#8 <<< k))) (by simp)
  rw [List.cons_append, List.cons_append, List.set_cons_succ, ← List.cons_append, hset, ← List.cons_append] at hfold ⊢
  have hc : c' ≠ chk (l :: t' :: p') := fun h => one_shiftLeft_ne_zero hk (hfold ▸ chk_concat_eq_zero.2 h)
  rw [runStims_rxs, receiveBytes_span hs (by omega), frameEvent, if_neg hc, hlen]
  simp

end Sys2Proof.Machine
end

section
/-! What holds of the outcome of each step of each unit holds of the outcome of every input: frames on either stream are made
of such steps, one after another (30_encoding R73, R74). -/

namespace Sys2Proof.Machine

variable {P : State → Prop} {Good : Result → Prop}

/-- A step after another: it is looked at only where the first answers a next state. -/
theorem andThen_good {o : Result} {f : State → Result} (ho : Good o) (hf : ∀ u, o = .next u → Good (f u)) :
    Good (andThen o f) := by
  cases o with
  | next u => exact hf u rfl
  | fault r => exact ho
  | refused r => exact ho

variable (hd : KeptByDec P) (he : KeptByEnc P) (hgd : ∀ y s, P s → Good (decStep y s))
  (hge : ∀ p s, P s → Good (encStep p s)) (hn : ∀ s, Good (.next s))

include hd hgd hn in
theorem decSteps_good (ys : List LinkSym) {s : State} (hs : P s) : Good (decSteps ys s) := by
  induction ys generalizing s with
  | nil => exact hn s
  | cons y ys ih => exact andThen_good (hgd y s hs) (fun u hu => ih (hd y s u hs hu))

include he hge hn in
theorem encDrain_good (n : Nat) {s : State} (hs : P s) : Good (encDrain n s) := by
  induction n generalizing s with
  | zero => exact hn s
  | succ n ih =>
    refine andThen_good (hge _ s hs) (fun u hu => ?_)
    split
    · exact hn u
    · exact ih (he _ s u hs hu)

include he hge hn in
theorem sendFrame_good (ty : Byte) (p : List Byte) {s : State} (hs : P s) : Good (sendFrame ty p s) := by
  obtain ⟨n, -, hsend⟩ := sendFrame_eq ty p s
  rw [hsend]
  refine andThen_good (hge _ s hs) (fun u hu => ?_)
  split
  · exact hn u
  · exact encDrain_good he hge hn n (he _ s u hs hu)

include hd hgd hn in
theorem receiveFrame_good (ty : Byte) (p : List Byte) {s : State} (hs : P s) : Good (receiveFrame ty p s) := by
  unfold receiveFrame
  split
  · exact decSteps_good hd hgd hn _ hs
  · exact hn s

include hd he hgd hge hn in
/-- What holds of the units' steps and of every next state holds of every input's outcome. -/
theorem stepOn_good (st : Stim) {s : State} (hs : P s) : Good (stepOn st s) := by
  cases st with
  | dec p =>
    cases hr : p.rst with
    | false => rw [stepOn_dec hr]; exact hgd _ s hs
    | true => rw [stepOn_dec_rst hr]; exact hn _
  | enc p =>
    cases hr : p.rst with
    | false => rw [stepOn_enc hr]; exact hge _ s hs
    | true => rw [stepOn_enc_rst hr]; exact hn _
  | reset => exact hn _
  | frame side ty p =>
    rw [stepOn_frame]
    cases side with
    | tx => exact sendFrame_good he hge hn ty p hs
    | rx => exact receiveFrame_good hd hgd hn ty p hs
  | func f =>
    obtain ⟨r, hr⟩ := stepOn_func f s
    rw [hr]; exact hn _

end Sys2Proof.Machine
end

section
/-! Everything a DEC step can do, line by line of its table (42_decoder R122), and that it reads its registers and `T`
alone. -/

namespace Sys2Proof.Machine

/-- DEC's step on a link symbol, by the lines of R122: what holds before it and the state that it leaves. -/
inductive DecMove (s : State) : LinkSym → State → Prop
  | idle (z : IdleSym) (hs : s.dec.state = .awaitLength) : DecMove s z.link (decNothing z.link s)
  | zero (hs : s.dec.state = .awaitLength) : DecMove s (.readyByte 0#8) (takeDiscard .lenZero (.readyByte 0#8) s)
  | latch {b : Byte} (hs : s.dec.state = .awaitLength) (hb : b ≠ 0#8) : DecMove s (.readyByte b) (decLatch b s)
  | store {b : Byte} (hs : s.dec.state = .awaitBody) (hcnt : s.dec.cnt.toNat < 255) :
    DecMove s (.readyByte b) (decCommit (.readyByte b) none
      { s.dec with state := if lastBody s.dec then .awaitChecksum else .awaitBody, cnt := s.dec.cnt + 1#8,
                   acc := absorb s.dec.acc b, buf := s.dec.buf.write s.dec.cnt.toNat b } s)
  | wait (z : IdleSym) (hs : s.dec.state = .awaitBody) (hx : s.dec.idle + 1 < s.cfg.frameTimeoutTicks) :
    DecMove s z.link (decCountIdle z.link s)
  | timeout (z : IdleSym) (hs : s.dec.state = .awaitBody) (hx : s.cfg.frameTimeoutTicks ≤ s.dec.idle + 1) :
    DecMove s z.link (takeDiscard .bodyTimeout z.link s)
  | deliver {t : Byte} {p : List Byte} (hs : s.dec.state = .awaitChecksum) (ht : memRead .decBuf s.dec.buf 0 = .ok t)
    (hp : memReadSpan .decBuf s.dec.buf 1 (s.dec.len.toNat - 1) = .ok p) :
    DecMove s (.readyByte s.dec.acc)
      (decCommit (.readyByte s.dec.acc) (some (.deliver t p)) DecRegs.canonicalIdle s)
  | missing (z : IdleSym) (hs : s.dec.state = .awaitChecksum) : DecMove s z.link (takeDiscard .chkMissing z.link s)
  | mismatch {c : Byte} (hs : s.dec.state = .awaitChecksum) (hc : c ≠ s.dec.acc) :
    DecMove s (.readyByte c) (takeDiscard .chkMismatch (.readyByte c) s)

/-- A delivery that answers a next state has read the type and the payload. -/
theorem decDeliver_reads {c : Byte} {s u : State} (h : decDeliver c s = .next u) :
    ∃ t p, memRead .decBuf s.dec.buf 0 = .ok t ∧ memReadSpan .decBuf s.dec.buf 1 (s.dec.len.toNat - 1) = .ok p ∧
      u = decCommit (.readyByte c) (some (.deliver t p)) DecRegs.canonicalIdle s := by
  unfold decDeliver at h
  split at h
  · cases h
  · next t ht =>
    split at h
    · cases h
    · next p hp => exact ⟨t, p, ht, hp, (Host.Outcome.next.inj h).symm⟩

/-- A step that answers a next state is one of the moves. -/
theorem decMove_of_decStep {s t : State} {y : LinkSym} (h : decStep y s = .next t) : DecMove s y t := by
  obtain ⟨z, rfl⟩ | ⟨b, rfl⟩ := link_or_readyByte y <;> cases hs : s.dec.state
  case inl.awaitLength => rw [decStep_length_idle z hs] at h; cases h; exact .idle z hs
  case inl.awaitBody =>
    obtain hx | hx := Nat.lt_or_ge (s.dec.idle + 1) s.cfg.frameTimeoutTicks
    · rw [decStep_body_wait z hs hx] at h; cases h; exact .wait z hs hx
    · rw [decStep_body_timeout z hs hx] at h; cases h; exact .timeout z hs hx
  case inl.awaitChecksum => rw [decStep_checksum_idle z hs] at h; cases h; exact .missing z hs
  case inr.awaitLength =>
    by_cases hb : b = 0#8
    · subst hb; rw [decStep_length_zero hs] at h; cases h; exact .zero hs
    · rw [decStep_length_latch hs hb] at h; cases h; exact .latch hs hb
  case inr.awaitBody =>
    rw [decStep_body_byte hs] at h
    obtain ⟨hcnt, rfl⟩ := decStore_eq_next.1 h
    exact .store hs hcnt
  case inr.awaitChecksum =>
    by_cases hb : b = s.dec.acc
    · subst hb
      rw [decStep_checksum_match hs] at h
      obtain ⟨t, p, ht, hp, rfl⟩ := decDeliver_reads h
      exact .deliver hs ht hp
    · rw [decStep_checksum_mismatch hs hb] at h; cases h; exact .mismatch hs hb

/-- A step reads DEC's registers and `T`, and nothing else: where these are the same, it writes the same. -/
theorem decStep_local {s t : State} {y : LinkSym} (h : decStep y s = .next t) :
    ∃ ev d, ∀ s' : State, s'.dec = s.dec → s'.cfg = s.cfg → decStep y s' = .next (decCommit y ev d s') := by
  cases decMove_of_decStep h with
  | idle z hs =>
    exact ⟨none, s.dec, fun s' hd _ => by rw [decStep_length_idle z (by rw [hd, hs]), decNothing, hd]⟩
  | zero hs => exact ⟨_, _, fun s' hd _ => decStep_length_zero (by rw [hd, hs])⟩
  | latch hs hb => exact ⟨_, _, fun s' hd _ => decStep_length_latch (by rw [hd, hs]) hb⟩
  | store hs hcnt =>
    exact ⟨_, _, fun s' hd _ => by rw [decStep_body_byte (by rw [hd, hs]), decStore_ok (by rw [hd]; exact hcnt), hd]⟩
  | wait z hs hx =>
    refine ⟨none, { s.dec with idle := s.dec.idle + 1 }, fun s' hd hc => ?_⟩
    rw [decStep_body_wait z (by rw [hd, hs]) (by rw [hd, hc]; exact hx), decCountIdle, hd]
  | timeout z hs hx =>
    exact ⟨_, _, fun s' hd hc => decStep_body_timeout z (by rw [hd, hs]) (by rw [hd, hc]; exact hx)⟩
  | @deliver t p hs ht hp =>
    refine ⟨some (.deliver t p), DecRegs.canonicalIdle, fun s' hd _ => ?_⟩
    rw [← hd, decStep_checksum_match (by rw [hd, hs]), decDeliver, hd, ht]
    simp only [hp]
  | missing z hs => exact ⟨_, _, fun s' hd _ => decStep_checksum_idle z (by rw [hd, hs])⟩
  | mismatch hs hc => exact ⟨_, _, fun s' hd _ => decStep_checksum_mismatch (by rw [hd, hs]) (by rw [hd]; exact hc)⟩

/-- A run reads DEC's registers and `T`, and nothing else: where these are the same, it ends in the same registers, with the
same events. -/
theorem decSteps_local {s t : State} {ys : List LinkSym} (h : decSteps ys s = .next t) :
    ∃ d evs, ∀ s' : State, s'.dec = s.dec → s'.cfg = s.cfg →
      ∃ o n, decSteps ys s' = .next { s' with dec := d, decOut := o, rxPos := n, events := s'.events ++ evs } := by
  induction ys generalizing s with
  | nil => exact ⟨s.dec, [], fun s' hd _ => ⟨s'.decOut, s'.rxPos, by simp [decSteps, ← hd]⟩⟩
  | cons y ys ih =>
    obtain ⟨u, hu, ht⟩ := andThen_eq_next.1 h
    obtain ⟨ev, d, hstep⟩ := decStep_local hu
    obtain rfl : decCommit y ev d s = u := by simpa [hstep s rfl rfl] using hu
    obtain ⟨d', evs, hrest⟩ := ih ht
    refine ⟨d', ev.toList ++ evs, fun s' hd hc => ?_⟩
    obtain ⟨o, n, ho⟩ := hrest (decCommit y ev d s') rfl hc
    exact ⟨o, n, by rw [decSteps, hstep s' hd hc, andThen_next, ho]; simp [decCommit]⟩

end Sys2Proof.Machine
end

section
/-! Garbage between two frames (42_decoder R129): DEC's run on it is the run on it alone, and a silence discards what is
left of it. -/

namespace Sys2Proof.Machine

/-- What DEC's steps need and keep of the invariant of the machine. -/
def DecSafe (s : State) : Prop := s.cfg.Valid ∧ s.dec.Inv s.cfg

theorem decSafe_of_idle {s : State} (hc : s.cfg.Valid) (hs : s.dec = DecRegs.canonicalIdle) : DecSafe s :=
  ⟨hc, hs ▸ DecRegs.canonicalIdle_inv s.cfg⟩

theorem keptByDec_decSafe : KeptByDec DecSafe := by
  rintro y s t ⟨hc, hi⟩ h
  have hi' := decStep_keeps_inv hc hi h
  obtain ⟨ev, d, rfl⟩ := decStep_eq_next h
  exact ⟨hc, hi'⟩

/-- A run of DEC from a state of the invariant completes (R110). -/
theorem decSteps_completes (ys : List LinkSym) {s : State} (hs : DecSafe s) : Completes (decSteps ys s) :=
  decSteps_good (Good := Completes) keptByDec_decSafe
    (fun y _ hu => (decStep_total hu.1 hu.2 y).imp fun _ ht => ht.1) (fun u => ⟨u, rfl⟩) ys hs

/-! ### Runs that deliver nothing -/

/-- DEC's run on the bytes adds no delivery to the history. -/
def NoDelivery (bs : List Byte) (s : State) : Prop :=
  ∃ t evs, receiveBytes bs s = .next t ∧ t.events = s.events ++ evs ∧ evs.filter DecEvent.isDeliver = []

/-- A zero length byte is skipped (R112). -/
theorem noDelivery_zero_cons {bs : List Byte} {s : State} (hs : s.dec = DecRegs.canonicalIdle)
    (h : NoDelivery bs (takeDiscard .lenZero (.readyByte 0#8) s)) : NoDelivery (0#8 :: bs) s := by
  obtain ⟨t, evs, hrun, hevs, hnone⟩ := h
  refine ⟨t, .discard .lenZero :: evs, ?_, by rw [hevs]; simp [takeDiscard], by simpa [DecEvent.isDeliver] using hnone⟩
  rw [receiveBytes, List.map_cons, decSteps, decStep_length_zero (by rw [hs]; rfl), andThen_next, ← receiveBytes, hrun]

/-- A frame whose checksum byte has not been received has no event. -/
theorem noDelivery_length_cons {bs : List Byte} {l : Byte} {s : State} (hs : s.dec = DecRegs.canonicalIdle)
    (hl : 1 ≤ l.toNat) (hlen : bs.length ≤ l.toNat) : NoDelivery (l :: bs) s := by
  obtain ⟨o, ho⟩ := receiveBytes_length_cons hs hl hlen
  exact ⟨_, [], ho, (List.append_nil _).symm, rfl⟩

/-- Two bytes are no frame. -/
theorem noDelivery_of_length_le_two (bs : List Byte) (hlen : bs.length ≤ 2) {s : State}
    (hs : s.dec = DecRegs.canonicalIdle) : NoDelivery bs s := by
  induction bs generalizing s with
  | nil => exact ⟨s, [], rfl, (List.append_nil _).symm, rfl⟩
  | cons l bs ih =>
    rw [List.length_cons] at hlen
    by_cases hl : l = 0#8
    · subst hl
      exact noDelivery_zero_cons hs (ih (by omega) rfl)
    · have hpos : 1 ≤ l.toNat := by bv_omega
      exact noDelivery_length_cons hs hpos (by omega)

/-- Of three bytes only `[0x01, x, 0x01 ^ x]` are a frame (R129). -/
theorem noDelivery_of_length_eq_three {bs : List Byte} (hlen : bs.length = 3)
    (hbs : ∀ x, bs ≠ [0x01#8, x, 0x01#8 ^^^ x]) {s : State} (hs : s.dec = DecRegs.canonicalIdle) : NoDelivery bs s := by
  obtain ⟨l, x, c, rfl⟩ := List.length_eq_three.1 hlen
  by_cases hl : l = 0#8
  · subst hl
    exact noDelivery_zero_cons hs (noDelivery_of_length_le_two _ le_rfl rfl)
  by_cases hone : l = 1#8
  · subst hone
    have hc : c ≠ chk [1#8, x] := by
      rintro rfl
      exact hbs x (by rw [chk_cons, chk_singleton])
    refine ⟨_, [.discard .chkMismatch], receiveBytes_span (p := []) hs rfl c, ?_, rfl⟩
    rw [frameEvent, if_neg hc]
  · have htwo : 2 ≤ l.toNat := by bv_omega
    exact noDelivery_length_cons hs (by omega) htwo

/-! ### The silence, and the whole run -/

/-- The inputs of a silence. -/
theorem map_symStim_link (zs : List IdleSym) :
    zs.map (fun z => symStim z.link) = (zs.map (fun z => DecIn.ofSym z.link)).map Stim.dec := by
  simp [symStim]

/-- `T` or more idle steps: DEC is in the canonical idle state, and no delivery is added (R128). -/
theorem runStims_silence {s : State} (hs : DecSafe s) {zs : List IdleSym} (hT : s.cfg.frameTimeoutTicks ≤ zs.length) :
    ∃ o evs, runStims (zs.map (fun z => symStim z.link)) s = .next { s with
        dec := DecRegs.canonicalIdle, decOut := o, events := s.events ++ evs } ∧
      evs.filter DecEvent.isDeliver = [] := by
  rw [map_symStim_link]
  obtain ⟨o, evs, hrun, hevs⟩ := silenceResynchronises s (zs.map (fun z => DecIn.ofSym z.link)) hs.1 hs.2
    (by simp) (by simpa using hT)
  refine ⟨o, evs, hrun, ?_⟩
  obtain rfl | ⟨r, rfl⟩ := hevs <;> rfl

/-- Settles O47: the first frame leaves DEC as it was, so the garbage does what it does alone; the silence discards what the
garbage leaves, and the second frame is aligned. -/
theorem garbageBetweenFramesIsContained : Obligations.GarbageBetweenFramesIsContained := by
  intro s t1 t2 p1 p2 f1 f2 g silence hc hs hf1 hf2 hT
  obtain ⟨v, hv⟩ : Completes (receiveBytes g s) := decSteps_completes _ (decSafe_of_idle hc hs)
  obtain ⟨d, alone, hlocal⟩ := decSteps_local hv
  have halone : v.events = s.events ++ alone := by
    obtain ⟨o, n, ho⟩ := hlocal s rfl rfl
    cases hv.symm.trans ho
    rfl
  obtain ⟨u₁, hfirst, hidle, hcfg, hevents⟩ : ∃ u, receiveBytes f1 s = .next u ∧ u.dec = DecRegs.canonicalIdle ∧
      u.cfg = s.cfg ∧ u.events = s.events ++ [.deliver t1 p1] := ⟨_, receiveBytes_frame hs hf1, hs, rfl, rfl⟩
  obtain ⟨o, n, hgarbage⟩ := hlocal u₁ (hidle.trans hs.symm) hcfg
  rw [← receiveBytes] at hgarbage
  have hsafe := decSteps_keeps keptByDec_decSafe _ (decSafe_of_idle (hcfg ▸ hc) hidle) hgarbage
  obtain ⟨o', evs, hsilence, hquiet⟩ := runStims_silence hsafe (zs := silence) (hcfg ▸ hT)
  have hmid : (alone ++ evs).filter DecEvent.isDeliver = alone.filter DecEvent.isDeliver := by
    rw [List.filter_append, hquiet, List.append_nil]
  refine ⟨?last, v, alone ++ evs, alone, ?run, ?idle, ?events, by rw [runStims_rxs, hv], halone, hmid,
    fun hlen hg => ?three⟩
  case run =>
    rw [runStims_append, runStims_append, runStims_append, runStims_rxs, hfirst, andThen_next, runStims_rxs, hgarbage,
      andThen_next, hsilence, andThen_next, runStims_rxs, receiveBytes_frame rfl hf2]
  case idle => rfl
  case events => simp [hevents]
  case three =>
    obtain ⟨v', evs', hv', hevs', hnone⟩ := noDelivery_of_length_eq_three hlen hg hs
    cases hv.symm.trans hv'
    rw [hmid, List.append_cancel_left (halone.symm.trans hevs'), hnone]

end Sys2Proof.Machine
end

section
/-! One step of the machine (30_encoding section 5): the instruction that the next input selects; from the invariant it
completes (42_decoder R110), and in no state is it refused (30_encoding R70 to R72). -/

namespace Sys2Proof.Machine

/-! ### The instruction -/

theorem step_of_pending_nil {s : State} (h : s.pending = []) : step s = .next s := by rw [step, h]

theorem step_of_pending_cons {s : State} {st : Stim} {rest : List Stim} (h : s.pending = st :: rest) :
    step s = stepOn st { s with pending := rest } := by rw [step, h]

theorem stepOn_of_fetchInstr {st : Stim} {s : State} {i : Instr} (h : fetchInstr st s = some i) :
    stepOn st s = exec i s := by rw [stepOn, h]

/-- Every input selects an instruction. -/
theorem exists_fetchInstr (st : Stim) (s : State) : ∃ i, fetchInstr st s = some i := by
  cases st with
  | dec p =>
    cases hr : p.rst with
    | true => exact ⟨_, fetchInstr_dec_rst hr s⟩
    | false =>
      simp only [fetchInstr, fetchDec, hr, Bool.false_eq_true, if_false]
      obtain ⟨z, hz⟩ | ⟨b, hb⟩ := link_or_readyByte p.sym
      · exact ⟨_, by rw [hz, decodeDecSel_link]⟩
      · exact ⟨_, by rw [hb, decodeDecSel_readyByte]⟩
  | enc p =>
    cases hr : p.rst with
    | true => exact ⟨_, fetchInstr_enc_rst hr s⟩
    | false =>
      cases hs : s.enc.state with
      | idle =>
        cases hst : p.start with
        | false => exact ⟨_, fetchInstr_enc_nop hr hs hst⟩
        | true =>
          obtain hl | hl := Nat.lt_or_ge 254 p.payIn.length
          · exact ⟨_, fetchInstr_enc_reject hr hs hst hl⟩
          · exact ⟨_, fetchInstr_enc_accept hr hs hst hl⟩
      | len => exact ⟨_, fetchInstr_enc_len hr hs⟩
      | type => exact ⟨_, fetchInstr_enc_type hr hs⟩
      | payload => exact ⟨_, fetchInstr_enc_payload hr hs⟩
      | chk => exact ⟨_, fetchInstr_enc_chk hr hs⟩
  | reset => exact ⟨_, rfl⟩
  | frame side t p =>
    rw [fetchInstr, frameInstr]
    split
    · next hp =>
      obtain ⟨i, hi, -⟩ := selectWire_eq side t p hp
      exact ⟨i, hi⟩
    · exact ⟨_, rfl⟩
  | func f => exact ⟨_, rfl⟩

/-- Settles O53: each kind of input has its row. -/
theorem stepRunsTheSelectedInstruction : Obligations.StepRunsTheSelectedInstruction :=
  ⟨fun _ _ _ _ hp hi => (step_of_pending_cons hp).trans (stepOn_of_fetchInstr hi), fun s st => exists_fetchInstr st s,
    fun _ => step_of_pending_nil⟩

/-! ### From the invariant -/

/-- An ENC step completes in the states of the invariant: the payload cell on offer holds a value (10_state R27). -/
theorem encStep_completes {s : State} (hi : s.enc.Inv) (p : EncIn) : Completes (encStep p s) := by
  by_cases hs : s.enc.state = .idle
  · rw [encStep_idle hs, encStepIdle]
    split_ifs <;> exact ⟨_, rfl⟩
  · obtain ⟨b, hb, -⟩ := EncRegs.remaining_eq_cons hi hs
    exact ⟨_, encStep_of_offered hb⟩

theorem stepOn_completes (st : Stim) {s : State} (hi : s.Inv) : Completes (stepOn st s) := by
  refine stepOn_good (Good := Completes) keptByDec_inv keptByEnc_inv ?_ ?_ (fun u => ⟨u, rfl⟩) st hi
  · rintro y u ⟨hc, hd, -⟩
    obtain ⟨t, ht, -⟩ := decStep_total hc hd y
    exact ⟨t, ht⟩
  · rintro p u ⟨-, -, he⟩
    exact encStep_completes he p

theorem step_completes {s : State} (hi : s.Inv) : Completes (step s) := by
  cases hp : s.pending with
  | nil => exact ⟨s, step_of_pending_nil hp⟩
  | cons st rest =>
    rw [step_of_pending_cons hp]
    exact stepOn_completes st (show State.Inv { s with pending := rest } from hi)

/-- Settles O51: each step completes and keeps the invariant. -/
theorem runsFromInvariantAreSafe : Obligations.RunsFromInvariantAreSafe := by
  intro s hi k
  induction k generalizing s with
  | zero => exact trivial
  | succ k ih =>
    obtain ⟨t, ht⟩ := step_completes hi
    exact ⟨t, ht, ih t (step_keeps_inv hi ht)⟩

/-- Settles O50: both units are in their canonical idle states, and `T = 20`. -/
theorem resetMeetsInvariant : Obligations.ResetMeetsInvariant :=
  ⟨by decide, DecRegs.canonicalIdle_inv _, EncRegs.canonicalIdle_inv⟩

/-! ### From any state -/

/-- The outcome is a next state or a fault. -/
def NotRefused (o : Result) : Prop := ∀ r, o ≠ .refused r

theorem notRefused_next (s : State) : NotRefused (.next s) := fun _ => nofun

/-- A store ends in a next state or in the fault of a cell that the buffer does not have. -/
theorem decStore_notRefused (b : Byte) (after : DecState) (s : State) : NotRefused (decStore b after s) := by
  unfold decStore
  split <;> exact fun _ => nofun

/-- A delivery ends in a next state or in the fault of a cell without a value. -/
theorem decDeliver_notRefused (c : Byte) (s : State) : NotRefused (decDeliver c s) := by
  unfold decDeliver
  split
  · exact fun _ => nofun
  · split <;> exact fun _ => nofun

theorem decStep_notRefused (y : LinkSym) (s : State) : NotRefused (decStep y s) := by
  obtain ⟨z, rfl⟩ | ⟨b, rfl⟩ := link_or_readyByte y
  · obtain ⟨t, ht⟩ := decStep_link_completes z s
    rw [ht]
    exact notRefused_next t
  · cases hs : s.dec.state with
    | awaitLength =>
      by_cases hb : b = 0#8
      · subst hb; rw [decStep_length_zero hs]; exact notRefused_next _
      · rw [decStep_length_latch hs hb]; exact notRefused_next _
    | awaitBody => rw [decStep_body_byte hs]; exact decStore_notRefused b _ s
    | awaitChecksum =>
      by_cases hb : b = s.dec.acc
      · subst hb; rw [decStep_checksum_match hs]; exact decDeliver_notRefused _ s
      · rw [decStep_checksum_mismatch hs hb]; exact notRefused_next _

/-- A step on the payload byte ends in a next state or in the fault of a cell without a value. -/
theorem withPayloadByte_notRefused (s : State) (f : Byte → State) : NotRefused (withPayloadByte s f) := by
  unfold withPayloadByte
  split <;> exact fun _ => nofun

theorem encStep_notRefused (p : EncIn) (s : State) : NotRefused (encStep p s) := by
  cases hs : s.enc.state <;> simp only [encStep, hs]
  case idle => unfold encStepIdle; split_ifs <;> exact notRefused_next _
  case payload => unfold encStepPayload; split_ifs <;> exact withPayloadByte_notRefused s _
  all_goals split_ifs <;> exact notRefused_next _

/-- Settles O52: no step of a unit is refused, in any state, and every input is made of such steps. -/
theorem stepNeverRefuses : Obligations.StepNeverRefuses := by
  intro s
  change NotRefused (step s)
  cases hp : s.pending with
  | nil => rw [step_of_pending_nil hp]; exact notRefused_next s
  | cons st rest =>
    rw [step_of_pending_cons hp]
    exact stepOn_good (P := fun _ => True) (fun _ _ _ _ _ => trivial) (fun _ _ _ _ _ => trivial)
      (fun y u _ => decStep_notRefused y u) (fun p u _ => encStep_notRefused p u) notRefused_next st trivial

end Sys2Proof.Machine
end

section
/-! The decoder on the bytes of a span, and the row of a header (30_encoding R60 to R66). -/

namespace Sys2Proof

/-- A span decodes exactly if its last byte is the checksum of the others, and then to the row of its type and payload. -/
theorem decodeWire_eq_ok_iff {side : Side} {l t c : Byte} {p : List Byte} {i : Instr} (hl : l.toNat = p.length + 1) :
    decodeWire side (l :: t :: p ++ [c]) = .ok i ↔ c = chk (l :: t :: p) ∧ selectWire side t p = some i := by
  have hne : l ≠ 0#8 := by rintro rfl; simp at hl
  have htake : (t :: (p ++ [c])).take l.toNat = t :: p := by
    rw [hl, ← List.cons_append]; exact List.take_left' rfl
  have hdrop : (t :: (p ++ [c])).drop l.toNat = [c] := by
    rw [hl, ← List.cons_append]; exact List.drop_left' rfl
  have hshort : ¬ (t :: (p ++ [c])).length < l.toNat + 1 := by simp; omega
  have hlong : ¬ l.toNat + 1 < (t :: (p ++ [c])).length := by simp; omega
  rw [List.cons_append, List.cons_append, decodeWire, if_neg hne, if_neg hshort, if_neg hlong, htake, hdrop]
  by_cases hc : c = chk (l :: t :: p)
  · cases hrow : selectWire side t p <;> simp [← hc, hrow]
  · simp [hc]

/-- Settles O4: every type and payload has a row. -/
theorem spanDecodesIffChecksumAgrees : Obligations.SpanDecodesIffChecksumAgrees := by
  intro side l t c p hl
  have hle : p.length ≤ 254 := by have := l.isLt; omega
  obtain ⟨i, hi, -⟩ := Machine.selectWire_eq side t p hle
  refine ⟨⟨fun ⟨j, hj⟩ => ?valid, fun hc => ⟨i, ?decodes⟩⟩, fun j hj => ?row⟩
  case valid => exact ((decodeWire_eq_ok_iff hl).1 hj).1
  case decodes => exact (decodeWire_eq_ok_iff hl).2 ⟨hc, hi⟩
  case row => exact ((decodeWire_eq_ok_iff hl).1 hj).2

/-- The bytes of a frame decode to the row of its header. -/
theorem decodeWire_frameImage {side : Side} {t : Byte} {p : List Byte} {i : Instr} (hp : p.length ≤ 254)
    (hi : selectWire side t p = some i) : decodeWire side (frameImage t p) = .ok i :=
  (decodeWire_eq_ok_iff (by rw [lengthByte_toNat hp, Nat.add_comm])).2 ⟨rfl, hi⟩

/-- Settles O5: `Encode` gives the frame image, whose last byte closes the fold. -/
theorem encodedFrameIsWellFormed : Obligations.EncodedFrameIsWellFormed := by
  intro t p hp
  refine ⟨_, encodeFrame_of_le hp, by simp, ⟨_, rfl, lengthByte_toNat hp⟩, chk_concat_chk _, fun side => ?_⟩
  obtain ⟨i, hi, -⟩ := Machine.selectWire_eq side t p hp
  exact ⟨i, decodeWire_frameImage hp hi⟩

/-! ### The row of a header (R65, R66) -/

/-- A row whose mask is all ones is hit by its own header alone. -/
theorem rowHit_headerWord {l t a b : Byte} :
    rowHit 16 (headerWord l t) (headerWord a b, 0xFFFF#16) = true ↔ l = a ∧ t = b := by
  have hall : headerWord l t &&& 0xFFFF#16 = headerWord l t := BitVec.and_allOnes
  rw [rowHit, hall, beq_iff_eq, headerWord_inj]

/-- The length byte of a payload that fits tells its length. -/
theorem lengthByte_eq_iff {n k : Nat} (hn : n ≤ 254) (hk : k ≤ 254) :
    BitVec.ofNat 8 (1 + n) = BitVec.ofNat 8 (1 + k) ↔ n = k := by
  rw [← BitVec.toNat_inj, lengthByte_toNat hn, lengthByte_toNat hk, Nat.add_left_cancel_iff]

/-- The row that a frame's header hits, with the frame's operands. -/
theorem selectWire_of_row {side : Side} {l t : Byte} {p : List Byte} {r : WireRow}
    (hr : selectRow 16 wireTable (headerWord l t) = some r) (hl : BitVec.ofNat 8 (1 + p.length) = l) :
    selectWire side t p = wireInstr r side t p := by
  rw [selectWire, hl, hr, Option.bind_some]

/-- The header that is not registered is FRAME.RESERVED's (R72). -/
theorem selectWire_reserved {side : Side} {t : Byte} {p : List Byte} (hp : p.length ≤ 254)
    (h : registered t p.length = false) : selectWire side t p = some (.frameReserved side t p) := by
  have hmiss : ∀ k b, k ≤ 254 → ¬ (t = b ∧ p.length = k) →
      rowHit 16 (headerWord (BitVec.ofNat 8 (1 + p.length)) t) (headerWord (BitVec.ofNat 8 (1 + k)) b, 0xFFFF#16)
        = false := fun k b hk hne =>
    Bool.eq_false_iff.2 fun hhit => hne ((rowHit_headerWord.1 hhit).symm.imp_right (lengthByte_eq_iff hp hk).1)
  simp only [registered, Bool.or_eq_false_iff, Bool.and_eq_false_iff, beq_eq_false_iff_ne, ← not_and_or] at h
  obtain ⟨⟨hdiscovery, hcpu⟩, hmem⟩ := h
  have h1 : rowHit 16 _ (0x01FF#16, 0xFFFF#16) = false := hmiss 0 0xFF#8 (by omega) hdiscovery
  have h2 : rowHit 16 _ (0x0501#16, 0xFFFF#16) = false := hmiss 4 0x01#8 (by omega) hcpu
  have h3 : rowHit 16 _ (0x0502#16, 0xFFFF#16) = false := hmiss 4 0x02#8 (by omega) hmem
  have h4 : rowHit 16 (headerWord (BitVec.ofNat 8 (1 + p.length)) t) (0x0000#16, 0x0000#16) = true := by simp [rowHit]
  simp [selectWire, wireTable, selectRow, wireInstr, h1, h2, h3, h4]

end Sys2Proof
end

section
/-! Decoding an encoded instruction, format by format (30_encoding section 5; the images are log entry 17's). -/

namespace Sys2Proof

open Machine

/-! ### Link symbol words (10_state R30) -/

/-- The byte of bits 9:8 of a word `S`. -/
def linkHigh (poll rv : Bool) : Byte := if poll then if rv then 0x03#8 else 0x02#8 else if rv then 0x01#8 else 0x00#8

theorem linkHigh_lt (poll rv : Bool) : (linkHigh poll rv).toNat < 4 := by
  revert poll rv; decide

theorem linkHigh_low (poll rv : Bool) :
    (linkHigh poll rv).extractLsb' 0 2 = BitVec.ofBool poll ++ BitVec.ofBool rv := by
  revert poll rv; decide

theorem linkWordOf_linkHigh (p : DecIn) : linkWordOf p.data (linkHigh p.poll p.rdValid) = some p.word := by
  rw [linkWordOf, if_pos (linkHigh_lt _ _), linkHigh_low, DecIn.word]

/-- The two bytes of the word on DEC's ports decode to the LINKSYM row of the ports. -/
theorem decodeLink_linkHigh {p : DecIn} {i : Instr} (h : decodeLinkSym p.word = some i) :
    decodeLink [p.data, linkHigh p.poll p.rdValid] = .ok i := by
  simp [decodeLink, linkWordOf_linkHigh, h]

theorem symImage_eq (y : LinkSym) :
    symImage y = [(DecIn.ofSym y).data, linkHigh (DecIn.ofSym y).poll (DecIn.ofSym y).rdValid] := by
  cases y <;> rfl

/-! ### Selection words `Q` (R70) -/

/-- A DECSEL image: a word `Q` and a symbol that its row takes. -/
theorem decodeDec_symImage {q : Byte} {r : DecSelRow} {y : LinkSym} {i : Instr} (hq : q.toNat < 128)
    (hr : selectDecRow (q.extractLsb' 0 7) = some r) (hi : decSelInstr r y = some i) :
    decodeDec (q :: symImage y) = .ok i := by
  have hsym : linkSymOf (DecIn.ofSym y).word = y := sym_ofSym y
  simp [symImage_eq, decodeDec, hq, linkWordOf_linkHigh, hr, hsym, hi]

/-- The image of a row that takes a byte, whatever the byte. -/
theorem decodeDec_byteImage {q b : Byte} {r : DecSelRow} {i : Instr} (hq : q.toNat < 128)
    (hz : (q ||| 0x08#8).toNat < 128) (hr : selectDecRow (q.extractLsb' 0 7) = some r)
    (hrz : selectDecRow ((q ||| 0x08#8).extractLsb' 0 7) = some r) (hi : decSelInstr r (.readyByte b) = some i) :
    decodeDec (byteImage q b) = .ok i := by
  unfold byteImage
  split
  · exact decodeDec_symImage hz hrz hi
  · exact decodeDec_symImage hq hr hi

/-- DEC.AL.LATCH takes a byte that is not zero, so bit `z` is 0. -/
theorem decodeDec_latch {b : Byte} (hb : b ≠ 0#8) : decodeDec (byteImage 0x10#8 b) = .ok (.decAlLatch b) := by
  rw [byteImage, if_neg hb]
  exact decodeDec_symImage (r := .alLatch) (by decide) (by decide) (by simp [decSelInstr, byteInstr, hb])

/-! ### The other formats -/

/-- A byte in length position that is not zero (R69). -/
theorem decodeLen_valid {b : Byte} (hb : b ≠ 0#8) : decodeLen [b] = .ok (.lenValid b) := by
  have hzero : rowHit 8 b (0x00#8, 0xFF#8) = false := by
    have hall : b &&& 0xFF#8 = b := BitVec.and_allOnes
    rw [rowHit, hall]
    exact beq_eq_false_iff_ne.2 hb
  have hany : rowHit 8 b (0x00#8, 0x00#8) = true := by simp [rowHit]
  simp [decodeLen, lenTable, selectRow, hzero, hany]

/-- An image whose word `W` has its bit `start` set carries the command. -/
theorem decodeEnc_command {w t : Byte} {p : List Byte} {r : EncSelRow} {i : Instr} (hr : selectEncRow w = some r)
    (hw : w.getLsbD 4 = true) (hi : encSelInstr r t p = some i) : decodeEnc (w :: t :: p) = .ok i := by
  simp [decodeEnc, hr, hw, hi]

theorem accRegOf_accRegImage (r : AccReg) : accRegOf (accRegImage r) = some r := by cases r <;> rfl

/-- Settles O1: row by row, the image selects its own row and carries its operands. -/
theorem decodeOfEncodeIsIdentity : Obligations.DecodeOfEncodeIsIdentity := by
  intro i hwf
  cases i with
  | frameDiscovery side =>
    have hrow : selectRow 16 wireTable (headerWord 0x01#8 0xFF#8) = some .discovery := by decide
    exact decodeWire_frameImage (p := []) (by simp) (selectWire_of_row hrow rfl)
  | frameCpu side p0 p1 p2 p3 =>
    have hrow : selectRow 16 wireTable (headerWord 0x05#8 0x01#8) = some .cpu := by decide
    exact decodeWire_frameImage (p := [p0, p1, p2, p3]) (by simp) (selectWire_of_row hrow rfl)
  | frameMem side p0 p1 p2 p3 =>
    have hrow : selectRow 16 wireTable (headerWord 0x05#8 0x02#8) = some .mem := by decide
    exact decodeWire_frameImage (p := [p0, p1, p2, p3]) (by simp) (selectWire_of_row hrow rfl)
  | frameReserved side t p =>
    obtain ⟨hp, hreg⟩ : p.length ≤ 254 ∧ registered t p.length = false := by simpa [Instr.wf, payloadMax] using hwf
    exact decodeWire_frameImage hp (selectWire_reserved hp hreg)
  | lenZero => rfl
  | lenValid b => exact decodeLen_valid (by simpa [Instr.wf] using hwf)
  | linkNotReady v d =>
    have himage : encode (.linkNotReady v d) = [d, linkHigh false v] := by cases v <;> rfl
    rw [himage]
    exact decodeLink_linkHigh (decodeLinkSym_word ⟨false, false, v, d⟩)
  | linkReadyEmpty d => exact decodeLink_linkHigh (decodeLinkSym_word ⟨false, true, false, d⟩)
  | linkReadyByte b => exact decodeLink_linkHigh (decodeLinkSym_word ⟨false, true, true, b⟩)
  | decAlIdle y => exact decodeDec_symImage (r := .alIdle) (by decide) (by decide) (by cases y <;> rfl)
  | decAlZero => rfl
  | decAlLatch b => exact decodeDec_latch (by simpa [Instr.wf] using hwf)
  | decAbStore b => exact decodeDec_byteImage (r := .abStore) (by decide) (by decide) (by decide) (by decide) rfl
  | decAbStoreLast b => exact decodeDec_byteImage (r := .abStoreLast) (by decide) (by decide) (by decide) (by decide) rfl
  | decAbWait y => exact decodeDec_symImage (r := .abWait) (by decide) (by decide) (by cases y <;> rfl)
  | decAbTimeout y => exact decodeDec_symImage (r := .abTimeout) (by decide) (by decide) (by cases y <;> rfl)
  | decAcDeliver c => exact decodeDec_byteImage (r := .acDeliver) (by decide) (by decide) (by decide) (by decide) rfl
  | decAcMissing y => exact decodeDec_symImage (r := .acMissing) (by decide) (by decide) (by cases y <;> rfl)
  | decAcMismatch c => exact decodeDec_byteImage (r := .acMismatch) (by decide) (by decide) (by decide) (by decide) rfl
  | encIdleAccept t p =>
    have hp : p.length ≤ payloadMax := by simpa [Instr.wf] using hwf
    exact decodeEnc_command (w := 0x10#8) (r := .idleAccept) (by decide) (by decide) (by rw [encSelInstr, if_pos hp])
  | encIdleReject t p =>
    have hp : ¬ p.length ≤ payloadMax := by simpa [Instr.wf] using hwf
    exact decodeEnc_command (w := 0x18#8) (r := .idleReject) (by decide) (by decide) (by rw [encSelInstr, if_neg hp])
  | encIdleNop | encLenStall | encTypeStall | encPayloadStall | encChkStall => rfl
  | encLenEmit | encTypeEmit | encTypeEmitEmpty | encPayloadEmit | encPayloadEmitLast | encChkEmit => rfl
  | reset scope => cases scope <;> rfl
  | chkFold bs => rfl
  | chkClear r => simp [formatOf, encode, decode, decodeFunc, accRegOf_accRegImage]
  | chkAbsorb r b => simp [formatOf, encode, decode, decodeFunc, accRegOf_accRegImage]
  | encode t p => rfl
  | dispatchClass t n =>
    have hn : n ≤ payloadMax := by simpa [Instr.wf] using hwf
    have hbyte : (BitVec.ofNat 8 n).toNat = n := Nat.mod_eq_of_lt (by simp only [payloadMax] at hn; omega)
    simp only [formatOf, encode, decode, decodeFunc, hbyte, if_pos hn]

/-- Settles O2: the decoder evaluated on the words. -/
theorem specWordsDecode : Obligations.SpecWordsDecode := by
  refine ⟨rfl, rfl, rfl, rfl, rfl, rfl, rfl, rfl⟩

/-- Settles O3: the tables evaluated on every word. -/
theorem selectionRowsDisjointAndCover : Obligations.SelectionRowsDisjointAndCover := by
  constructor <;> decide

end Sys2Proof
end

section
/-! What a DEC step puts out and where it leaves DEC (10_state R31; 42_decoder R122; 60_exceptions R152, R157), and the link
symbol word as a step (10_state R30). -/

namespace Sys2Proof.Machine

/-! ### The rows of a link symbol word and of a length byte -/

@[simp] theorem ofWord_word (w : BitVec 10) : (DecIn.ofWord w).word = w := by
  apply BitVec.eq_of_getLsbD_eq
  intro i hi
  simp only [DecIn.word, DecIn.ofWord, BitVec.getLsbD_append]
  interval_cases i <;> simp

@[simp] theorem ofWord_rst (w : BitVec 10) : (DecIn.ofWord w).rst = false := rfl

/-- The LINKSYM row of the ports is DEC's step on their symbol. -/
theorem exec_of_decodeLinkSym {p : DecIn} {i : Instr} (h : decodeLinkSym p.word = some i) (s : State) :
    exec i s = decStep p.sym s := by
  rw [decodeLinkSym_word, Option.some.injEq] at h
  rw [← h, sym_eq]
  cases p.poll <;> cases p.rdValid <;> rfl

/-- Settles O22: each of the three is DEC's step on the symbol of the word. -/
theorem linkRowIsTheSelectedDecRow : Obligations.LinkRowIsTheSelectedDecRow := by
  intro w s
  obtain ⟨r, hr⟩ := exists_fetchInstr (.dec (DecIn.ofWord w)) s
  have hlink := decodeLinkSym_word (DecIn.ofWord w)
  have hexec := exec_of_decodeLinkSym hlink s
  rw [ofWord_word] at hlink
  exact ⟨_, r, hlink, hr, by rw [hexec, exec_of_fetchInstr_dec rfl hr], by rw [hexec, stepOn_dec rfl]⟩

/-- LEN.ZERO is the step on the byte `0x00` in length position. -/
theorem exec_lenZero {s : State} (hs : s.dec.state = .awaitLength) : exec .lenZero s = decStep (.readyByte 0#8) s := by
  simp [exec, execLenZero, decStep, hs]

/-- LEN.VALID is the step on any other byte there. -/
theorem exec_lenValid {s : State} {b : Byte} (hs : s.dec.state = .awaitLength) (hb : b ≠ 0#8) :
    exec (.lenValid b) s = decStep (.readyByte b) s := by
  have hb' : (b != 0#8) = true := bne_iff_ne.2 hb
  simp [exec, execLenValid, decStep, hs, hb']

/-- Settles O21: the two rows are the two busy steps of AWAIT_LENGTH. -/
theorem lenRowsTakeTheLengthByte : Obligations.LenRowsTakeTheLengthByte := by
  intro s hs
  refine ⟨by rw [exec_lenZero hs, decStep_length_zero hs]; rfl, fun b hb => ?_⟩
  rw [exec_lenValid hs hb, decStep_length_latch hs hb]
  simp [decLatch, decCommit_readyByte]

/-! ### The output ports (R31) -/

/-- The codes of the reasons (60_exceptions R152). -/
theorem DiscardReason.code_range (r : DiscardReason) : 1 ≤ r.code.toNat ∧ r.code.toNat ≤ 4 := by cases r <;> decide

/-- What the ports of a delivery and of a discard tell of each other. -/
theorem decOut_ports (o : DecOut) : (o.deliverValid && o.diagDiscard) = false ∧
    (o.diagDiscard = false → o.diagReason = 0#3) ∧
    (o.diagDiscard = true → 1 ≤ o.diagReason.toNat ∧ o.diagReason.toNat ≤ 4) ∧
    o.deliverType.isSome = o.deliverValid ∧ o.deliverPlen.isSome = o.deliverValid ∧
    o.deliverPayload.isSome = o.deliverValid := by
  obtain ⟨rdEn, _ | ⟨⟨t, p⟩ | ⟨r⟩⟩⟩ := o
  · exact ⟨rfl, fun _ => rfl, nofun, rfl, rfl, rfl⟩
  · exact ⟨rfl, fun _ => rfl, nofun, rfl, rfl, rfl⟩
  · exact ⟨rfl, nofun, fun _ => r.code_range, rfl, rfl, rfl⟩

/-- The payload port holds a value in a delivery alone, with the length beside it. -/
theorem deliverPayload_eq_some {o : DecOut} {pl : List Byte} (h : o.deliverPayload = some pl) :
    (∃ t, o.event = some (.deliver t pl)) ∧ o.deliverPlen = some (BitVec.ofNat 8 pl.length) := by
  obtain ⟨rdEn, _ | ⟨⟨t, p⟩ | ⟨r⟩⟩⟩ := o
  · cases h
  · cases h; exact ⟨⟨t, rfl⟩, rfl⟩
  · cases h

theorem memReadSpan_length {id : BufferId} {m : Memory} {n i : Nat} {vs : List Byte}
    (h : memReadSpan id m i n = .ok vs) : vs.length = n := by
  induction n generalizing i vs with
  | zero => cases h; rfl
  | succ n ih =>
    unfold memReadSpan at h
    split at h
    · cases h
    · split at h
      · cases h
      · next ws hws => cases h; rw [List.length_cons, ih hws]

/-- The payload delivered has the length that the length byte says (R119). -/
theorem decStep_deliver_length {s t : State} {y : LinkSym} {ty : Byte} {pl : List Byte} (hi : s.dec.Inv s.cfg)
    (h : decStep y s = .next t) (hev : t.decOut.event = some (.deliver ty pl)) : s.dec.len.toNat = pl.length + 1 := by
  cases decMove_of_decStep h with
  | deliver hs ht hp =>
    obtain ⟨hlen, -⟩ := (DecRegs.inv_awaitChecksum hs).1 hi
    have hread := memReadSpan_length hp
    cases hev
    omega
  | idle | zero | latch | store | wait | timeout | missing | mismatch => cases hev

/-- Settles O25: an output has one event at most, and a delivery has read as many bytes as the length byte says. -/
theorem decOutputPorts : Obligations.DecOutputPorts := by
  intro s t p _ hi h
  obtain ⟨hone, hnone, hcode, htype, hplen, hpay⟩ := decOut_ports t.decOut
  have hrd : t.decOut.rdEn = (p.poll && !p.rst) ∧
      ∀ ty pl, t.decOut.event = some (.deliver ty pl) → s.dec.len.toNat = pl.length + 1 := by
    cases hr : p.rst with
    | true =>
      rw [stepOn_dec_rst hr] at h
      cases h
      exact ⟨by simp [DecOut.quiet], fun _ _ => nofun⟩
    | false =>
      rw [stepOn_dec hr] at h
      refine ⟨?_, fun ty pl => decStep_deliver_length hi h⟩
      obtain ⟨ev, d, rfl⟩ := decStep_eq_next h
      simp
  refine ⟨hrd.1, hone, hnone, hcode, htype, hplen, hpay, fun pl hpl => ?_⟩
  obtain ⟨⟨ty, hev⟩, hport⟩ := deliverPayload_eq_some hpl
  have hlen := hrd.2 ty pl hev
  have hlt := s.dec.len.isLt
  refine ⟨hlen, ?_, by omega⟩
  rw [hport, Option.some.injEq]
  apply BitVec.eq_of_toNat_eq
  bv_omega

/-! ### The discards (R152, R157) -/

/-- A step with a discard is the discard and nothing more. -/
theorem decStep_discard {s t : State} {y : LinkSym} {r : DiscardReason} (h : decStep y s = .next t)
    (hev : t.decOut.event = some (.discard r)) : t = takeDiscard r y s := by
  cases decMove_of_decStep h with
  | zero | timeout | missing | mismatch => cases hev; rfl
  | idle | latch | store | wait | deliver => cases hev

/-- Settles O26: the state after is that of the discard, whose fields are those written out. -/
theorem discardReturnsToIdle : Obligations.DiscardReturnsToIdle := by
  intro s t p r _ _ hr h hev
  rw [stepOn_dec hr] at h
  rw [decStep_discard h hev]
  refine ⟨rfl, symPoll_sym p, rfl, rfl, ?_⟩
  cases r <;> rfl

/-! ### The table (R122) -/

/-- Settles O27: the moves are the lines of the table. -/
theorem decTransitionTable : Obligations.DecTransitionTable := by
  intro s t p hr h
  rw [stepOn_dec hr] at h
  generalize p.sym = y at h ⊢
  cases decMove_of_decStep h with
  | idle z hs => cases z <;> simp [IdleSym.link, decNothing, hs]
  | zero hs => simp [takeDiscard, DecRegs.canonicalIdle, hs]
  | latch hs hb => simp [decLatch, hs, hb]
  | store hs hcnt => simp [lastBody, hs]
  | wait z hs hx => cases z <;> simp [IdleSym.link, decCountIdle, hs, hx]
  | timeout z hs hx => cases z <;> simp [IdleSym.link, takeDiscard, DecRegs.canonicalIdle, hs, Nat.not_lt.2 hx]
  | deliver hs ht hp => simp [DecOut.deliverValid, DecRegs.canonicalIdle, hs]
  | missing z hs => cases z <;> simp [IdleSym.link, takeDiscard, DecRegs.canonicalIdle, hs]
  | mismatch hs hc => simp [takeDiscard, DecRegs.canonicalIdle, hs, hc]

end Sys2Proof.Machine
end

section
/-! Every instruction, by what it is made of: a DEC row is one DEC step, an ENC row one ENC step, a frame's row a run of
either, and the others write single fields. So what these keep every instruction keeps. -/

namespace Sys2Proof.Machine

/-- A LEN, LINKSYM or DECSEL row that answers a next state is DEC's step on a symbol. -/
theorem exec_decRow_eq_next {i : Instr} {s t : State} (hi : isDecRow i = true) (h : exec i s = .next t) :
    ∃ y, decStep y s = .next t := by
  cases i <;> simp only [isDecRow, Bool.false_eq_true] at hi
  case linkNotReady v d => exact ⟨.notReady, h⟩
  case linkReadyEmpty d => exact ⟨.readyEmpty, h⟩
  case linkReadyByte b => exact ⟨.readyByte b, h⟩
  all_goals
    replace h := whenSelected_eq_next.1 h
    obtain ⟨hsel, h⟩ := h
    simp only [Bool.and_eq_true, beq_iff_eq, bne_iff_ne, Bool.not_eq_true'] at hsel
  case lenZero => exact ⟨.readyByte 0#8, by rw [decStep, hsel]; exact h⟩
  case lenValid b => exact ⟨.readyByte b, by rw [decStep, hsel.1]; exact h⟩
  case decAlIdle y => exact ⟨y.link, by rw [decStep_length_idle y hsel, h]⟩
  case decAlZero => exact ⟨.readyByte 0#8, by rw [decStep_length_zero hsel, h]⟩
  case decAlLatch b => exact ⟨.readyByte b, by rw [decStep_length_latch hsel.1 hsel.2, h]⟩
  case decAbStore b => exact ⟨.readyByte b, by rw [decStep_body_byte hsel.1, hsel.2]; exact h⟩
  case decAbStoreLast b => exact ⟨.readyByte b, by rw [decStep_body_byte hsel.1, hsel.2]; exact h⟩
  case decAbWait y => exact ⟨y.link, by rw [decStep_body_wait y hsel.1 (by simpa [expires] using hsel.2), h]⟩
  case decAbTimeout y => exact ⟨y.link, by rw [decStep_body_timeout y hsel.1 (by simpa [expires] using hsel.2), h]⟩
  case decAcDeliver c => exact ⟨.readyByte c, by rw [hsel.2, decStep_checksum_match hsel.1, ← hsel.2, h]⟩
  case decAcMissing y => exact ⟨y.link, by rw [decStep_checksum_idle y hsel, h]⟩
  case decAcMismatch c => exact ⟨.readyByte c, by rw [decStep_checksum_mismatch hsel.1 hsel.2, h]⟩

/-- An ENCSEL row that answers a next state is ENC's step with some ports. -/
theorem exec_encRow_eq_next {i : Instr} {s t : State} (hi : isEncRow i = true) (h : exec i s = .next t) :
    ∃ p, encStep p s = .next t := by
  cases i <;> simp only [isEncRow, Bool.false_eq_true] at hi
  all_goals
    replace h := whenSelected_eq_next.1 h
    obtain ⟨hsel, h⟩ := h
    simp only [Bool.and_eq_true, beq_iff_eq, decide_eq_true_eq, Bool.not_eq_true'] at hsel
  case encIdleNop => exact ⟨EncIn.noCommand true, by rw [encStep_idle hsel]; exact h⟩
  case encIdleAccept ty p => exact ⟨EncIn.command ty p true, by rw [encStep_accept hsel.1 rfl hsel.2]; exact h⟩
  case encIdleReject ty p =>
    exact ⟨EncIn.command ty p true, by rw [encStep_reject (p := EncIn.command ty p true) hsel.1 rfl hsel.2, h]⟩
  case encLenStall => exact ⟨EncIn.noCommand false, by rw [encStep, hsel]; exact h⟩
  case encTypeStall => exact ⟨EncIn.noCommand false, by rw [encStep, hsel]; exact h⟩
  case encPayloadStall => exact ⟨EncIn.noCommand false, by rw [encStep, hsel]; exact h⟩
  case encChkStall => exact ⟨EncIn.noCommand false, by rw [encStep, hsel]; exact h⟩
  case encLenEmit => exact ⟨EncIn.noCommand true, by rw [encStep, hsel]; exact h⟩
  case encTypeEmit => exact ⟨EncIn.noCommand true, by simp only [encStep, hsel.1, hsel.2]; exact h⟩
  case encTypeEmitEmpty => exact ⟨EncIn.noCommand true, by simp only [encStep, hsel.1, hsel.2]; exact h⟩
  case encPayloadEmit => exact ⟨EncIn.noCommand true, by simp only [encStep, encStepPayload, hsel.1, hsel.2]; exact h⟩
  case encPayloadEmitLast =>
    exact ⟨EncIn.noCommand true, by simp only [encStep, encStepPayload, hsel.1, hsel.2]; exact h⟩
  case encChkEmit => exact ⟨EncIn.noCommand true, by rw [encStep, hsel]; exact h⟩

/-- What the steps of the units, the resets and the writes of single fields keep, every instruction keeps. -/
theorem exec_keeps {P : State → Prop} (hd : KeptByDec P) (he : KeptByEnc P) (hrd : ∀ s, P s → P (resetDec s))
    (hre : ∀ s, P s → P (resetEnc s)) (hf : ∀ r s, P s → P (putFunc r s)) (ha : ∀ r v s, P s → P (putAcc r v s))
    {i : Instr} {s t : State} (hs : P s) (h : exec i s = .next t) : P t := by
  by_cases hdec : isDecRow i = true
  · obtain ⟨y, hy⟩ := exec_decRow_eq_next hdec h
    exact hd y s t hs hy
  by_cases henc : isEncRow i = true
  · obtain ⟨p, hp⟩ := exec_encRow_eq_next henc h
    exact he p s t hs hp
  cases i <;> simp only [isDecRow, isEncRow, not_true_eq_false] at hdec henc
  case frameDiscovery side => exact runFrame_keeps hd he hs h
  case frameCpu side p0 p1 p2 p3 => exact runFrame_keeps hd he hs h
  case frameMem side p0 p1 p2 p3 => exact runFrame_keeps hd he hs h
  case frameReserved side ty p => exact runFrame_keeps hd he hs h
  case reset scope =>
    cases scope <;> cases h
    case both => exact hre _ (hrd s hs)
    case dec => exact hrd s hs
    case enc => exact hre s hs
  case chkFold bs => cases h; exact hf _ s hs
  case chkClear r => cases h; exact ha r _ s hs
  case chkAbsorb r b => cases h; exact ha r _ s hs
  case encode ty p => cases h; exact hf _ s hs
  case dispatchClass ty n => cases h; exact hf _ s hs

/-! ### The parameter (10_state R29) -/

theorem keptByDec_cfg (c : Config) : KeptByDec (fun s => s.cfg = c) := by
  rintro y s t hc h
  obtain ⟨ev, d, rfl⟩ := decStep_eq_next h
  exact hc

theorem keptByEnc_cfg (c : Config) : KeptByEnc (fun s => s.cfg = c) := by
  rintro p s t hc h
  obtain ⟨o, sent, e, rfl⟩ := encStep_eq_next h
  exact hc

theorem exec_cfg {i : Instr} {s t : State} (h : exec i s = .next t) : t.cfg = s.cfg :=
  exec_keeps (P := fun u => u.cfg = s.cfg) (keptByDec_cfg _) (keptByEnc_cfg _) (fun _ hc => hc) (fun _ hc => hc)
    (fun _ _ hc => hc) (fun r v u hc => (putAcc_cfg r v u).trans hc) rfl h

/-- Settles O59: a step is an instruction, and no part of one writes the parameter. -/
theorem parameterIsConstant : Obligations.ParameterIsConstant := by
  refine ⟨fun i s t => exec_cfg, fun s t h => ?_⟩
  cases hp : s.pending with
  | nil => rw [step_of_pending_nil hp] at h; cases h; rfl
  | cons st rest =>
    obtain ⟨i, hi⟩ := exists_fetchInstr st { s with pending := rest }
    rw [step_of_pending_cons hp, stepOn_of_fetchInstr hi] at h
    have hcfg := exec_cfg h
    exact hcfg

/-! ### The canonical form of the buffers (log entry 1) -/

/-- Both buffers are in canonical form. -/
def BuffersCanonical (s : State) : Prop := s.dec.buf.wf = true ∧ s.enc.pay.wf = true

/-- DEC empties its buffer, leaves it, or writes one cell. -/
theorem keptByDec_buffersCanonical : KeptByDec BuffersCanonical := by
  rintro y s t ⟨hbuf, hpay⟩ h
  cases decMove_of_decStep h with
  | idle z hs => exact ⟨hbuf, hpay⟩
  | wait z hs hx => exact ⟨hbuf, hpay⟩
  | store hs hcnt => exact ⟨Memory.wf_write _ _ _ hbuf, hpay⟩
  | _ => exact ⟨rfl, hpay⟩

/-- Only the transfer of the checksum byte touches the latch (R97 to R100). -/
theorem EncRegs.afterSend_latch {e : EncRegs} (hs : e.state ≠ .chk) (b : Byte) :
    (e.afterSend b).type = e.type ∧ (e.afterSend b).len = e.len ∧ (e.afterSend b).pay = e.pay := by
  cases hst : e.state
  case chk => exact absurd hst hs
  case payload => cases hl : lastPayload e <;> simp [EncRegs.afterSend, hst, hl]
  all_goals simp [EncRegs.afterSend, hst]

/-- ENC empties its latch, leaves it, or latches a payload. -/
theorem keptByEnc_buffersCanonical : KeptByEnc BuffersCanonical := by
  rintro p s t ⟨hbuf, hpay⟩ h
  by_cases hs : s.enc.state = .idle
  · rw [encStep_idle hs, encStepIdle] at h
    split_ifs at h <;> cases h
    · exact ⟨hbuf, hpay⟩
    · exact ⟨hbuf, Memory.wf_ofBytes _⟩
    · exact ⟨hbuf, hpay⟩
  · obtain ⟨b, -, rfl⟩ := encStep_busy_eq_next hs h
    cases p.txReady
    case false => exact ⟨hbuf, hpay⟩
    case true =>
      refine ⟨hbuf, ?_⟩
      by_cases hchk : s.enc.state = .chk
      · simp [encOffer, EncRegs.afterSend, hchk, EncRegs.canonicalIdle, Memory.wf, Memory.risingFrom]
      · rw [encOffer, if_pos rfl, encCommit_enc, (EncRegs.afterSend_latch hchk b).2.2]
        exact hpay

/-- Settles O60: the steps of the units keep the form, the resets empty a buffer, and no other write touches one. -/
theorem buffersStayCanonical : Obligations.BuffersStayCanonical := by
  intro i s t hbuf hpay h
  exact exec_keeps (P := BuffersCanonical) keptByDec_buffersCanonical keptByEnc_buffersCanonical
    (fun _ hb => ⟨rfl, hb.2⟩) (fun _ hb => ⟨hb.1, rfl⟩) (fun _ _ hb => hb) (fun r _ _ hb => by cases r <;> exact hb)
    ⟨hbuf, hpay⟩ h

/-! ### The frames of the rows -/

/-- A row that keeps the body leaves the buffer as it is (R111, R116). -/
theorem exec_keepsBody {i : Instr} {s t : State} (hi : keepsBody i = true) (h : exec i s = .next t) :
    t.dec.buf = s.dec.buf := by
  cases i <;> simp only [keepsBody, Bool.false_eq_true] at hi
  case decAlIdle y => obtain ⟨-, h⟩ := whenSelected_eq_next.1 h; cases h; rfl
  case decAbWait y => obtain ⟨-, h⟩ := whenSelected_eq_next.1 h; cases h; rfl

/-- Settles O57: a DEC row is a DEC step, which writes DEC's side alone, and a store writes the cell `dec_cnt`. -/
theorem decRowsFrame : Obligations.DecRowsFrame := by
  refine ⟨fun i s t hi h => ?frame, fun b s t h => ?store⟩
  case frame =>
    have hbuf : keepsBody i = true → ∀ k, t.dec.buf.read k = s.dec.buf.read k := fun hk k => by rw [exec_keepsBody hk h]
    obtain ⟨y, hy⟩ := exec_decRow_eq_next hi h
    obtain ⟨ev, d, rfl⟩ := decStep_eq_next hy
    exact ⟨rfl, rfl, rfl, rfl, rfl, rfl, hbuf⟩
  case store =>
    obtain ⟨after, h⟩ : ∃ after, decStore b after s = .next t :=
      h.elim (fun h => ⟨_, (whenSelected_eq_next.1 h).2⟩) (fun h => ⟨_, (whenSelected_eq_next.1 h).2⟩)
    obtain ⟨-, rfl⟩ := decStore_eq_next.1 h
    exact ⟨Memory.read_write_same _ _ _, rfl, rfl, fun k hk => Memory.read_write_other _ _ _ _ hk⟩

/-- A row that keeps the payload leaves `enc_type`, `enc_len` and the latch as they are (R91, R93, R95, R97 to R99). -/
theorem exec_keepsPayload {i : Instr} {s t : State} (hi : keepsPayload i = true) (h : exec i s = .next t) :
    t.enc.type = s.enc.type ∧ t.enc.len = s.enc.len ∧ t.enc.pay = s.enc.pay := by
  cases i <;> simp only [keepsPayload, isEncRow, Bool.false_eq_true] at hi
  all_goals obtain ⟨-, h⟩ := whenSelected_eq_next.1 h
  case encPayloadStall | encPayloadEmit | encPayloadEmitLast =>
    obtain ⟨b, -, rfl⟩ := withPayloadByte_eq_next.1 h
    exact ⟨rfl, rfl, rfl⟩
  all_goals cases h; exact ⟨rfl, rfl, rfl⟩

/-- The accepting row latches the payload (R92). -/
theorem exec_encIdleAccept_pay {ty : Byte} {p : List Byte} {s t : State} (h : exec (.encIdleAccept ty p) s = .next t) :
    t.enc.pay = Memory.ofBytes p := by
  obtain ⟨-, h⟩ := whenSelected_eq_next.1 h
  cases h
  rfl

/-- The finishing row empties the latch (R100). -/
theorem exec_encChkEmit_pay {s t : State} (h : exec .encChkEmit s = .next t) : t.enc.pay = [] := by
  obtain ⟨-, h⟩ := whenSelected_eq_next.1 h
  cases h
  rfl

/-- Settles O58: an ENC row is an ENC step, which writes ENC's side alone; the latch by the kind of row. -/
theorem encRowsFrame : Obligations.EncRowsFrame := by
  intro i s t hi h
  have hkeeps : keepsPayload i = true → t.enc.type = s.enc.type ∧ t.enc.len = s.enc.len ∧
      ∀ k, t.enc.pay.read k = s.enc.pay.read k := fun hk => by
    obtain ⟨htype, hlen, hpay⟩ := exec_keepsPayload hk h
    exact ⟨htype, hlen, fun k => by rw [hpay]⟩
  have haccept : ∀ ty p, i = .encIdleAccept ty p → ∀ k, t.enc.pay.read k = p[k]? := by
    rintro ty p rfl k
    rw [exec_encIdleAccept_pay h, Memory.read_ofBytes]
  have hfinish : i = .encChkEmit → ∀ k, t.enc.pay.read k = none := by
    rintro rfl k
    rw [exec_encChkEmit_pay h, Memory.read_nil]
  obtain ⟨p, hp⟩ := exec_encRow_eq_next hi h
  obtain ⟨o, sent, e, rfl⟩ := encStep_eq_next hp
  exact ⟨rfl, rfl, rfl, rfl, rfl, rfl, rfl, hkeeps, haccept, hfinish⟩

end Sys2Proof.Machine
end

section
/-! The two units have disjoint state (60_exceptions R166): a step of one reads and writes what is its own. -/

namespace Sys2Proof.Machine

/-- DEC's side of a state written: registers and outputs, bytes consumed and events added. -/
def decUpdate (d : DecRegs) (o : DecOut) (n : Nat) (evs : List DecEvent) (s : State) : State :=
  { s with dec := d, decOut := o, rxPos := s.rxPos + n, events := s.events ++ evs }

/-- A DEC input, reset or not, reads DEC's registers and `T` alone, and writes DEC's side. -/
theorem stepOn_dec_local {p : DecIn} {s t : State} (h : stepOn (.dec p) s = .next t) :
    ∃ d o n evs, ∀ s' : State, s'.dec = s.dec → s'.cfg = s.cfg →
      stepOn (.dec p) s' = .next (decUpdate d o n evs s') := by
  cases hr : p.rst with
  | true =>
    refine ⟨DecRegs.canonicalIdle, DecOut.quiet, 0, [], fun s' _ _ => ?_⟩
    rw [stepOn_dec_rst hr, resetDec, decUpdate, Nat.add_zero, List.append_nil]
  | false =>
    rw [stepOn_dec hr] at h
    obtain ⟨ev, d, hlocal⟩ := decStep_local h
    exact ⟨d, _, _, _, fun s' hd hc => by rw [stepOn_dec hr, hlocal s' hd hc]; rfl⟩

/-- A step of ENC reads ENC's registers, and nothing else: where these are the same, it writes the same. -/
theorem encStep_local {p : EncIn} {s t : State} (h : encStep p s = .next t) :
    ∃ o sent e, ∀ s' : State, s'.enc = s.enc → encStep p s' = .next (encCommit o sent e s') := by
  by_cases hs : s.enc.state = .idle
  · have hidle : ∀ s' : State, s'.enc = s.enc → encStep p s' = encStepIdle p s' :=
      fun s' he => encStep_idle (by rw [he, hs]) p
    cases hst : p.start with
    | false => exact ⟨idleOut none, [], s.enc, fun s' he => by simp [hidle s' he, encStepIdle, hst, encNothing, he]⟩
    | true =>
      cases ho : oversized p with
      | false => exact ⟨_, _, _, fun s' he => by simp only [hidle s' he, encStepIdle, hst, ho]; rfl⟩
      | true =>
        exact ⟨idleOut (some .oversize), [], s.enc, fun s' he => by
          simp [hidle s' he, encStepIdle, hst, ho, takeReject, he]⟩
  · obtain ⟨b, hb, -⟩ := encStep_busy_eq_next hs h
    have hoffer : ∀ s' : State, s'.enc = s.enc → encStep p s' = .next (encOffer b p.txReady s') :=
      fun s' he => encStep_of_offered (by rw [he, hb])
    cases hr : p.txReady with
    | false => exact ⟨offerOut b false, [], s.enc, fun s' he => by simp [hoffer s' he, hr, encOffer, encHold, he]⟩
    | true => exact ⟨_, _, _, fun s' he => by rw [hoffer s' he, hr, encOffer, if_pos rfl, he]⟩

/-- An ENC input, reset or not, reads ENC's registers alone, and writes ENC's side. -/
theorem stepOn_enc_local {p : EncIn} {s t : State} (h : stepOn (.enc p) s = .next t) :
    ∃ o sent e, ∀ s' : State, s'.enc = s.enc → stepOn (.enc p) s' = .next (encCommit o sent e s') := by
  cases hr : p.rst with
  | true =>
    exact ⟨EncOut.quiet, [], EncRegs.canonicalIdle, fun s' _ => by rw [stepOn_enc_rst hr, encCommit_nil]; rfl⟩
  | false =>
    rw [stepOn_enc hr] at h
    obtain ⟨o, sent, e, hlocal⟩ := encStep_local h
    exact ⟨o, sent, e, fun s' he => by rw [stepOn_enc hr, hlocal s' he]⟩

/-- Settles O56: with the other side changed the step reads the same and writes the same. -/
theorem unitsDoNotInterfere : Obligations.UnitsDoNotInterfere := by
  refine ⟨fun s t p e o l h => ?dec, fun s t p d o n evs h => ?enc⟩
  case dec =>
    obtain ⟨d, out, n, evs, hlocal⟩ := stepOn_dec_local h
    cases h.symm.trans (hlocal s rfl rfl)
    exact ⟨rfl, rfl, rfl, hlocal { s with enc := e, encOut := o, txLog := l } rfl rfl⟩
  case enc =>
    obtain ⟨out, sent, e, hlocal⟩ := stepOn_enc_local h
    cases h.symm.trans (hlocal s rfl)
    exact ⟨rfl, rfl, rfl, rfl, hlocal { s with dec := d, decOut := o, rxPos := n, events := evs } rfl⟩

/-- Settles O55: each step completes, is the same after the other, and they write different sides. -/
theorem unitStepsCommute : Obligations.UnitStepsCommute := by
  intro s p q hi
  obtain ⟨t, ht⟩ := stepOn_completes (.dec p) hi
  obtain ⟨u, hu⟩ := stepOn_completes (.enc q) hi
  obtain ⟨d, o, n, evs, hdec⟩ := stepOn_dec_local ht
  obtain ⟨out, sent, e, henc⟩ := stepOn_enc_local hu
  have hdecFirst : runStims [.dec p, .enc q] s = .next (encCommit out sent e (decUpdate d o n evs s)) := by
    rw [runStims, hdec s rfl rfl, andThen_next, runStims, henc (decUpdate d o n evs s) rfl]; rfl
  have hencFirst : runStims [.enc q, .dec p] s = .next (decUpdate d o n evs (encCommit out sent e s)) := by
    rw [runStims, henc s rfl, andThen_next, runStims, hdec (encCommit out sent e s) rfl rfl]; rfl
  exact ⟨⟨_, hdecFirst⟩, hdecFirst.trans hencFirst.symm⟩

end Sys2Proof.Machine
end

section
/-! Frames as whole transactions (43_frame_types R140 to R145; 30_encoding R73, R74; log entry 10). -/

namespace Sys2Proof.Machine

/-! ### The tx stream -/

/-- The inputs of `tx_ready = 1` and no command that follow the command of `ENC t, [p]` (30_encoding R73). -/
abbrev readyStims (n : Nat) : List Stim := List.replicate n (.enc (EncIn.noCommand true))

theorem runStims_readyStims_succ (n : Nat) (s : State) :
    runStims (readyStims (n + 1)) s = andThen (encStep (EncIn.noCommand true) s) (runStims (readyStims n)) := by
  rw [readyStims, List.replicate_succ, runStims, stepOn_enc rfl]

/-- One step with `tx_ready = 1` inside a frame: it sends the first byte still to be sent, and `enc_done` says that it
was the last. -/
theorem encStep_ready {s : State} (hi : s.enc.Inv) (hs : s.enc.remaining ≠ []) :
    ∃ b u, encStep (EncIn.noCommand true) s = .next u ∧ u.enc.Inv ∧ s.enc.remaining = b :: u.enc.remaining ∧
      (u.encOut.done = true ↔ u.enc.remaining = []) := by
  obtain ⟨b, hstep, hinv, hrem, hlast⟩ := encStep_remaining hi hs (EncIn.noCommand true)
  exact ⟨b, _, hstep, hinv, hrem, by simp [offerOut, ← hlast, encOffer, EncIn.noCommand]⟩

/-- Draining a frame is one step for each byte still to be sent. -/
theorem encDrain_eq_runStims (k : Nat) {n : Nat} {s : State} (hi : s.enc.Inv) (hk : s.enc.remaining.length = k + 1)
    (hn : k < n) : encDrain n s = runStims (readyStims (k + 1)) s := by
  obtain ⟨n, rfl⟩ : ∃ m, n = m + 1 := ⟨n - 1, by omega⟩
  induction k generalizing n s with
  | zero =>
    obtain ⟨b, u, hstep, -, hrem, hdone⟩ := encStep_ready hi (List.ne_nil_of_length_pos (by omega))
    have hnil : u.enc.remaining = [] := by simpa [hrem] using hk
    rw [runStims_readyStims_succ, encDrain, hstep, andThen_next, andThen_next, if_pos (hdone.2 hnil)]
    rfl
  | succ k ih =>
    obtain ⟨b, u, hstep, hinv, hrem, hdone⟩ := encStep_ready hi (List.ne_nil_of_length_pos (by omega))
    have hlen : u.enc.remaining.length = k + 1 := by simpa [hrem] using hk
    have hmore : ¬ u.encOut.done = true := mt hdone.1 (List.ne_nil_of_length_pos (by omega))
    obtain ⟨n, rfl⟩ : ∃ m, n = m + 1 := ⟨n - 1, by omega⟩
    rw [runStims_readyStims_succ, encDrain, hstep, andThen_next, andThen_next, if_neg hmore, ih hinv hlen n (by omega)]

/-- The steps with `tx_ready = 1` for the bytes still to be sent: they are sent, and ENC is idle again (R101). -/
theorem runStims_readyStims (init : List Byte) {c : Byte} {s : State} (hi : s.enc.Inv)
    (hrem : s.enc.remaining = init ++ [c]) :
    runStims (readyStims (init.length + 1)) s = .next { s with
      enc := EncRegs.canonicalIdle, encOut := offerOut c true, txLog := s.txLog ++ (init ++ [c]) } := by
  induction init generalizing s with
  | nil => rw [runStims_readyStims_succ, encStep_last rfl hi hrem, andThen_next]; rfl
  | cons b init ih =>
    obtain ⟨b', hstep, hinv, hcons, -⟩ := encStep_remaining hi (by simp [hrem]) (EncIn.noCommand true)
    obtain ⟨rfl, hrest⟩ := List.cons.inj (hrem.symm.trans hcons)
    rw [runStims_readyStims_succ, hstep, andThen_next, List.length_cons, ih hinv hrest.symm]
    simp [encOffer, EncIn.noCommand, encCommit]

section
variable {s : State} (hs : s.enc = EncRegs.canonicalIdle) (t : Byte) {p : List Byte} (hp : p.length ≤ 254)
include hs hp

/-- The command of a frame that fits is accepted by an idle ENC, and the whole frame is still to be sent. -/
theorem encStep_command : encStep (EncIn.command t p true) s = .next (encAccept t p s) ∧ (encAccept t p s).enc.Inv := by
  have hstep := encStep_accept (p := EncIn.command t p true) (s := s) (by rw [hs]; rfl) rfl hp
  exact ⟨hstep, encStep_keeps_inv (by rw [hs]; exact EncRegs.canonicalIdle_inv) hstep⟩

/-- The frame as one transaction is its statement `ENC t, [p]` (30_encoding R73). -/
theorem sendFrame_eq_runStims : sendFrame t p s = runStims (encStims t p) s := by
  obtain ⟨hstep, hinv⟩ := encStep_command hs t hp
  obtain ⟨n, hn, hsend⟩ := sendFrame_eq t p s
  have hlen : (encAccept t p s).enc.remaining.length = p.length + 2 + 1 := by rw [encAccept_remaining]; simp
  have hfits : ¬ payloadMax < p.length := Nat.not_lt.2 hp
  rw [hsend, hstep, andThen_next, if_neg (by simp [encAccept]), encDrain_eq_runStims _ hinv hlen (by omega), encStims,
    if_neg hfits, runStims, stepOn_enc rfl, hstep, andThen_next]

/-- An idle ENC sends the frame and is idle again. -/
theorem sendFrame_eq_next {l : Byte} (hl : l.toNat = 1 + p.length) : sendFrame t p s = .next { s with
    encOut := offerOut (chk (l :: t :: p)) true
    txLog := s.txLog ++ (l :: t :: p ++ [chk (l :: t :: p)]) } := by
  obtain rfl : BitVec.ofNat 8 (1 + p.length) = l :=
    BitVec.eq_of_toNat_eq (by rw [lengthByte_toNat hp, hl])
  obtain ⟨hstep, hinv⟩ := encStep_command hs t hp
  have hfits : ¬ payloadMax < p.length := Nat.not_lt.2 hp
  have hrun := runStims_readyStims _ hinv (encAccept_remaining t p s)
  rw [sendFrame_eq_runStims hs t hp, encStims, if_neg hfits, runStims, stepOn_enc rfl, hstep, andThen_next]
  refine hrun.trans ?_
  simp [encAccept, encCommit, hs]

end

/-- Settles O38: the four frames are sent by the one transaction; their checksums are folds of the bytes written out. -/
theorem idleEncoderSendsTheFrame : Obligations.IdleEncoderSendsTheFrame := by
  intro s hs
  refine ⟨?discovery, fun p0 p1 p2 p3 => ⟨chk [0x05#8, 0x01#8, p0, p1, p2, p3], ?cpuSum, ?cpu⟩,
    fun p0 p1 p2 p3 => ⟨chk [0x05#8, 0x02#8, p0, p1, p2, p3], ?memSum, ?mem⟩,
    fun t p hp => ⟨_, _, lengthByte_toNat hp, rfl, ?reserved⟩⟩
  case discovery => exact sendFrame_eq_next hs 0xFF#8 (p := []) (by simp) (l := 0x01#8) rfl
  case cpu => exact sendFrame_eq_next hs 0x01#8 (p := [p0, p1, p2, p3]) (by simp) (l := 0x05#8) rfl
  case cpuSum => simp [chk, absorb]
  case mem => exact sendFrame_eq_next hs 0x02#8 (p := [p0, p1, p2, p3]) (by simp) (l := 0x05#8) rfl
  case memSum => simp [chk, absorb]
  case reserved =>
    rw [List.append_assoc]
    exact sendFrame_eq_next hs t hp (lengthByte_toNat hp)

/-! ### The rx stream -/

/-- An aligned DEC delivers the frame. -/
theorem receiveFrame_eq_next {s : State} (hs : s.dec = DecRegs.canonicalIdle) (t : Byte) {p : List Byte}
    (hp : p.length ≤ 254) : receiveFrame t p s = .next { s with
      decOut := { rdEn := true, event := some (.deliver t p) }
      rxPos := s.rxPos + (p.length + 3)
      events := s.events ++ [.deliver t p] } := by
  rw [receiveFrame, encodeFrame_of_le hp]
  exact receiveBytes_frame hs (encodeFrame_of_le hp)

/-- A header that is not registered is not for a consumer of this version (43_frame_types R145). -/
theorem classify_of_not_registered {t : Byte} {n : Nat} (h : registered t n = false) : classify t n = .ignore := by
  simp only [registered, Bool.or_eq_false_iff, Bool.and_eq_false_iff, beq_eq_false_iff_ne, ← not_and_or] at h
  obtain ⟨⟨hdiscovery, hcpu⟩, hmem⟩ := h
  rw [classify, if_neg hdiscovery, if_neg hcpu, if_neg hmem]

/-- Settles O39: the four frames are received by the one transaction, and the class is that of the header. -/
theorem alignedDecoderDeliversTheFrame : Obligations.AlignedDecoderDeliversTheFrame := by
  intro s hs
  refine ⟨?discovery, rfl, fun p0 p1 p2 p3 => ⟨?cpu, rfl⟩, fun p0 p1 p2 p3 => ⟨?mem, rfl⟩,
    fun t p hp => ⟨receiveFrame_eq_next hs t hp, fun hreg => ?ignore⟩⟩
  case discovery => exact receiveFrame_eq_next hs 0xFF#8 (p := []) (by simp)
  case cpu => exact receiveFrame_eq_next hs 0x01#8 (p := [p0, p1, p2, p3]) (by simp)
  case mem => exact receiveFrame_eq_next hs 0x02#8 (p := [p0, p1, p2, p3]) (by simp)
  case ignore => rw [DecEvent.consumerClass, classify_of_not_registered hreg]

/-! ### Either stream -/

/-- Settles O40: the step rejects the command and leaves ENC idle, and `Encode` gives DEC no bytes. -/
theorem oversizeFrameIsNotSent : Obligations.OversizeFrameIsNotSent := by
  intro s t p hp
  refine ⟨fun hs => ?tx, ?rx⟩
  case tx =>
    have hreject := encStep_reject (p := EncIn.command t p true) hs rfl hp
    obtain ⟨n, -, hsend⟩ := sendFrame_eq t p s
    change sendFrame t p s = _
    rw [hsend, hreject, andThen_next, if_pos (show (takeReject .oversize s).enc.state = .idle from hs), takeReject,
      encCommit_nil]
    rfl
  case rx =>
    change receiveFrame t p s = _
    rw [receiveFrame, encodeFrame_of_gt hp]

/-- Settles O41: the row that the header selects is the frame's run, and that is the run of the statement's steps. -/
theorem frameRowIsItsStatement : Obligations.FrameRowIsItsStatement := by
  intro s t p f hf
  obtain ⟨hp, -⟩ := encodeFrame_eq_frame_iff.1 hf
  have hrx : runFrame .rx t p s = runStims (rxsStims f) s := by rw [runFrame, receiveFrame, hf, runStims_rxs]
  refine ⟨?rx, fun hs => ?tx⟩
  case rx =>
    obtain ⟨i, hi, hexec⟩ := selectWire_eq .rx t p hp
    exact ⟨i, hi, by rw [hexec, hrx], by rw [stepOn_frame, hrx]⟩
  case tx =>
    obtain ⟨i, hi, hexec⟩ := selectWire_eq .tx t p hp
    have htx : runFrame .tx t p s = runStims (encStims t p) s := sendFrame_eq_runStims hs t hp
    exact ⟨i, hi, by rw [hexec, htx], by rw [stepOn_frame, htx]⟩

end Sys2Proof.Machine
end

section
/-! The pure functions (40_checksum R80; 41_encoder R90; 43_frame_types R145). -/

namespace Sys2Proof.Machine

theorem exec_chkFold (bs : List Byte) (s : State) : exec (.chkFold bs) s = .next (putFunc (.chk (chk bs)) s) := rfl

theorem exec_encode (t : Byte) (p : List Byte) (s : State) :
    exec (.encode t p) s = .next (putFunc (.encode (encodeFrame t p)) s) := rfl

theorem exec_dispatchClass (t : Byte) (n : Nat) (s : State) :
    exec (.dispatchClass t n) s = .next (putFunc (.dispatchClass (classify t n)) s) := rfl

/-- Settles O6: the fold from zero, byte by byte, put out. -/
theorem chkFoldRow : Obligations.ChkFoldRow := ⟨chk_nil, chk_concat, exec_chkFold⟩

/-- Settles O10: the boundary is the greatest payload whose length byte does not wrap. -/
theorem encodeRow : Obligations.EncodeRow := by
  intro t p s
  refine ⟨fun hp => ?reject, fun hp => ⟨_, lengthByte_toNat hp, ?frame, by simp⟩⟩
  case reject => rw [exec_encode, encodeFrame_of_gt hp, putFunc]
  case frame => rw [exec_encode, encodeFrame_of_le hp, putFunc]

/-- Settles O11: the three registered headers differ in type, and any other is ignored. -/
theorem dispatchClassRow : Obligations.DispatchClassRow := by
  intro t n s
  refine ⟨classify t n, exec_dispatchClass t n s, ?discovery, ?cpu, ?mem, fun hdiscovery hcpu hmem => ?ignore⟩
  case discovery => rintro rfl rfl; rfl
  case cpu => rintro rfl rfl; rfl
  case mem => rintro rfl rfl; rfl
  case ignore => rw [classify, if_neg hdiscovery, if_neg hcpu, if_neg hmem]

end Sys2Proof.Machine
end
